-- ==== Sys2Proof/Word.lean ====
section
/-!
DEFINITION. The words ODSP-CORE is made of: the 32-bit host word, the byte of the host address space, and the PREC
sample (spec/00_scope.md rules R9 and R11, spec/20_memory.md rules R81 and R87).
-/
namespace Sys2Proof

/-- A 32-bit host word: a CSR, a command word, a node-descriptor word, half (or all) of a sample (R81, R88). -/
abbrev Word := BitVec 32

/-- One byte of the host address space (R87). -/
abbrev Byte := BitVec 8

/-- A PREC value, as its bits. A binary64 build uses all 64 bits. A binary32 build uses bits [31:0] and keeps the
upper ones 0 (R9; notes/assumptions/4.md). -/
abbrev Sample := BitVec 64

/-- The spec's `v[hi:lo]` of a host word, read as an unsigned integer (R11). -/
def bits (v : Word) (hi lo : Nat) : Nat := v.toNat / 2 ^ lo % 2 ^ (hi + 1 - lo)

end Sys2Proof
end

