-- ==== Sys2Proof/Config.lean ====
section
/-!
DEFINITION. What an implementation of ODSP-CORE fixes (the four build parameters of spec/00_scope.md rules R6 to R9)
and the values that the spec leaves free (spec/10_state.md rule R59, spec/70_reset_and_hazards.md rule R271).
-/
namespace Sys2Proof

/-- The build parameter PREC (R9): the IEEE 754 format of every sample of the instance. -/
inductive Prec where
  | binary32
  | binary64
  deriving DecidableEq, Repr

/-- W, the sample width in bits (R9). -/
def Prec.width : Prec → Nat
  | .binary32 => 32
  | .binary64 => 64

/-- The four build parameters (R6). They are fixed for the life of an instance: no step changes them. -/
structure Build where
  /-- LOG2N_MAX, the largest transform exponent (R7). -/
  log2nMax : Nat
  /-- NBANK, the number of data banks (R8). -/
  nbank : Nat
  /-- NCTX, the number of overlap-add contexts (R8). -/
  nctx : Nat
  /-- PREC (R9). -/
  prec : Prec
  deriving DecidableEq, Repr

/-- NMAX = 2^LOG2N_MAX, the largest transform size and the length of every bank in samples (R7). -/
def Build.nmax (b : Build) : Nat := 2 ^ b.log2nMax

/-- WB = W/8, the sample width in bytes (R9). -/
def Build.wb (b : Build) : Nat := b.prec.width / 8

/-- HPS = W/32, the number of host words per sample (R9). -/
def Build.hps (b : Build) : Nat := b.prec.width / 32

/-- The ranges that R7 and R8 give the build parameters. -/
abbrev Build.valid (b : Build) : Prop :=
  3 ≤ b.log2nMax ∧ b.log2nMax ≤ 20 ∧ 4 ≤ b.nbank ∧ b.nbank ≤ 16 ∧ 1 ≤ b.nctx ∧ b.nctx ≤ 8

/-- The reference configuration of R6, which every test vector of spec/95_test_vectors.md uses. -/
def Build.reference : Build := ⟨10, 8, 2, .binary64⟩

/-- The byte that a bank address holds while nothing has written it since the reset number `epoch` (R59, item I1 of
spec/93_implementation_defined.md: "any value"). A free value: no body, so no proof can know it. -/
opaque Config.unwrittenByte (epoch addr : Nat) : Byte

/-- The entry `j` of KR (`which` = 0), KI (1) or ACC (2) of context `c` while nothing has written it since the reset
number `epoch` (R59, item I2: "any value"). A free value. -/
opaque Config.unwrittenContext (epoch c which j : Nat) : Sample

/-- What the reset number `n` of those that aborted a command leaves in sample `j` of bank `b`, which the command would
have written (R271, item I3: "any value"). A free value. -/
opaque Config.abortedSample (n b j : Nat) : Sample

/-- What that reset leaves in entry `j` of KR (0), KI (1) or ACC (2) of context `c` (R271, item I3). A free value. -/
opaque Config.abortedContext (n c which j : Nat) : Sample

end Sys2Proof
end

