-- ==== Sys2Proof/Syntax.lean ====
section
/-!
DEFINITION. The commands of ODSP-CORE: one constructor per row of spec/opcode_table.json, with the operands of
spec/30_encoding.md rules R112 to R116 as unsigned integers.
-/
namespace Sys2Proof

/-- The `sign` argument of the spectral product: bit S of the word, 0 for +1 and 1 for -1 (R115). -/
inductive Sign where
  | plus
  | minus
  deriving DecidableEq, Repr

/-- The 15 commands of the opcode map (R116). Banks (`xr xi yr yi kb ib ob`) are 4-bit fields, contexts (`c m`) 3-bit
fields and exponents (`lg`) 5-bit fields (R115). -/
inductive Instr where
  /-- NOP (R181). -/
  | nop
  /-- CFG lg: construct the facade, unlinked (R182). -/
  | cfg (lg : Nat)
  /-- LINK xr, xi, yr, yi: bind the facade to four banks (R184). -/
  | link (xr xi yr yi : Nat)
  /-- CFGL xr, xi, yr, yi, lg: construct and link (R183). -/
  | cfgl (xr xi yr yi lg : Nat)
  /-- FWD: forward transform on the current link (R185). -/
  | fwd
  /-- INV: inverse transform on the current link (R187). -/
  | inv
  /-- FWDL xr, xi, yr, yi: link, then forward transform (R186). -/
  | fwdl (xr xi yr yi : Nat)
  /-- INVL xr, xi, yr, yi: link, then inverse transform (R188). -/
  | invl (xr xi yr yi : Nat)
  /-- PROD xr, xi, yr, yi, sign: spectral product into Y (R189). -/
  | prod (xr xi yr yi : Nat) (sign : Sign)
  /-- OCFG c, kb: configure context c as an owner (R216). -/
  | ocfg (c kb : Nat)
  /-- OCFGS c, m, kb: configure context c as a slave of master m (R217). -/
  | ocfgs (c m kb : Nat)
  /-- OFLT c, ib, ob: filter one input block (R218). -/
  | oflt (c ib ob : Nat)
  /-- OFLS c, ob: flush (R219). -/
  | ofls (c ob : Nat)
  /-- OINI c: reset the accumulation state (R220). -/
  | oini (c : Nat)
  /-- OCLR c: release the context (R221). -/
  | oclr (c : Nat)
  deriving DecidableEq, Repr

end Sys2Proof
end

