-- ==== Sys2Proof/Machine/State.lean ====
section
/-!
DEFINITION. The state of ODSP-CORE as plain data: everything spec/10_state.md rule R30 lists, the host's transactions
that are still to come (spec/20_memory.md rules R81 and R95), and the reset state of rule R58.
-/
namespace Sys2Proof.Machine

/-- The reasons a step can stop with a fault: none. A host transaction never fails with a bus error (R81), a rejected
command is reported through STATUS and the machine goes on (R246), an accepted command cannot fail (R241) and there are
no memory faults or arithmetic exceptions (R242). So the type has no constructor. Safe: nothing is stopped. -/
inductive Fault where
  deriving DecidableEq, Repr

/-- The reasons a step can be refused. -/
inductive Refusal where
  /-- The command has no meaning in this model. Raised by no arm of `exec`: every command of the table has its
  meaning. Safe. -/
  | notModelled (mnemonic : String)
  deriving DecidableEq, Repr

/-- The codes of STATUS.ERRCODE (R245). The values 5 to 15 are never written. -/
inductive ErrCode where
  /-- 0: no error recorded. -/
  | none
  /-- 1: an operand or ARG value fails a range, equality or aliasing check. -/
  | invalidArg
  /-- 2: the command is not allowed in the current facade or context state. -/
  | invalidState
  /-- 3: the word does not decode. -/
  | illegalCmd
  /-- 4: a command was written while another was running. -/
  | busy
  deriving DecidableEq, Repr

/-- The command sequencer (R32). -/
inductive Sequencer where
  | idle
  /-- One accepted command with the values of ARG0 and ARG1 latched at its acceptance. `left` is the model's own: how
  many more host transactions come before the completion event (R284; notes/assumptions/2.md). -/
  | busy (cmd : Instr) (a0 a1 : Word) (left : Nat)
  deriving DecidableEq, Repr

/-- The facade: the transform configuration and its link (R50). CSR.TCFG and CSR.TLINK show it. -/
structure Facade where
  configured : Bool
  lg : Nat
  linked : Bool
  xr : Nat
  xi : Nat
  yr : Nat
  yi : Nat
  deriving DecidableEq, Repr

/-- The facade after reset: unconfigured and unlinked (R50, R58). -/
def Facade.fresh : Facade := ⟨false, 0, false, 0, 0, 0, 0⟩

/-- The kind of a node descriptor (R51). -/
inductive NodeKind where
  | generic
  | base8
  | base16
  deriving DecidableEq, Repr

/-- A node descriptor (R51): its kind, its log2 size, and the fixed arguments of its node. -/
structure Node where
  kind : NodeKind
  lgs : Nat
  seqoff : Nat
  seqstride : Nat
  toff : Nat
  deriving DecidableEq, Repr

/-- The state ST of an overlap-add context (R52). -/
inductive ContextKind where
  | free
  | owner
  | slave
  deriving DecidableEq, Repr

/-- An overlap-add context (R52). Entry j of KR, KI or ACC is the j-th element of its list. An entry past the end of
the list has not been written since reset (R59). -/
structure Context where
  st : ContextKind
  master : Nat
  klen : Nat
  blk : Nat
  lgfft : Nat
  kr : List Sample
  ki : List Sample
  acc : List Sample
  deriving DecidableEq, Repr

/-- A context after reset: FREE, with nothing written in KR, KI and ACC (R52, R58). -/
def Context.fresh : Context := ⟨.free, 0, 0, 0, 0, [], [], []⟩

/-- An event that the host side brings about: a 32-bit transaction (R81) or the reset (R270). -/
inductive HostOp where
  /-- `MemRead(addr, 4)`. -/
  | read (addr : Word)
  /-- `MemWrite(addr, 4, v, be)`. -/
  | write (addr v : Word) (be : BitVec 4)
  /-- The host platform asserts reset. -/
  | reset
  deriving DecidableEq, Repr

/-- The bytes of the data banks, at their host addresses (R82, R84). The canonical form is `Memory.wf`: addresses
strictly rising. A byte that nothing has written since reset is not listed. -/
abbrev Memory := List Host.Cell

/-- The canonical form of a memory: addresses strictly rising, so that equal memories are equal lists. An unlisted
byte is unwritten, which no listed byte is, so no entry equals what an unlisted address reads as. -/
abbrev Memory.wf (m : Memory) : Prop := (m.map Prod.fst).Pairwise (· < ·)

/-- The state of an ODSP-CORE instance and of what is still to happen to it. -/
structure State where
  /-- The build parameters, which CSR.PARAM reports (R6, R35). Never changed. -/
  build : Build
  /-- STATUS.DONE (R37). -/
  done : Bool
  /-- STATUS.ERR (R37). -/
  err : Bool
  /-- STATUS.ERROVF (R37). -/
  errovf : Bool
  /-- STATUS.ERRCODE (R37, R245). -/
  errcode : ErrCode
  /-- CSR.ERRCMD (R44). -/
  errcmd : Word
  /-- IRQEN.DONEIE (R38). -/
  doneie : Bool
  /-- IRQEN.ERRIE (R38). -/
  errie : Bool
  /-- CSR.ARG0 (R39). -/
  arg0 : Word
  /-- CSR.ARG1 (R40). -/
  arg1 : Word
  /-- The command sequencer (R32). STATUS.BUSY is 1 exactly when it is busy. -/
  seq : Sequencer
  /-- The facade state (R50). -/
  facade : Facade
  /-- The node table (R51). CSR.NODECNT is its length (R43). -/
  nodes : List Node
  /-- The overlap-add contexts, Ctx[0] first (R52). -/
  ctxs : List Context
  /-- The data banks (R54), by host byte address. -/
  mem : Memory
  /-- The model's own: how many resets have left the banks unspecified, the index of the free values of R59. -/
  epoch : Nat
  /-- The model's own: how many resets have aborted a command, the index of the free values of R271. -/
  aborts : Nat
  /-- The model's own: the host's events still to come, in the order the host issues them (R81, R95). -/
  bus : List HostOp
  /-- The model's own: for each command still to be accepted, how many host transactions come between its acceptance
  and its completion (R284). Where the list ends, a command completes at once. -/
  delays : List Nat
  /-- The model's own: the word that the host transaction just performed returned to the host (R81). -/
  rdata : Option Word
  deriving DecidableEq, Repr

/-- The reset state of a build (R58), with no host transaction to come. -/
def State.resetOf (b : Build) : State where
  build := b
  done := false
  err := false
  errovf := false
  errcode := .none
  errcmd := 0
  doneie := false
  errie := false
  arg0 := 0
  arg1 := 0
  seq := .idle
  facade := Facade.fresh
  nodes := []
  ctxs := List.replicate b.nctx Context.fresh
  mem := []
  epoch := 0
  aborts := 0
  bus := []
  delays := []
  rdata := none

/-- The machine right after reset, in the reference configuration (R6, R58, R270). -/
def State.reset : State := State.resetOf Build.reference

end Sys2Proof.Machine
end

