-- ==== Sys2Proof/Machine/Float.lean ====
section
/-!
DEFINITION. The arithmetic primitives of spec/00_scope.md rules R13 and R15: IEEE 754 binary32 and binary64 addition,
subtraction, multiplication and sign change, rounded to nearest with ties to even, with subnormals, infinities and the
canonical quiet NaN. Operands are turned into integers, the exact result is computed, and one function rounds it.
-/
namespace Sys2Proof.Machine

/-- The number of stored fraction bits of the format (R9). -/
def fracBits : Prec → Nat
  | .binary32 => 23
  | .binary64 => 52

/-- The exponent field that is all ones (R9). -/
def expOnes : Prec → Nat
  | .binary32 => 255
  | .binary64 => 2047

/-- The exponent bias of the format (R9). -/
def expBias : Prec → Nat
  | .binary32 => 127
  | .binary64 => 1023

/-- The smallest positive value of the format is 2^-(quantumExp): the quantum in which every finite value is an
integer. It is 2^-149 in binary32 and 2^-1074 in binary64. -/
def quantumExp (p : Prec) : Nat := expBias p + fracBits p - 1

/-- The bits of positive infinity: exponent all ones, fraction 0. -/
def infBits (p : Prec) : Nat := expOnes p * 2 ^ fracBits p

/-- The weight of the sign bit. -/
def signWeight (p : Prec) : Nat := 2 ^ (p.width - 1)

/-- The sign bit of a value. -/
def fsign (p : Prec) (x : Sample) : Bool := decide (x.toNat / signWeight p % 2 = 1)

/-- The bits of a value without its sign. -/
def fbits (p : Prec) (x : Sample) : Nat := x.toNat % signWeight p

/-- The value is a NaN. -/
def isNaN (p : Prec) (x : Sample) : Bool := decide (infBits p < fbits p x)

/-- The value is an infinity. -/
def isInf (p : Prec) (x : Sample) : Bool := decide (fbits p x = infBits p)

/-- The value is +0 or -0. -/
def isZero (p : Prec) (x : Sample) : Bool := decide (fbits p x = 0)

/-- The magnitude of a finite value, in quanta, from its bits without the sign. -/
def magOfBits (p : Prec) (n : Nat) : Nat :=
  if n < 2 ^ fracBits p then n
  else (2 ^ fracBits p + n % 2 ^ fracBits p) * 2 ^ (n / 2 ^ fracBits p - 1)

/-- The magnitude of a finite value, in quanta. -/
def mag (p : Prec) (x : Sample) : Nat := magOfBits p (fbits p x)

/-- A finite value as an integer number of quanta. -/
def quanta (p : Prec) (x : Sample) : Int := if fsign p x then -(mag p x : Int) else mag p x

/-- A value from its sign and its bits without the sign. -/
def pack (p : Prec) (sign : Bool) (n : Nat) : Sample :=
  BitVec.ofNat 64 (if sign then signWeight p + n else n)

/-- The canonical quiet NaN of the format (R13). -/
def qNaN (p : Prec) : Sample := BitVec.ofNat 64 (infBits p + 2 ^ (fracBits p - 1))

/-- Positive zero (R14). -/
def plusZero : Sample := 0

/-- The quotient n / 2^d rounded to the nearest integer, ties to even (R13). -/
def rneShift (n d : Nat) : Nat :=
  let q := n / 2 ^ d
  let r := n % 2 ^ d
  if 2 ^ d < 2 * r ∨ (2 ^ d = 2 * r ∧ q % 2 = 1) then q + 1 else q

/-- How many low bits of n the format cannot hold, of a magnitude of n * 2^-k quanta: at least the k bits below the
quantum, and all bits below the precision. -/
def dropBits (p : Prec) (n k : Nat) : Nat := max k (n.log2 - fracBits p)

/-- The bits (without sign) of the format's value nearest to n * 2^-k quanta, ties to even, with overflow to infinity
and gradual underflow (R13). A carry out of the fraction moves into the exponent field by itself. -/
def roundMag (p : Prec) (n k : Nat) : Nat :=
  min (infBits p) ((dropBits p n k - k) * 2 ^ fracBits p + rneShift n (dropBits p n k))

/-- `fneg(a)`: the sign bit inverted, of a NaN as well (R13). -/
def fneg (p : Prec) (a : Sample) : Sample := a ^^^ BitVec.ofNat 64 (signWeight p)

/-- The rounded sum of two finite values. An exact zero sum is -0 only if both operands are negative (R13). -/
def faddFinite (p : Prec) (a b : Sample) : Sample :=
  let s := quanta p a + quanta p b
  if s = 0 then pack p (fsign p a && fsign p b) 0
  else pack p (decide (s < 0)) (roundMag p s.natAbs 0)

/-- `fadd(a, b)`: the rounded sum (R13). -/
def fadd (p : Prec) (a b : Sample) : Sample :=
  if isNaN p a || isNaN p b then qNaN p
  else if isInf p a then
    if isInf p b && (fsign p a != fsign p b) then qNaN p else pack p (fsign p a) (infBits p)
  else if isInf p b then pack p (fsign p b) (infBits p)
  else faddFinite p a b

/-- `fsub(a, b)`: the rounded difference (R13). -/
def fsub (p : Prec) (a b : Sample) : Sample := fadd p a (fneg p b)

/-- `fmul(a, b)`: the rounded product (R13). -/
def fmul (p : Prec) (a b : Sample) : Sample :=
  let sign := fsign p a != fsign p b
  if isNaN p a || isNaN p b then qNaN p
  else if isInf p a || isInf p b then
    if isZero p a || isZero p b then qNaN p else pack p sign (infBits p)
  else pack p sign (roundMag p (mag p a * mag p b) (quantumExp p))

/-- The constant H, nearest to sqrt(2)/2 (R15). -/
def constH : Prec → Sample
  | .binary32 => 0x3F3504F3
  | .binary64 => 0x3FE6A09E667F3BCD

/-- SCALE(lg), the exact value 2^-lg (R15). -/
def scale (p : Prec) (lg : Nat) : Sample := BitVec.ofNat 64 ((expBias p - lg) * 2 ^ fracBits p)

end Sys2Proof.Machine
end

