-- ==== Sys2Proof/Machine/Twiddle.lean ====
section
/-!
DEFINITION. The twiddle ROM (spec/40_twiddle_rom.md rules R140 to R144). Each entry is computed from the exact
fraction of a turn that it stands for, in fixed point with 256 fractional bits, and rounded once to the format
(Sys2Proof/Laws/Twiddle.lean bounds the error; notes/assumptions/6.md says why this is the correctly rounded value).
-/
namespace Sys2Proof.Machine

/-- The number of fractional bits of the fixed-point evaluation. -/
def fixBits : Nat := 256

/-- 2*pi in fixed point, rounded down. -/
def twoPiFix : Nat := 0x6487ed5110b4611a62633145c06e0e68948127044533e63a0105df531d89cd912

/-- The alternating Taylor tail t - t*x^2/((i+1)(i+2)) + ... in fixed point, `n` terms of it, where `x2` is x^2. It is
cos x for i = 0 and t = 1, and sin x for i = 1 and t = x. -/
def taylor : Nat → Nat → Nat → Nat → Nat
  | 0, _, _, _ => 0
  | n + 1, i, t, x2 => t - taylor n (i + 2) (t * x2 / 2 ^ fixBits / ((i + 1) * (i + 2))) x2

/-- How many terms of the Taylor series are summed. -/
def taylorTerms : Nat := 32

/-- The angle of r/2^l of a turn, in fixed point. -/
def angleFix (l r : Nat) : Nat := twoPiFix * r / 2 ^ l

/-- cos of r/2^l of a turn in fixed point, for at most an eighth of a turn. -/
def cosFix (l r : Nat) : Nat :=
  taylor taylorTerms 0 (2 ^ fixBits) (angleFix l r * angleFix l r / 2 ^ fixBits)

/-- sin of r/2^l of a turn in fixed point, for at most an eighth of a turn. -/
def sinFix (l r : Nat) : Nat :=
  taylor taylorTerms 1 (angleFix l r) (angleFix l r * angleFix l r / 2 ^ fixBits)

/-- The format's value nearest to the fixed-point magnitude n, with the sign given; zero is +0 (R15, R141). -/
def roundFix (p : Prec) (neg : Bool) (n : Nat) : Sample :=
  if n = 0 then plusZero else pack p neg (roundMag p (n * 2 ^ quantumExp p) fixBits)

/-- RN(cos) of r/2^l of a turn, for less than three eighths of a turn. Beyond an eighth it is minus the sine of the
distance from a quarter turn, with its sign. -/
def cosTurn (p : Prec) (l r : Nat) : Sample :=
  if 8 * r ≤ 2 ^ l then roundFix p false (cosFix l r)
  else if 4 * r ≤ 2 ^ l then roundFix p false (sinFix (l + 2) (2 ^ l - 4 * r))
  else roundFix p true (sinFix (l + 2) (4 * r - 2 ^ l))

/-- RN(-sin) of r/2^l of a turn, for less than three eighths of a turn. Beyond an eighth the sine is the cosine of
the distance from a quarter turn. -/
def negSinTurn (p : Prec) (l r : Nat) : Sample :=
  if 8 * r ≤ 2 ^ l then roundFix p true (sinFix l r)
  else if 4 * r ≤ 2 ^ l then roundFix p true (cosFix (l + 2) (2 ^ l - 4 * r))
  else roundFix p true (cosFix (l + 2) (4 * r - 2 ^ l))

/-- ROM[t][j] (R141): table 0 is cos(theta_j), 1 is cos(3*theta_j), 2 is -sin(theta_j) and 3 is -sin(3*theta_j), with
theta_j = 2*pi*j/NMAX. -/
def rom (b : Build) (t j : Nat) : Sample :=
  match t with
  | 0 => cosTurn b.prec b.log2nMax j
  | 1 => cosTurn b.prec b.log2nMax (3 * j)
  | 2 => negSinTurn b.prec b.log2nMax j
  | _ => negSinTurn b.prec b.log2nMax (3 * j)

/-- TAB(t, lg, i) = ROM[t][i * 2^(LOG2N_MAX - lg)], entry i of table t for size 2^lg (R142). -/
def tab (b : Build) (t lg i : Nat) : Sample := rom b t (i * 2 ^ (b.log2nMax - lg))

end Sys2Proof.Machine
end

