-- ==== Sys2Proof/Machine/Kernels.lean ====
section
/-!
DEFINITION. The split-radix kernels, the butterfly and the recursive node tree (spec/41_kernels_and_nodes.md rules
R150 to R167), INV_POST and CPROD (spec/42_facade.md rules R190 and R191). The procedures are written over a record of
the arithmetic primitives, so that the text the machine runs on PREC values is also the text that statements about
exact arithmetic speak of.
-/
namespace Sys2Proof.Machine

/-- The arithmetic a transform runs on: the primitives of R13, +0, the constant H of R15 and the tables of R142. -/
structure Arith (α : Type) where
  add : α → α → α
  sub : α → α → α
  mul : α → α → α
  neg : α → α
  zero : α
  /-- H (R15). -/
  h : α
  /-- TAB(t, lg, i) (R142). -/
  tab : Nat → Nat → Nat → α
  /-- SCALE(lg) (R15). -/
  scale : Nat → α

/-- The arithmetic of a build: IEEE primitives in PREC and the ROM (R13, R15, R142). -/
def arithOf (b : Build) : Arith Sample where
  add := fadd b.prec
  sub := fsub b.prec
  mul := fmul b.prec
  neg := fneg b.prec
  zero := plusZero
  h := constH b.prec
  tab := tab b
  scale := scale b.prec

/-- A complex sample (R14). -/
structure Cpx (α : Type) where
  re : α
  im : α
  deriving DecidableEq, Repr

/-- Sample access (R150): element j of a source or destination pair. -/
def Arith.at (A : Arith α) (y : List (Cpx α)) (j : Nat) : Cpx α := y.getD j ⟨A.zero, A.zero⟩

/-- The sum of two complex values, componentwise (R14). -/
def Arith.cadd (A : Arith α) (a b : Cpx α) : Cpx α := ⟨A.add a.re b.re, A.add a.im b.im⟩

/-- The difference of two complex values, componentwise (R14). -/
def Arith.csub (A : Arith α) (a b : Cpx α) : Cpx α := ⟨A.sub a.re b.re, A.sub a.im b.im⟩

/-- a - i*b, without a multiplication (the comments of R152 and R156). -/
def Arith.csubI (A : Arith α) (a b : Cpx α) : Cpx α := ⟨A.add a.re b.im, A.sub a.im b.re⟩

/-- a + i*b, without a multiplication (the comments of R152 and R156). -/
def Arith.caddI (A : Arith α) (a b : Cpx α) : Cpx α := ⟨A.sub a.re b.im, A.add a.im b.re⟩

/-- CMUL(w, z): four multiplies and two adds, nothing fused (R153). -/
def Arith.cmul (A : Arith α) (w z : Cpx α) : Cpx α :=
  ⟨A.sub (A.mul w.re z.re) (A.mul w.im z.im), A.add (A.mul w.re z.im) (A.mul w.im z.re)⟩

/-- DFT2(off, st, t): the 2-point transform of x(off) and x(off+st) into Y(t) and Y(t+1) (R151). -/
def Arith.dft2 (A : Arith α) (x : List (Cpx α)) (off st t : Nat) (y : List (Cpx α)) : List (Cpx α) :=
  let a := A.at x off
  let b := A.at x (off + st)
  (y.set t (A.cadd a b)).set (t + 1) (A.csub a b)

/-- DFT4(off, st, t): the 4-point transform of x(off + m*st) into Y(t..t+3) (R152). -/
def Arith.dft4 (A : Arith α) (x : List (Cpx α)) (off st t : Nat) (y : List (Cpx α)) : List (Cpx α) :=
  let x0 := A.at x off
  let x1 := A.at x (off + st)
  let x2 := A.at x (off + 2 * st)
  let x3 := A.at x (off + 3 * st)
  let t0 := A.cadd x0 x2
  let t1 := A.csub x0 x2
  let t2 := A.cadd x1 x3
  let t3 := A.csub x1 x3
  (((y.set t (A.cadd t0 t2)).set (t + 1) (A.csubI t1 t3)).set (t + 2) (A.csub t0 t2)).set (t + 3)
    (A.caddI t1 t3)

/-- The twiddle pair (w1, w3) that approximates W^k and W^(3k), W = exp(-2*pi*i/2^lg), for 0 < k < N/4 other than
N/8: the direct entries below N/8 (R146), the symmetric entries above (R147). -/
def Arith.twiddle (A : Arith α) (lg k : Nat) : Cpx α × Cpx α :=
  if k < 2 ^ lg / 8 then (⟨A.tab 0 lg k, A.tab 2 lg k⟩, ⟨A.tab 1 lg k, A.tab 3 lg k⟩)
  else
    let k' := 2 ^ lg / 4 - k
    (⟨A.neg (A.tab 2 lg k'), A.neg (A.tab 0 lg k')⟩, ⟨A.tab 3 lg k', A.tab 1 lg k'⟩)

/-- The closed-form rotation by W^(N/8) (R159). -/
def Arith.rot1 (A : Arith α) (z : Cpx α) : Cpx α :=
  ⟨A.mul A.h (A.add z.re z.im), A.mul A.h (A.sub z.im z.re)⟩

/-- The closed-form rotation by W^(3N/8) (R159). -/
def Arith.rot3 (A : Arith α) (z : Cpx α) : Cpx α :=
  ⟨A.mul A.h (A.sub z.im z.re), A.neg (A.mul A.h (A.add z.re z.im))⟩

/-- ROTATE(lg, k, z1, z3): the twiddled quarter-size values (R157). At k = 0 nothing is multiplied (R158). -/
def Arith.rotate (A : Arith α) (lg k : Nat) (z1 z3 : Cpx α) : Cpx α × Cpx α :=
  if k = 0 then (z1, z3)
  else if k = 2 ^ lg / 8 then (A.rot1 z1, A.rot3 z3)
  else (A.cmul (A.twiddle lg k).1 z1, A.cmul (A.twiddle lg k).2 z3)

/-- One iteration k of COMBINE(lg, t), with q = N/4 (R156). -/
def Arith.butterfly (A : Arith α) (lg t q : Nat) (y : List (Cpx α)) (k : Nat) : List (Cpx α) :=
  let u1 := A.at y (t + k)
  let u2 := A.at y (t + k + q)
  let z1 := A.at y (t + 2 * q + k)
  let z3 := A.at y (t + 3 * q + k)
  let zz := A.rotate lg k z1 z3
  let s := A.cadd zz.1 zz.2
  let d := A.csub zz.1 zz.2
  (((y.set (t + k) (A.cadd u1 s)).set (t + k + 2 * q) (A.csub u1 s)).set (t + k + q)
    (A.csubI u2 d)).set (t + k + 3 * q) (A.caddI u2 d)

/-- COMBINE(lg, t): the butterflies k = 0..N/4-1, in place (R155, R156). -/
def Arith.combine (A : Arith α) (lg t : Nat) (y : List (Cpx α)) : List (Cpx α) :=
  (List.range (2 ^ lg / 4)).foldl (A.butterfly lg t (2 ^ lg / 4)) y

/-- BASE8(off, st, t), the size-8 kernel (R160). -/
def Arith.base8 (A : Arith α) (x : List (Cpx α)) (off st t : Nat) (y : List (Cpx α)) : List (Cpx α) :=
  let y := A.dft4 x off (2 * st) t y
  let y := A.dft2 x (off + st) (4 * st) (t + 4) y
  let y := A.dft2 x (off + 3 * st) (4 * st) (t + 6) y
  A.combine 3 t y

/-- BASE16(off, st, t), the size-16 kernel (R161). -/
def Arith.base16 (A : Arith α) (x : List (Cpx α)) (off st t : Nat) (y : List (Cpx α)) : List (Cpx α) :=
  let y := A.base8 x off (2 * st) t y
  let y := A.dft4 x (off + st) (4 * st) (t + 8) y
  let y := A.dft4 x (off + 3 * st) (4 * st) (t + 12) y
  A.combine 4 t y

/-- NODE(lg, off, st, t): BASE8 if lg = 3, BASE16 if lg = 4, and GENERIC if lg >= 5, which runs its half-size child
over the even samples, its two quarter-size children over the odd ones, and COMBINE (R162). Every command rejects
lg < 3 first, so that case never runs (R163). -/
def Arith.node (A : Arith α) (x : List (Cpx α)) : Nat → Nat → Nat → Nat → List (Cpx α) → List (Cpx α)
  | lg + 5, off, st, t, y =>
    let y := A.node x (lg + 4) off (2 * st) t y
    let y := A.node x (lg + 3) (off + st) (4 * st) (t + 2 ^ (lg + 5) / 2) y
    let y := A.node x (lg + 3) (off + 3 * st) (4 * st) (t + 3 * 2 ^ (lg + 5) / 4) y
    A.combine (lg + 5) t y
  | 4, off, st, t, y => A.base16 x off st t y
  | 3, off, st, t, y => A.base8 x off st t y
  | 2, _, _, _, y => y
  | 1, _, _, _, y => y
  | 0, _, _, _, y => y

/-- FWD(lg): NODE(lg, 0, 1, 0) over the N source samples (R163). Every destination position is written before it is
read, so what the destination held before is of no account: the run starts from +0 here. -/
def Arith.fwd (A : Arith α) (lg : Nat) (x : List (Cpx α)) : List (Cpx α) :=
  A.node x lg 0 1 0 (List.replicate (2 ^ lg) ⟨A.zero, A.zero⟩)

/-- A value scaled by s in both components (R190). -/
def Arith.cscale (A : Arith α) (s : α) (z : Cpx α) : Cpx α := ⟨A.mul z.re s, A.mul z.im s⟩

/-- One iteration i of INV_POST(lg): the pair (i, N-i) is scaled and exchanged (R190). -/
def Arith.invPair (A : Arith α) (lg : Nat) (y : List (Cpx α)) (i : Nat) : List (Cpx α) :=
  let a := A.at y i
  let b := A.at y (2 ^ lg - i)
  (y.set i (A.cscale (A.scale lg) b)).set (2 ^ lg - i) (A.cscale (A.scale lg) a)

/-- INV_POST(lg): bins 0 and N/2 scaled in place, every other pair (i, N-i) scaled and exchanged (R190). Nothing is
conjugated (spec/90_conflicts.md C1). -/
def Arith.invPost (A : Arith α) (lg : Nat) (y : List (Cpx α)) : List (Cpx α) :=
  let y := y.set 0 (A.cscale (A.scale lg) (A.at y 0))
  let y := y.set (2 ^ lg / 2) (A.cscale (A.scale lg) (A.at y (2 ^ lg / 2)))
  (List.range' 1 (2 ^ lg / 2 - 1)).foldl (A.invPair lg) y

/-- The inverse transform: FWD(lg), then INV_POST(lg) (R187, R213). -/
def Arith.inverse (A : Arith α) (lg : Nat) (x : List (Cpx α)) : List (Cpx α) := A.invPost lg (A.fwd lg x)

/-- CPROD(xr, xi, yr, yi, sign): X*Y for sign = +1, conj(X)*Y for sign = -1 (R191). -/
def Arith.cprod (A : Arith α) (sign : Sign) (x y : Cpx α) : Cpx α :=
  match sign with
  | .plus =>
    ⟨A.sub (A.mul x.re y.re) (A.mul x.im y.im), A.add (A.mul x.re y.im) (A.mul x.im y.re)⟩
  | .minus =>
    ⟨A.add (A.mul x.re y.re) (A.mul x.im y.im), A.sub (A.mul x.re y.im) (A.mul x.im y.re)⟩

/-- Zero padding to n samples with imaginary part +0 (the first loop of R212 and of R214). -/
def Arith.padded (A : Arith α) (n : Nat) (v : List α) : List (Cpx α) :=
  (List.range n).map (fun j => ⟨v.getD j A.zero, A.zero⟩)

/-- The kernel spectrum of KSPEC: the transform of the zero-padded kernel (R212). -/
def Arith.kernelSpectrum (A : Arith α) (lg : Nat) (kernel : List α) : List (Cpx α) :=
  A.fwd lg (A.padded (2 ^ lg) kernel)

/-- The pipeline of OLA_STEP up to the accumulation: zero-pad, transform, product with the kernel spectrum (the kernel
as X), inverse transform, real part (R214). -/
def Arith.olaBlock (A : Arith α) (lg : Nat) (spectrum : List (Cpx α)) (block : List α) : List α :=
  let q := A.fwd lg (A.padded (2 ^ lg) block)
  let q := (List.range (2 ^ lg)).map (fun k => A.cprod .plus (A.at spectrum k) (A.at q k))
  (A.inverse lg q).map Cpx.re

/-- The kind of a node of size 2^lg (R164). -/
def nodeKind (lg : Nat) : NodeKind :=
  if lg = 3 then .base8 else if lg = 4 then .base16 else .generic

/-- BUILD(lg, off, st, t): the pre-order walk that gives the node table (R164). -/
def buildTable : Nat → Nat → Nat → Nat → List Node
  | lg + 5, off, st, t =>
    ⟨nodeKind (lg + 5), lg + 5, off, st, t⟩ ::
      (buildTable (lg + 4) off (2 * st) t ++
        (buildTable (lg + 3) (off + st) (4 * st) (t + 2 ^ (lg + 5) / 2) ++
          buildTable (lg + 3) (off + 3 * st) (4 * st) (t + 3 * 2 ^ (lg + 5) / 4)))
  | 4, off, st, t => [⟨nodeKind 4, 4, off, st, t⟩]
  | 3, off, st, t => [⟨nodeKind 3, 3, off, st, t⟩]
  | 2, off, st, t => [⟨nodeKind 2, 2, off, st, t⟩]
  | 1, off, st, t => [⟨nodeKind 1, 1, off, st, t⟩]
  | 0, off, st, t => [⟨nodeKind 0, 0, off, st, t⟩]

/-- One visit of the table-driven evaluation of R164: the whole kernel at a leaf, only COMBINE at a GENERIC node. -/
def Arith.visit (A : Arith α) (x : List (Cpx α)) (d : Node) (y : List (Cpx α)) : List (Cpx α) :=
  match d.kind with
  | .base8 => A.base8 x d.seqoff d.seqstride d.toff y
  | .base16 => A.base16 x d.seqoff d.seqstride d.toff y
  | .generic => A.combine d.lgs d.toff y

end Sys2Proof.Machine
end

