-- ==== Sys2Proof/WellFormed.lean ====
section
/-!
DEFINITION. Which command terms have an encoding: every operand fits its field (spec/30_encoding.md rule R115). A
well-formed command may still be rejected by the checks of its rule (a bank that the build does not have, for example).
-/
namespace Sys2Proof

/-- A bank operand fits its 4-bit field (R115). -/
def bankFits (b : Nat) : Bool := decide (b < 16)

/-- A context operand fits its 3-bit field (R115). -/
def contextFits (c : Nat) : Bool := decide (c < 8)

/-- An exponent fits its 5-bit field (R115). -/
def exponentFits (lg : Nat) : Bool := decide (lg < 32)

/-- Every operand of the command fits the field that R116 gives it. -/
def Instr.wf : Instr → Bool
  | .nop => true
  | .cfg lg => exponentFits lg
  | .link xr xi yr yi => bankFits xr && bankFits xi && bankFits yr && bankFits yi
  | .cfgl xr xi yr yi lg =>
    bankFits xr && bankFits xi && bankFits yr && bankFits yi && exponentFits lg
  | .fwd => true
  | .inv => true
  | .fwdl xr xi yr yi => bankFits xr && bankFits xi && bankFits yr && bankFits yi
  | .invl xr xi yr yi => bankFits xr && bankFits xi && bankFits yr && bankFits yi
  | .prod xr xi yr yi _ => bankFits xr && bankFits xi && bankFits yr && bankFits yi
  | .ocfg c kb => contextFits c && bankFits kb
  | .ocfgs c m kb => contextFits c && contextFits m && bankFits kb
  | .oflt c ib ob => contextFits c && bankFits ib && bankFits ob
  | .ofls c ob => contextFits c && bankFits ob
  | .oini c => contextFits c
  | .oclr c => contextFits c

end Sys2Proof
end

