-- ==== Sys2Proof/Decode.lean ====
section
/-!
DEFINITION. Decoding and encoding of command words (spec/30_encoding.md rules R110 to R118). `decode` scans the match
and mask table of R116; `encode` places the operands of a command in the fields of R112 to R114.
-/
namespace Sys2Proof

/-- Why a word is `Illegal` (R117, R118, R243). Every one of them is rejected with ILLEGAL_CMD. -/
inductive Illegal where
  /-- An OP value that no row of R116 has (R118). -/
  | unassignedOp
  /-- An OP value in the range 0xF0 to 0xFF, kept for implementation-specific commands (R118). -/
  | reservedOp
  /-- An assigned OP with a nonzero bit outside the command's fields (R117). -/
  | reservedBits
  deriving DecidableEq, Repr

/-- One row of the match and mask table of R116, with the assembly of its operands (R113 to R115). -/
structure Row where
  mnemonic : String
  pattern : Word
  mask : Word
  build : Word → Instr

/-- A word encodes the row's command when `(w and mask) = match` (R116). -/
def Row.matches (r : Row) (w : Word) : Bool := w &&& r.mask == r.pattern

/-- Field A of format T: the source-real bank, or the product's Xr (R113). -/
def fieldA (w : Word) : Nat := bits w 11 8
/-- Field B of format T: the source-imaginary bank, or Xi (R113). -/
def fieldB (w : Word) : Nat := bits w 15 12
/-- Field C of format T: the destination-real bank, or Yr (R113). -/
def fieldC (w : Word) : Nat := bits w 19 16
/-- Field D of format T: the destination-imaginary bank, or Yi (R113). -/
def fieldD (w : Word) : Nat := bits w 23 20
/-- Field LG of format T (R113). -/
def fieldLG (w : Word) : Nat := bits w 28 24
/-- Field S of format T: 0 means sign = +1, 1 means sign = -1 (R113, R115). -/
def fieldS (w : Word) : Sign := if bits w 29 29 = 0 then .plus else .minus
/-- Field CTX of format O (R114). -/
def fieldCTX (w : Word) : Nat := bits w 10 8
/-- Field MCTX of format O (R114). -/
def fieldMCTX (w : Word) : Nat := bits w 14 12
/-- Field BK1 of format O (R114). -/
def fieldBK1 (w : Word) : Nat := bits w 19 16
/-- Field BK2 of format O (R114). -/
def fieldBK2 (w : Word) : Nat := bits w 23 20

/-- The opcode map of R116, row by row in its order. -/
def opcodeRows : List Row := [
  ⟨"NOP", 0x00000000, 0xFFFFFFFF, fun _ => .nop⟩,
  ⟨"CFG", 0x00000001, 0xE0FFFFFF, fun w => .cfg (fieldLG w)⟩,
  ⟨"LINK", 0x00000002, 0xFF0000FF, fun w => .link (fieldA w) (fieldB w) (fieldC w) (fieldD w)⟩,
  ⟨"CFGL", 0x00000003, 0xE00000FF,
    fun w => .cfgl (fieldA w) (fieldB w) (fieldC w) (fieldD w) (fieldLG w)⟩,
  ⟨"FWD", 0x00000004, 0xFFFFFFFF, fun _ => .fwd⟩,
  ⟨"INV", 0x00000005, 0xFFFFFFFF, fun _ => .inv⟩,
  ⟨"FWDL", 0x00000006, 0xFF0000FF, fun w => .fwdl (fieldA w) (fieldB w) (fieldC w) (fieldD w)⟩,
  ⟨"INVL", 0x00000007, 0xFF0000FF, fun w => .invl (fieldA w) (fieldB w) (fieldC w) (fieldD w)⟩,
  ⟨"PROD", 0x00000008, 0xDF0000FF,
    fun w => .prod (fieldA w) (fieldB w) (fieldC w) (fieldD w) (fieldS w)⟩,
  ⟨"OCFG", 0x00000010, 0xFFF0F8FF, fun w => .ocfg (fieldCTX w) (fieldBK1 w)⟩,
  ⟨"OCFGS", 0x00000011, 0xFFF088FF, fun w => .ocfgs (fieldCTX w) (fieldMCTX w) (fieldBK1 w)⟩,
  ⟨"OFLT", 0x00000012, 0xFF00F8FF, fun w => .oflt (fieldCTX w) (fieldBK1 w) (fieldBK2 w)⟩,
  ⟨"OFLS", 0x00000013, 0xFF0FF8FF, fun w => .ofls (fieldCTX w) (fieldBK2 w)⟩,
  ⟨"OINI", 0x00000014, 0xFFFFF8FF, fun w => .oini (fieldCTX w)⟩,
  ⟨"OCLR", 0x00000015, 0xFFFFF8FF, fun w => .oclr (fieldCTX w)⟩]

/-- The name of the reason for which a word that no row matches is illegal (R118, R243). -/
def illegalReason (w : Word) : Illegal :=
  if 0xF0 ≤ bits w 7 0 then .reservedOp
  else if opcodeRows.any (fun r => bits r.pattern 7 0 == bits w 7 0) then .reservedBits
  else .unassignedOp

/-- Decoding, a total function of the 32-bit word (R117): the row whose match and mask the word satisfies, or
`Illegal`. -/
def decode (w : Word) : Except Illegal Instr :=
  match opcodeRows.find? (fun r => r.matches w) with
  | some r => .ok (r.build w)
  | none => .error (illegalReason w)

/-- The bit S of a sign (R115). -/
def signBit : Sign → Nat
  | .plus => 0
  | .minus => 1

/-- A word of format N: the opcode alone (R112). -/
def formatN (op : Nat) : Word := BitVec.ofNat 32 op

/-- A word of format T (R113). -/
def formatT (op a b c d lg s : Nat) : Word :=
  BitVec.ofNat 32
    (op + a * 2 ^ 8 + b * 2 ^ 12 + c * 2 ^ 16 + d * 2 ^ 20 + lg * 2 ^ 24 + s * 2 ^ 29)

/-- A word of format O (R114). -/
def formatO (op ctx mctx bk1 bk2 : Nat) : Word :=
  BitVec.ofNat 32 (op + ctx * 2 ^ 8 + mctx * 2 ^ 12 + bk1 * 2 ^ 16 + bk2 * 2 ^ 20)

/-- The command word of a well-formed command, written from the formats of R112 to R114 and the opcodes of R116. -/
def encode : Instr → Word
  | .nop => formatN 0x00
  | .cfg lg => formatT 0x01 0 0 0 0 lg 0
  | .link xr xi yr yi => formatT 0x02 xr xi yr yi 0 0
  | .cfgl xr xi yr yi lg => formatT 0x03 xr xi yr yi lg 0
  | .fwd => formatN 0x04
  | .inv => formatN 0x05
  | .fwdl xr xi yr yi => formatT 0x06 xr xi yr yi 0 0
  | .invl xr xi yr yi => formatT 0x07 xr xi yr yi 0 0
  | .prod xr xi yr yi sign => formatT 0x08 xr xi yr yi 0 (signBit sign)
  | .ocfg c kb => formatO 0x10 c 0 kb 0
  | .ocfgs c m kb => formatO 0x11 c m kb 0
  | .oflt c ib ob => formatO 0x12 c 0 ib ob
  | .ofls c ob => formatO 0x13 c 0 0 ob
  | .oini c => formatO 0x14 c 0 0 0
  | .oclr c => formatO 0x15 c 0 0 0

/-- The host word that a numbering by spec/opcode_table.json stands for: every command is one 32-bit word (R110), so
the table's bit 0 is bit 0 of the word, and bits above `nbits` are 0. -/
def tableWord (nbits w : Nat) : Word := BitVec.ofNat 32 (w % 2 ^ nbits)

/-- The command that `decode` reads from an opcode-table word, if any. -/
def decodeTableWord (nbits w : Nat) : Option Instr :=
  match decode (tableWord nbits w) with
  | .ok i => some i
  | .error _ => none

end Sys2Proof
end

