-- ==== Sys2Proof/Machine/Flags.lean ====
section
/-!
DEFINITION. The status flags and the interrupt output: STATUS, IRQEN and irq as words and levels (spec/10_state.md
rules R37, R38 and R57, spec/60_exceptions.md rules R245, R250 and R251). There are no arithmetic flags (R57).
-/
namespace Sys2Proof.Machine

/-- A flag as the bit of a register. -/
def bit (f : Bool) : Nat := if f then 1 else 0

/-- The number of an error code in STATUS.ERRCODE (R245). -/
def ErrCode.number : ErrCode → Nat
  | .none => 0
  | .invalidArg => 1
  | .invalidState => 2
  | .illegalCmd => 3
  | .busy => 4

/-- STATUS.BUSY: the sequencer is busy (R32, R37). -/
def State.busy (s : State) : Bool :=
  match s.seq with
  | .idle => false
  | .busy _ _ _ _ => true

/-- CSR.STATUS as the host reads it (R37). -/
def statusWord (s : State) : Word :=
  BitVec.ofNat 32 (bit s.busy + bit s.done * 2 + bit s.err * 4 + bit s.errovf * 8 + s.errcode.number * 2 ^ 8)

/-- CSR.IRQEN as the host reads it (R38). -/
def irqenWord (s : State) : Word := BitVec.ofNat 32 (bit s.doneie + bit s.errie * 2)

/-- A host write to IRQEN: bits [1:0] are stored, the others are reserved (R38). -/
def writeIrqen (v : Word) (s : State) : State :=
  { s with doneie := v.getLsbD 0, errie := v.getLsbD 1 }

/-- The interrupt output, a level (R38, R250). -/
def irq (s : State) : Bool := (s.done && s.doneie) || (s.err && s.errie)

/-- A host write of 1 to STATUS.DONE clears it (R37, R251). -/
def clearDone (s : State) : State := { s with done := false }

/-- A host write of 1 to STATUS.ERR clears ERR, ERRCODE and ERRCMD together (R37, R246). This acknowledgement is all
there is of a return from a rejection: there is no trap return (R253). -/
def clearErr (s : State) : State := { s with err := false, errcode := .none, errcmd := 0 }

/-- A host write of 1 to STATUS.ERROVF clears it (R37). -/
def clearErrovf (s : State) : State := { s with errovf := false }

/-- A host write to STATUS: any combination of the three write-1-to-clear bits; all other bits ignore it (R37). -/
def writeStatus (v : Word) (s : State) : State :=
  let s := if v.getLsbD 1 then clearDone s else s
  let s := if v.getLsbD 2 then clearErr s else s
  if v.getLsbD 3 then clearErrovf s else s

end Sys2Proof.Machine
end

