-- ==== Sys2Proof/Machine/Ops.lean ====
section
/-!
DEFINITION. The named operations over the banks and the contexts (spec/10_state.md rules R52, R54 and R59,
spec/20_memory.md rules R84, R87 and R88), and the issue, rejection, acceptance and completion of a command
(spec/60_exceptions.md rules R240, R241, R246 and R247). Rejection is what this machine has for taking an exception
(R252): ERRCODE holds the cause, ERRCMD the failing command, and it goes on.
-/
namespace Sys2Proof.Machine

/-! ## The bytes of the banks -/

/-- The byte at an address, if something has written it since reset. -/
def Memory.get (m : Memory) (a : Nat) : Option Byte :=
  match m with
  | [] => none
  | c :: t => if c.1 = a then some c.2 else Memory.get t a

/-- Store a byte, keeping the addresses strictly rising. -/
def Memory.put (m : Memory) (a : Nat) (v : Byte) : Memory :=
  match m with
  | [] => [(a, v)]
  | c :: t => if a < c.1 then (a, v) :: c :: t else if c.1 = a then (a, v) :: t else c :: Memory.put t a v

/-- Byte k of a number, the least significant first (R87). -/
def byteOf (v k : Nat) : Byte := BitVec.ofNat 8 (v / 256 ^ k)

/-- The number whose n bytes, the least significant first, are `f 0`, `f 1`, ... (R87). -/
def joinBytes (f : Nat → Byte) : Nat → Nat
  | 0 => 0
  | n + 1 => joinBytes f n + (f n).toNat * 256 ^ n

/-- Store the n low bytes of a number at n rising addresses, the least significant first (R87, R88). -/
def Memory.putBytes (m : Memory) (a v : Nat) : Nat → Memory
  | 0 => m
  | n + 1 => Memory.put (Memory.putBytes m a v n) (a + n) (byteOf v n)

/-- The byte a bank address holds: what was last written, or the free value of R59. -/
def State.byte (s : State) (a : Nat) : Byte := (Memory.get s.mem a).getD (Config.unwrittenByte s.epoch a)

/-- Store the n low bytes of a number at an address of the DATA region. -/
def State.storeBytes (s : State) (a v n : Nat) : State := { s with mem := Memory.putBytes s.mem a v n }

/-- The 32-bit word at an address of the DATA region (R84, R87). -/
def State.loadWord (s : State) (a : Nat) : Word := BitVec.ofNat 32 (joinBytes (fun k => s.byte (a + k)) 4)

/-! ## Samples -/

/-- DATA_BASE (R82). -/
def dataBase : Nat := 0x08000000

/-- The byte address of sample j of bank b: `DATA_BASE + (b * NMAX + j) * WB` (R84). -/
def sampleAddr (b : Build) (bank j : Nat) : Nat := dataBase + (bank * b.nmax + j) * b.wb

/-- `Bank[b][j]` (R12, R54). -/
def State.sample (s : State) (bank j : Nat) : Sample :=
  BitVec.ofNat 64 (joinBytes (fun k => s.byte (sampleAddr s.build bank j + k)) s.build.wb)

/-- `Bank[b][j] <- v` (R12, R54). -/
def State.setSample (s : State) (bank j : Nat) (v : Sample) : State :=
  s.storeBytes (sampleAddr s.build bank j) v.toNat s.build.wb

/-- `Bank[b][j0], Bank[b][j0+1], ... <- vs`. -/
def State.setBlock (s : State) (bank j0 : Nat) : List Sample → State
  | [] => s
  | v :: vs => State.setBlock (s.setSample bank j0 v) bank (j0 + 1) vs

/-- The n samples of a bank from index j0 on. -/
def State.block (s : State) (bank j0 n : Nat) : List Sample :=
  (List.range n).map (fun j => s.sample bank (j0 + j))

/-! ## Contexts -/

/-- `Ctx[c]` (R12, R52). -/
def State.ctx (s : State) (c : Nat) : Context := s.ctxs.getD c Context.fresh

/-- `Ctx[c] <- x` (R12, R52). -/
def State.setCtx (s : State) (c : Nat) (x : Context) : State := { s with ctxs := s.ctxs.set c x }

/-- An unwritten entry of a context memory: the free value of R59, as a W-bit pattern. -/
def State.unwrittenEntry (s : State) (c which j : Nat) : Sample :=
  BitVec.ofNat 64 ((Config.unwrittenContext s.epoch c which j).toNat % 2 ^ s.build.prec.width)

/-- `Ctx[c].KR[j]` (R52). -/
def State.krAt (s : State) (c j : Nat) : Sample := (s.ctx c).kr.getD j (s.unwrittenEntry c 0 j)

/-- `Ctx[c].KI[j]` (R52). -/
def State.kiAt (s : State) (c j : Nat) : Sample := (s.ctx c).ki.getD j (s.unwrittenEntry c 1 j)

/-- `Ctx[c].ACC[j]` (R52). -/
def State.accAt (s : State) (c j : Nat) : Sample := (s.ctx c).acc.getD j (s.unwrittenEntry c 2 j)

/-- A context memory whose entries 0, 1, ... are overwritten; later entries keep their values. -/
def overwrite (old vs : List Sample) : List Sample := vs ++ old.drop vs.length

/-- NSLAVES of context c: the contexts d with ST = SLAVE and MASTER = c (R45). -/
def State.nslaves (s : State) (c : Nat) : Nat :=
  s.ctxs.countP (fun x => x.st == .slave && x.master == c)

/-! ## Rejection, acceptance, completion and issue of a command -/

/-- `reject(w, code)`: the first rejection is recorded in full, later ones only set ERROVF (R246). -/
def reject (w : Word) (code : ErrCode) (s : State) : State :=
  if s.err then { s with errovf := true } else { s with err := true, errcode := code, errcmd := w }

/-- How many host transactions come between the acceptance and the completion of the next command to be accepted
(R284). -/
def State.nextDelay (s : State) : Nat :=
  match s.delays with
  | [] => 0
  | n :: _ => n

/-- Acceptance: the sequencer becomes busy with the command and the latched ARG0 and ARG1 (R240). How many host
transactions come before the completion is taken from `delays` (R284). -/
def accept (i : Instr) (s : State) : State :=
  { s with seq := .busy i s.arg0 s.arg1 s.nextDelay, delays := s.delays.tail }

/-- Completion: the effect of the command with the latched operands, then the sequencer is idle and DONE is set
(R241). -/
def finish (effect : Word → Word → State → State) (a0 a1 : Word) (s : State) : State :=
  { effect a0 a1 s with seq := .idle, done := true }

/-- The first failing check, in the listed order, with the code it names (R180, R240). -/
def firstFail : List (Bool × ErrCode) → Option ErrCode
  | [] => none
  | (passes, code) :: rest => if passes then firstFail rest else some code

/-- Issue of a decoded command (R240): rejected with BUSY while another one runs (R244), else by its first failing
check, else accepted. The checks read ARG0 and ARG1 as they are at this event. Where no host transaction comes before
the completion, the completion follows at once (R284). -/
def issue (i : Instr) (check : Word → Word → State → Option ErrCode) (effect : Word → Word → State → State)
    (s : State) : State :=
  if s.busy then reject (encode i) .busy s
  else
    match check s.arg0 s.arg1 s with
    | some code => reject (encode i) code s
    | none =>
      match s.nextDelay with
      | 0 => finish effect s.arg0 s.arg1 (accept i s)
      | _ + 1 => accept i s

end Sys2Proof.Machine
end

