-- ==== Sys2Proof/Machine/Operands.lean ====
section
/-!
DEFINITION. The checks that command operands go through, and the transform size of a context (spec/42_facade.md rules
R192 and R193, spec/43_overlap_add.md rules R210, R222 and R223). Operands are unsigned integers that never wrap
(spec/00_scope.md rule R11).
-/
namespace Sys2Proof.Machine

/-- check_lg(lg) passes iff 3 <= lg <= LOG2N_MAX (R192). -/
def checkLg (b : Build) (lg : Nat) : Bool := decide (3 ≤ lg) && decide (lg ≤ b.log2nMax)

/-- A bank operand is a bank of the build (R193, R222). -/
def bankOk (b : Build) (bank : Nat) : Bool := decide (bank < b.nbank)

/-- A context operand is a context of the build (R222). -/
def contextOk (b : Build) (c : Nat) : Bool := decide (c < b.nctx)

/-- check_link(a, b, c, d): four banks of the build, the destinations distinct and neither of them a source; a = b is
allowed (R193). -/
def checkLink (bd : Build) (a b c d : Nat) : Bool :=
  bankOk bd a && bankOk bd b && bankOk bd c && bankOk bd d && c != d && c != a && c != b && d != a && d != b

/-- nfft_lg(L, B): the least lg >= 3 with 2^lg >= L + B - 1, undefined (none) where L or B is 0 or above NMAX or where
that lg is above LOG2N_MAX (R210). -/
def nfftLg (b : Build) (l bl : Nat) : Option Nat :=
  if l = 0 ∨ bl = 0 ∨ b.nmax < l ∨ b.nmax < bl then none
  else (List.range (b.log2nMax + 1)).find? (fun lg => decide (3 ≤ lg) && decide (l + bl - 1 ≤ 2 ^ lg))

/-- The offset check `o <= NMAX - B` of an input or output block, where B = Ctx[c].BLK (R223). -/
def offsetOk (s : State) (c o : Nat) : Bool := decide (o ≤ s.build.nmax - (s.ctx c).blk)

/-- Ctx[c] is configured: ST is not FREE (R218 check 2). -/
def contextInUse (s : State) (c : Nat) : Bool := (s.ctx c).st != .free

/-- Ctx[c] is not the master of any slave: CSTATE.NSLAVES = 0 (R216 check 2). -/
def noSlaves (s : State) (c : Nat) : Bool := s.nslaves c == 0

end Sys2Proof.Machine
end

