-- ==== Sys2Proof/Machine/Facade.lean ====
section
/-!
DEFINITION. The transform facade commands of spec/42_facade.md rules R181 to R189. Each command has its checks, in the
listed order, its effect, and its meaning, which issues it with both (rule R180).
-/
namespace Sys2Proof.Machine

/-! ## The pieces the effects share -/

/-- The facade configured for lg, unlinked, with its node table (the effect block of R182). -/
def configure (lg : Nat) (s : State) : State :=
  { s with facade := ⟨true, lg, false, 0, 0, 0, 0⟩, nodes := buildTable lg 0 1 0 }

/-- The facade bound to four banks (the effect of R184). -/
def bind (xr xi yr yi : Nat) (s : State) : State :=
  { s with facade := { s.facade with linked := true, xr := xr, xi := xi, yr := yr, yi := yi } }

/-- The N source samples of the current link (R150). -/
def linkedSource (s : State) : List (Cpx Sample) :=
  (List.range (2 ^ s.facade.lg)).map (fun j => ⟨s.sample s.facade.xr j, s.sample s.facade.xi j⟩)

/-- The destination samples `Y(0), Y(1), ... <- ys` of the current link (R150). -/
def storeDest (ys : List (Cpx Sample)) (s : State) : State :=
  (s.setBlock s.facade.yr 0 (ys.map Cpx.re)).setBlock s.facade.yi 0 (ys.map Cpx.im)

/-- FWD(LG) on the current link (R163, R185). -/
def runForward (s : State) : State :=
  storeDest ((arithOf s.build).fwd s.facade.lg (linkedSource s)) s

/-- FWD(LG), then INV_POST(LG), on the current link (R187). -/
def runInverse (s : State) : State :=
  storeDest ((arithOf s.build).inverse s.facade.lg (linkedSource s)) s

/-- One element of the spectral product: four reads, then two writes (R189). -/
def productAt (xr xi yr yi : Nat) (sign : Sign) (s : State) (k : Nat) : State :=
  let z := (arithOf s.build).cprod sign ⟨s.sample xr k, s.sample xi k⟩ ⟨s.sample yr k, s.sample yi k⟩
  (s.setSample yr k z.re).setSample yi k z.im

/-- The facade is configured, and it is linked: the checks of FWD and INV (R185, R187). -/
def evaluationChecks (s : State) : List (Bool × ErrCode) :=
  [(s.facade.configured, .invalidState), (s.facade.linked, .invalidState)]

/-- The facade is configured and the four banks may be linked: the checks of LINK, FWDL and INVL (R184, R186, R188). -/
def linkChecks (xr xi yr yi : Nat) (s : State) : List (Bool × ErrCode) :=
  [(s.facade.configured, .invalidState), (checkLink s.build xr xi yr yi, .invalidArg)]

/-! ## NOP (R181) -/

def checkNop (_a0 _a1 : Word) (_s : State) : Option ErrCode := none

def effectNop (_a0 _a1 : Word) (s : State) : State := s

/-- NOP: no operation, and it still sets DONE (R181). -/
def execNop (s : State) : Host.Outcome State Fault Refusal := .next (issue .nop checkNop effectNop s)

/-! ## CFG (R182) -/

def checkCfg (lg : Nat) (_a0 _a1 : Word) (s : State) : Option ErrCode :=
  firstFail [(checkLg s.build lg, .invalidArg)]

def effectCfg (lg : Nat) (_a0 _a1 : Word) (s : State) : State := configure lg s

/-- CFG lg: construct the facade for size 2^lg, unlinked (R182). -/
def execCfg (lg : Nat) (s : State) : Host.Outcome State Fault Refusal :=
  .next (issue (.cfg lg) (checkCfg lg) (effectCfg lg) s)

/-! ## CFGL (R183) -/

def checkCfgl (xr xi yr yi lg : Nat) (_a0 _a1 : Word) (s : State) : Option ErrCode :=
  firstFail [(checkLg s.build lg, .invalidArg), (checkLink s.build xr xi yr yi, .invalidArg)]

def effectCfgl (xr xi yr yi lg : Nat) (_a0 _a1 : Word) (s : State) : State :=
  bind xr xi yr yi (configure lg s)

/-- CFGL xr, xi, yr, yi, lg: construct and link in one command (R183). -/
def execCfgl (xr xi yr yi lg : Nat) (s : State) : Host.Outcome State Fault Refusal :=
  .next (issue (.cfgl xr xi yr yi lg) (checkCfgl xr xi yr yi lg) (effectCfgl xr xi yr yi lg) s)

/-! ## LINK (R184) -/

def checkLinkCmd (xr xi yr yi : Nat) (_a0 _a1 : Word) (s : State) : Option ErrCode :=
  firstFail (linkChecks xr xi yr yi s)

def effectLink (xr xi yr yi : Nat) (_a0 _a1 : Word) (s : State) : State := bind xr xi yr yi s

/-- LINK xr, xi, yr, yi: bind the facade to four banks (R184). -/
def execLink (xr xi yr yi : Nat) (s : State) : Host.Outcome State Fault Refusal :=
  .next (issue (.link xr xi yr yi) (checkLinkCmd xr xi yr yi) (effectLink xr xi yr yi) s)

/-! ## FWD (R185) -/

def checkFwd (_a0 _a1 : Word) (s : State) : Option ErrCode := firstFail (evaluationChecks s)

def effectFwd (_a0 _a1 : Word) (s : State) : State := runForward s

/-- FWD: forward transform on the current link (R185). -/
def execFwd (s : State) : Host.Outcome State Fault Refusal := .next (issue .fwd checkFwd effectFwd s)

/-! ## FWDL (R186) -/

def checkFwdl (xr xi yr yi : Nat) (_a0 _a1 : Word) (s : State) : Option ErrCode :=
  firstFail (linkChecks xr xi yr yi s)

def effectFwdl (xr xi yr yi : Nat) (_a0 _a1 : Word) (s : State) : State := runForward (bind xr xi yr yi s)

/-- FWDL xr, xi, yr, yi: link, then forward transform (R186). -/
def execFwdl (xr xi yr yi : Nat) (s : State) : Host.Outcome State Fault Refusal :=
  .next (issue (.fwdl xr xi yr yi) (checkFwdl xr xi yr yi) (effectFwdl xr xi yr yi) s)

/-! ## INV (R187) -/

def checkInv (_a0 _a1 : Word) (s : State) : Option ErrCode := firstFail (evaluationChecks s)

def effectInv (_a0 _a1 : Word) (s : State) : State := runInverse s

/-- INV: inverse transform on the current link (R187). -/
def execInv (s : State) : Host.Outcome State Fault Refusal := .next (issue .inv checkInv effectInv s)

/-! ## INVL (R188) -/

def checkInvl (xr xi yr yi : Nat) (_a0 _a1 : Word) (s : State) : Option ErrCode :=
  firstFail (linkChecks xr xi yr yi s)

def effectInvl (xr xi yr yi : Nat) (_a0 _a1 : Word) (s : State) : State := runInverse (bind xr xi yr yi s)

/-- INVL xr, xi, yr, yi: link, then inverse transform (R188). -/
def execInvl (xr xi yr yi : Nat) (s : State) : Host.Outcome State Fault Refusal :=
  .next (issue (.invl xr xi yr yi) (checkInvl xr xi yr yi) (effectInvl xr xi yr yi) s)

/-! ## PROD (R189) -/

def checkProd (xr xi yr yi : Nat) (a0 _a1 : Word) (s : State) : Option ErrCode :=
  firstFail
    [(bankOk s.build xr && bankOk s.build xi && bankOk s.build yr && bankOk s.build yi, .invalidArg),
      (yr != yi, .invalidArg),
      (decide (a0.toNat ≤ s.build.nmax), .invalidArg)]

def effectProd (xr xi yr yi : Nat) (sign : Sign) (a0 _a1 : Word) (s : State) : State :=
  (List.range a0.toNat).foldl (productAt xr xi yr yi sign) s

/-- PROD xr, xi, yr, yi, sign: element-wise spectral product into Y, of ARG0 elements (R189). -/
def execProd (xr xi yr yi : Nat) (sign : Sign) (s : State) : Host.Outcome State Fault Refusal :=
  .next (issue (.prod xr xi yr yi sign) (checkProd xr xi yr yi) (effectProd xr xi yr yi sign) s)

end Sys2Proof.Machine
end

