-- ==== Sys2Proof/Machine/OverlapAdd.lean ====
section
/-!
DEFINITION. The overlap-add commands of spec/43_overlap_add.md rules R210 to R221. Each command has its checks, in the
listed order, its effect, and its meaning, which issues it with both (spec/42_facade.md rule R180).
-/
namespace Sys2Proof.Machine

/-! ## The pipeline pieces -/

/-- The retained kernel spectrum of context c, indices 0..n-1 (R211). -/
def spectrumOf (s : State) (c : Nat) : List (Cpx Sample) :=
  (List.range (2 ^ (s.ctx c).lgfft)).map (fun k => ⟨s.krAt c k, s.kiAt c k⟩)

/-- The accumulation buffer of context c, indices 0..n-1 (R211). -/
def accOf (s : State) (c : Nat) : List Sample :=
  (List.range (2 ^ (s.ctx c).lgfft)).map (fun j => s.accAt c j)

/-- ACC[0..n-1] of context c <- vs. -/
def setAcc (c : Nat) (vs : List Sample) (s : State) : State :=
  s.setCtx c { s.ctx c with acc := overwrite (s.ctx c).acc vs }

/-- `for j in 0..2^LGFFT - 1: Ctx[c].ACC[j] <- +0` (R216, R220). -/
def clearAcc (c : Nat) (s : State) : State :=
  setAcc c (List.replicate (2 ^ (s.ctx c).lgfft) plusZero) s

/-- KSPEC(c, kb): the kernel spectrum of context c, from the first KLEN samples of bank kb (R212). -/
def kspec (c kb : Nat) (s : State) : State :=
  let q := (arithOf s.build).kernelSpectrum (s.ctx c).lgfft (s.block kb 0 (s.ctx c).klen)
  s.setCtx c
    { s.ctx c with
      kr := overwrite (s.ctx c).kr (q.map Cpx.re)
      ki := overwrite (s.ctx c).ki (q.map Cpx.im) }

/-- The configuration of a context, its kernel spectrum and its cleared accumulator (the effects of R216 and R217). -/
def configureContext (c kb : Nat) (st : ContextKind) (master l bl lg : Nat) (s : State) : State :=
  clearAcc c
    (kspec c kb
      (s.setCtx c { s.ctx c with st := st, master := master, klen := l, blk := bl, lgfft := lg }))

/-- OLA_STEP(c, ib, io): one block through the pipeline, added to the accumulator (R214). -/
def olaStep (c ib io : Nat) (s : State) : State :=
  let out := (arithOf s.build).olaBlock (s.ctx c).lgfft (spectrumOf s c) (s.block ib io (s.ctx c).blk)
  setAcc c (List.zipWith (fadd s.build.prec) (accOf s c) out) s

/-- EMIT(c, ob, oo): the first B accumulator entries go to the output block, and the accumulator shifts left by B with
+0 behind (R215). -/
def emit (c ob oo : Nat) (s : State) : State :=
  let b := (s.ctx c).blk
  let acc := accOf s c
  setAcc c (acc.drop b ++ List.replicate b plusZero) (s.setBlock ob oo (acc.take b))

/-! ## OCFG (R216) -/

def checkOcfg (c kb : Nat) (a0 a1 : Word) (s : State) : Option ErrCode :=
  firstFail
    [(contextOk s.build c, .invalidArg),
      (noSlaves s c, .invalidState),
      (bankOk s.build kb, .invalidArg),
      ((nfftLg s.build a0.toNat a1.toNat).isSome, .invalidArg)]

def effectOcfg (c kb : Nat) (a0 a1 : Word) (s : State) : State :=
  configureContext c kb .owner 0 a0.toNat a1.toNat ((nfftLg s.build a0.toNat a1.toNat).getD 0) s

/-- OCFG c, kb: configure context c as an owner, with kernel length ARG0 and block size ARG1 (R216). -/
def execOcfg (c kb : Nat) (s : State) : Host.Outcome State Fault Refusal :=
  .next (issue (.ocfg c kb) (checkOcfg c kb) (effectOcfg c kb) s)

/-! ## OCFGS (R217) -/

def checkOcfgs (c m kb : Nat) (a0 a1 : Word) (s : State) : Option ErrCode :=
  firstFail
    [(contextOk s.build c, .invalidArg),
      (contextOk s.build m, .invalidArg),
      (m != c, .invalidArg),
      (noSlaves s c, .invalidState),
      (contextInUse s m, .invalidState),
      ((s.ctx m).st != .slave, .invalidArg),
      (bankOk s.build kb, .invalidArg),
      (a0.toNat == (s.ctx m).klen, .invalidArg),
      (decide (1 ≤ a1.toNat) && decide (a0.toNat + a1.toNat - 1 ≤ 2 ^ (s.ctx m).lgfft), .invalidArg)]

def effectOcfgs (c m kb : Nat) (a0 a1 : Word) (s : State) : State :=
  configureContext c kb .slave m a0.toNat a1.toNat (s.ctx m).lgfft s

/-- OCFGS c, m, kb: configure context c as a slave of master m (R217). -/
def execOcfgs (c m kb : Nat) (s : State) : Host.Outcome State Fault Refusal :=
  .next (issue (.ocfgs c m kb) (checkOcfgs c m kb) (effectOcfgs c m kb) s)

/-! ## OFLT (R218) -/

def checkOflt (c ib ob : Nat) (a0 a1 : Word) (s : State) : Option ErrCode :=
  firstFail
    [(contextOk s.build c, .invalidArg),
      (contextInUse s c, .invalidState),
      (bankOk s.build ib && bankOk s.build ob, .invalidArg),
      (offsetOk s c a0.toNat && offsetOk s c a1.toNat, .invalidArg)]

def effectOflt (c ib ob : Nat) (a0 a1 : Word) (s : State) : State :=
  emit c ob a1.toNat (olaStep c ib a0.toNat s)

/-- OFLT c, ib, ob: filter the input block at offset ARG0 into the output block at offset ARG1 (R218). -/
def execOflt (c ib ob : Nat) (s : State) : Host.Outcome State Fault Refusal :=
  .next (issue (.oflt c ib ob) (checkOflt c ib ob) (effectOflt c ib ob) s)

/-! ## OFLS (R219) -/

def checkOfls (c ob : Nat) (_a0 a1 : Word) (s : State) : Option ErrCode :=
  firstFail
    [(contextOk s.build c, .invalidArg),
      (contextInUse s c, .invalidState),
      (bankOk s.build ob, .invalidArg),
      (offsetOk s c a1.toNat, .invalidArg)]

def effectOfls (c ob : Nat) (_a0 a1 : Word) (s : State) : State := emit c ob a1.toNat s

/-- OFLS c, ob: emit the next block of the tail at offset ARG1, without new input (R219). -/
def execOfls (c ob : Nat) (s : State) : Host.Outcome State Fault Refusal :=
  .next (issue (.ofls c ob) (checkOfls c ob) (effectOfls c ob) s)

/-! ## OINI (R220) -/

def checkOini (c : Nat) (_a0 _a1 : Word) (s : State) : Option ErrCode :=
  firstFail [(contextOk s.build c, .invalidArg), (contextInUse s c, .invalidState)]

def effectOini (c : Nat) (_a0 _a1 : Word) (s : State) : State := clearAcc c s

/-- OINI c: reset the accumulation state, keep the kernel spectrum (R220). -/
def execOini (c : Nat) (s : State) : Host.Outcome State Fault Refusal :=
  .next (issue (.oini c) (checkOini c) (effectOini c) s)

/-! ## OCLR (R221) -/

def checkOclr (c : Nat) (_a0 _a1 : Word) (s : State) : Option ErrCode :=
  firstFail [(contextOk s.build c, .invalidArg), (noSlaves s c, .invalidState)]

def effectOclr (c : Nat) (_a0 _a1 : Word) (s : State) : State :=
  s.setCtx c { s.ctx c with st := .free, master := 0, klen := 0, blk := 0, lgfft := 0 }

/-- OCLR c: release context c; KR, KI and ACC keep whatever they hold (R221). -/
def execOclr (c : Nat) (s : State) : Host.Outcome State Fault Refusal :=
  .next (issue (.oclr c) (checkOclr c) (effectOclr c) s)

end Sys2Proof.Machine
end

