-- ==== Sys2Proof/Machine/Complete.lean ====
section
/-!
DEFINITION. The completion of an accepted command (spec/60_exceptions.md rule R241), the checks and the effect of a
command as functions of the command, the samples a command writes, and the reset, which aborts a command in progress
(spec/70_reset_and_hazards.md rules R270 and R271).
-/
namespace Sys2Proof.Machine

/-- The checks of a command's rule (R180). -/
def checkOf : Instr → Word → Word → State → Option ErrCode
  | .nop => checkNop
  | .cfg lg => checkCfg lg
  | .link xr xi yr yi => checkLinkCmd xr xi yr yi
  | .cfgl xr xi yr yi lg => checkCfgl xr xi yr yi lg
  | .fwd => checkFwd
  | .inv => checkInv
  | .fwdl xr xi yr yi => checkFwdl xr xi yr yi
  | .invl xr xi yr yi => checkInvl xr xi yr yi
  | .prod xr xi yr yi _ => checkProd xr xi yr yi
  | .ocfg c kb => checkOcfg c kb
  | .ocfgs c m kb => checkOcfgs c m kb
  | .oflt c ib ob => checkOflt c ib ob
  | .ofls c ob => checkOfls c ob
  | .oini c => checkOini c
  | .oclr c => checkOclr c

/-- The effect of a command's rule (R180). -/
def effectOf : Instr → Word → Word → State → State
  | .nop => effectNop
  | .cfg lg => effectCfg lg
  | .link xr xi yr yi => effectLink xr xi yr yi
  | .cfgl xr xi yr yi lg => effectCfgl xr xi yr yi lg
  | .fwd => effectFwd
  | .inv => effectInv
  | .fwdl xr xi yr yi => effectFwdl xr xi yr yi
  | .invl xr xi yr yi => effectInvl xr xi yr yi
  | .prod xr xi yr yi sign => effectProd xr xi yr yi sign
  | .ocfg c kb => effectOcfg c kb
  | .ocfgs c m kb => effectOcfgs c m kb
  | .oflt c ib ob => effectOflt c ib ob
  | .ofls c ob => effectOfls c ob
  | .oini c => effectOini c
  | .oclr c => effectOclr c

/-- `complete()`, the completion event of a busy sequencer, with the latched operands (R241). -/
def complete (s : State) : State :=
  match s.seq with
  | .idle => s
  | .busy i a0 a1 _ => finish (effectOf i) a0 a1 s

/-- A run of n samples of one bank. -/
structure BankSpan where
  bank : Nat
  first : Nat
  count : Nat
  deriving DecidableEq, Repr

/-- The bank samples that a command's rule writes, with latched operands a0 and a1 (R185 to R189, R218, R219). Every
other command writes no bank. -/
def bankSpans (s : State) (a0 a1 : Word) : Instr → List BankSpan
  | .fwd => [⟨s.facade.yr, 0, 2 ^ s.facade.lg⟩, ⟨s.facade.yi, 0, 2 ^ s.facade.lg⟩]
  | .inv => [⟨s.facade.yr, 0, 2 ^ s.facade.lg⟩, ⟨s.facade.yi, 0, 2 ^ s.facade.lg⟩]
  | .fwdl _ _ yr yi => [⟨yr, 0, 2 ^ s.facade.lg⟩, ⟨yi, 0, 2 ^ s.facade.lg⟩]
  | .invl _ _ yr yi => [⟨yr, 0, 2 ^ s.facade.lg⟩, ⟨yi, 0, 2 ^ s.facade.lg⟩]
  | .prod _ _ yr yi _ => [⟨yr, 0, a0.toNat⟩, ⟨yi, 0, a0.toNat⟩]
  | .oflt c _ ob => [⟨ob, a1.toNat, (s.ctx c).blk⟩]
  | .ofls c ob => [⟨ob, a1.toNat, (s.ctx c).blk⟩]
  | .nop => []
  | .cfg _ => []
  | .link _ _ _ _ => []
  | .cfgl _ _ _ _ _ => []
  | .ocfg _ _ => []
  | .ocfgs _ _ _ => []
  | .oini _ => []
  | .oclr _ => []

/-- The context memories that a command's rule writes: the context, whether KR and KI are written besides ACC, and how
many entries (R216 to R220). -/
def contextSpan (s : State) (a0 a1 : Word) : Instr → Option (Nat × Bool × Nat)
  | .ocfg c _ => some (c, true, 2 ^ (nfftLg s.build a0.toNat a1.toNat).getD 0)
  | .ocfgs c m _ => some (c, true, 2 ^ (s.ctx m).lgfft)
  | .oflt c _ _ => some (c, false, 2 ^ (s.ctx c).lgfft)
  | .ofls c _ => some (c, false, 2 ^ (s.ctx c).lgfft)
  | .oini c => some (c, false, 2 ^ (s.ctx c).lgfft)
  | .nop => none
  | .cfg _ => none
  | .link _ _ _ _ => none
  | .cfgl _ _ _ _ _ => none
  | .fwd => none
  | .inv => none
  | .fwdl _ _ _ _ => none
  | .invl _ _ _ _ => none
  | .prod _ _ _ _ _ => none
  | .oclr _ => none

/-- A W-bit pattern of a free value. -/
def asSample (b : Build) (v : Sample) : Sample := BitVec.ofNat 64 (v.toNat % 2 ^ b.prec.width)

/-- The samples of a span hold free values, one for each sample (R271). -/
def forgetSpan (s : State) (w : BankSpan) : State :=
  s.setBlock w.bank w.first
    ((List.range w.count).map
      (fun j => asSample s.build (Config.abortedSample s.aborts w.bank (w.first + j))))

/-- The first n entries of a context memory (`which`: 0 KR, 1 KI, 2 ACC) hold free values (R271). -/
def forgottenEntries (s : State) (c which n : Nat) (old : List Sample) : List Sample :=
  overwrite old ((List.range n).map (fun j => asSample s.build (Config.abortedContext s.aborts c which j)))

/-- What the aborted command would have written holds free values; everything else keeps its value (R271). -/
def forgetContext (s : State) (span : Option (Nat × Bool × Nat)) : State :=
  match span with
  | none => s
  | some (c, spectrumToo, n) =>
    let x := s.ctx c
    s.setCtx c
      { x with
        kr := if spectrumToo then forgottenEntries s c 0 n x.kr else x.kr
        ki := if spectrumToo then forgottenEntries s c 1 n x.ki else x.ki
        acc := forgottenEntries s c 2 n x.acc }

/-- A context made FREE by reset, its memories as they are (R58). -/
def Context.released (x : Context) : Context :=
  { x with st := .free, master := 0, klen := 0, blk := 0, lgfft := 0 }

/-- The reset of the control state (R58): everything but the banks, the context memories, the free-value indices and
what the host is still going to do. -/
def resetControl (s : State) : State :=
  { State.resetOf s.build with
    ctxs := s.ctxs.map Context.released
    mem := s.mem
    epoch := s.epoch
    aborts := s.aborts
    bus := s.bus
    delays := s.delays }

/-- Reset while a command runs: what the command would have written is unspecified, every other sample keeps its value
(R271). Each such reset has its own free values. -/
def resetBusy (i : Instr) (a0 a1 : Word) (s : State) : State :=
  let s' := (bankSpans s a0 a1 i).foldl forgetSpan s
  { resetControl (forgetContext s' (contextSpan s a0 a1 i)) with aborts := s.aborts + 1 }

/-- Reset while idle: the whole reset state, all banks and context memories unspecified (R58, R59, R270). Each such
reset has its own free values. -/
def resetIdle (s : State) : State :=
  { State.resetOf s.build with
    epoch := s.epoch + 1
    aborts := s.aborts
    bus := s.bus
    delays := s.delays }

/-- The reset (R270), which aborts a command in progress (R271). -/
def resetEvent (s : State) : State :=
  match s.seq with
  | .idle => resetIdle s
  | .busy i a0 a1 _ => resetBusy i a0 a1 s

end Sys2Proof.Machine
end

