-- ==== Sys2Proof/Machine/Dispatch.lean ====
section
/-!
DEFINITION. The meaning of a command, arm by arm: issue it (spec/60_exceptions.md rule R240) with the checks and the
effect of its rule (spec/42_facade.md rules R181 to R189, spec/43_overlap_add.md rules R216 to R221).
-/
namespace Sys2Proof.Machine

def exec (i : Instr) (s : State) : Host.Outcome State Fault Refusal :=
  match i with
  | .nop => Sys2Proof.Machine.execNop s
  | .cfg lg => Sys2Proof.Machine.execCfg lg s
  | .link xr xi yr yi => Sys2Proof.Machine.execLink xr xi yr yi s
  | .cfgl xr xi yr yi lg => Sys2Proof.Machine.execCfgl xr xi yr yi lg s
  | .fwd => Sys2Proof.Machine.execFwd s
  | .inv => Sys2Proof.Machine.execInv s
  | .fwdl xr xi yr yi => Sys2Proof.Machine.execFwdl xr xi yr yi s
  | .invl xr xi yr yi => Sys2Proof.Machine.execInvl xr xi yr yi s
  | .prod xr xi yr yi sign => Sys2Proof.Machine.execProd xr xi yr yi sign s
  | .ocfg c kb => Sys2Proof.Machine.execOcfg c kb s
  | .ocfgs c m kb => Sys2Proof.Machine.execOcfgs c m kb s
  | .oflt c ib ob => Sys2Proof.Machine.execOflt c ib ob s
  | .ofls c ob => Sys2Proof.Machine.execOfls c ob s
  | .oini c => Sys2Proof.Machine.execOini c s
  | .oclr c => Sys2Proof.Machine.execOclr c s

end Sys2Proof.Machine
end

