-- ==== Sys2Proof/Machine/HostBus.lean ====
section
/-!
DEFINITION. The host's side: the address map, the CSRs, the NODE, TWIDDLE and DATA windows, reads and writes, the
presentation of a command, the stall rule, and the host events (spec/10_state.md rules R33 to R49, spec/20_memory.md
rules R80 to R96, spec/60_exceptions.md rule R240).
-/
namespace Sys2Proof.Machine

/-- A place in the address map (R82), as the byte offset of an aligned word from the region's base. -/
inductive Place where
  | csr (off : Nat)
  | node (off : Nat)
  | twiddle (off : Nat)
  | data (off : Nat)
  | unmapped
  deriving DecidableEq, Repr

/-- CSR_BASE and the size of the CSR region (R82). -/
def csrSize : Nat := 0x1000
/-- NODE_BASE (R82). -/
def nodeBase : Nat := 0x00200000
/-- The size of the NODE region (R82). -/
def nodeSize : Nat := 0x00200000
/-- TW_BASE (R82). -/
def twiddleBase : Nat := 0x00400000
/-- The size of the TWIDDLE region (R82). -/
def twiddleSize : Nat := 0x00400000
/-- The size of the DATA region, whose base is `dataBase` (R82). -/
def dataSize : Nat := 0x08000000

/-- The address of the aligned word that a transaction reaches: address bits [1:0] are ignored (R89). -/
def alignedAddr (addr : Word) : Nat := addr.toNat - addr.toNat % 4

/-- The place an aligned address names (R82). -/
def placeOfNat (a : Nat) : Place :=
  if a < csrSize then .csr a
  else if nodeBase ≤ a ∧ a < nodeBase + nodeSize then .node (a - nodeBase)
  else if twiddleBase ≤ a ∧ a < twiddleBase + twiddleSize then .twiddle (a - twiddleBase)
  else if dataBase ≤ a ∧ a < dataBase + dataSize then .data (a - dataBase)
  else .unmapped

/-- The place a transaction's address names (R82, R89). -/
def placeOf (addr : Word) : Place := placeOfNat (alignedAddr addr)

/-! ## CSR reads -/

/-- CSR.PARAM (R35). -/
def paramWord (b : Build) : Word :=
  BitVec.ofNat 32
    (b.log2nMax + (match b.prec with | .binary32 => 0 | .binary64 => 1) * 2 ^ 8 + (b.nbank - 1) * 2 ^ 12 +
      (b.nctx - 1) * 2 ^ 16)

/-- CSR.TCFG (R41). -/
def tcfgWord (s : State) : Word :=
  BitVec.ofNat 32 (s.facade.lg + bit s.facade.configured * 2 ^ 8 + bit s.facade.linked * 2 ^ 9)

/-- CSR.TLINK (R42). -/
def tlinkWord (s : State) : Word :=
  BitVec.ofNat 32 (s.facade.xr + s.facade.xi * 2 ^ 4 + s.facade.yr * 2 ^ 8 + s.facade.yi * 2 ^ 12)

/-- CSR.NODECNT (R43). -/
def nodecntWord (s : State) : Word := BitVec.ofNat 32 s.nodes.length

/-- The number of a context state in CSTATE.ST (R45). -/
def ContextKind.number : ContextKind → Nat
  | .free => 0
  | .owner => 1
  | .slave => 2

/-- CSR.CSTATE[c] of a context of the build (R45). -/
def cstateWord (s : State) (c : Nat) : Word :=
  BitVec.ofNat 32 ((s.ctx c).st.number + (s.ctx c).master * 2 ^ 4 + s.nslaves c * 2 ^ 8)

/-- The four CSRs of context c, at offset 0x040 + 16*c + 4*w (R45 to R48); 0 where the build has no context c (R49). -/
def contextWord (s : State) (c w : Nat) : Word :=
  if c < s.build.nctx then
    match w with
    | 0 => cstateWord s c
    | 1 => BitVec.ofNat 32 (s.ctx c).klen
    | 2 => BitVec.ofNat 32 (s.ctx c).blk
    | _ => BitVec.ofNat 32 (s.ctx c).lgfft
  else 0

/-- A CSR read at an aligned offset (R33 to R48); an offset that no rule names reads 0 (R49). Reads have no side
effect (R92). -/
def csrRead (off : Nat) (s : State) : Word :=
  if off = 0x000 then 0x4F445350
  else if off = 0x004 then 0x00010000
  else if off = 0x008 then paramWord s.build
  else if off = 0x00C then 0
  else if off = 0x010 then statusWord s
  else if off = 0x014 then irqenWord s
  else if off = 0x018 then s.arg0
  else if off = 0x01C then s.arg1
  else if off = 0x020 then tcfgWord s
  else if off = 0x024 then tlinkWord s
  else if off = 0x028 then nodecntWord s
  else if off = 0x02C then s.errcmd
  else if 0x040 ≤ off ∧ off < 0x040 + 16 * 8 then contextWord s ((off - 0x040) / 16) ((off - 0x040) / 4 % 4)
  else 0

/-! ## The windows -/

/-- The number of a node kind in the NODE window (R85). -/
def NodeKind.number : NodeKind → Nat
  | .generic => 0
  | .base8 => 1
  | .base16 => 2

/-- Word w of a node descriptor (R85). -/
def nodeWord (d : Node) (w : Nat) : Word :=
  match w with
  | 0 => BitVec.ofNat 32 (d.kind.number + d.lgs * 2 ^ 8)
  | 1 => BitVec.ofNat 32 d.seqoff
  | 2 => BitVec.ofNat 32 d.seqstride
  | _ => BitVec.ofNat 32 d.toff

/-- A read of the NODE window; descriptors from NODECNT on read 0 (R83, R85). -/
def nodeRead (off : Nat) (s : State) : Word :=
  match s.nodes[off / 16]? with
  | some d => nodeWord d (off / 4 % 4)
  | none => 0

/-- Host word `half` of a sample, the least significant first (R84, R88). -/
def sampleWord (v : Sample) (half : Nat) : Word := BitVec.ofNat 32 (v.toNat / 2 ^ (32 * half))

/-- The number of entries of each ROM table, NMAX/8 (R55). -/
def romLength (b : Build) : Nat := b.nmax / 8

/-- A read of the TWIDDLE window (R86); beyond the four tables it reads 0 (R83). -/
def twiddleRead (off : Nat) (b : Build) : Word :=
  let entry := off / b.wb
  if entry < 4 * romLength b then
    sampleWord (rom b (entry / romLength b) (entry % romLength b)) (off / 4 % b.hps)
  else 0

/-- The size in bytes of the populated part of the DATA region (R83, R84). -/
def dataPopulated (b : Build) : Nat := b.nbank * b.nmax * b.wb

/-- A read of the DATA window (R84); beyond bank NBANK-1 it reads 0 (R83). -/
def dataRead (off : Nat) (s : State) : Word :=
  if off < dataPopulated s.build then s.loadWord (dataBase + off) else 0

/-- A write to the DATA window replaces the addressed 32 bits of the sample (R84); beyond bank NBANK-1 it is ignored
(R83). -/
def dataWrite (off : Nat) (v : Word) (s : State) : State :=
  if off < dataPopulated s.build then s.storeBytes (dataBase + off) v.toNat 4 else s

/-! ## Transactions -/

/-- `MemRead(addr, 4)`: the word at the aligned address (R81 to R90). It has no side effect (R92). -/
def hostRead (addr : Word) (s : State) : Word :=
  match placeOf addr with
  | .csr off => csrRead off s
  | .node off => nodeRead off s
  | .twiddle off => twiddleRead off s.build
  | .data off => dataRead off s
  | .unmapped => 0

/-- Presentation of a command word (R240): rejected with BUSY and not decoded while a command runs (R244), with
ILLEGAL_CMD where it does not decode (R243), and else issued as the command it decodes to. -/
def present (w : Word) (s : State) : Host.Outcome State Fault Refusal :=
  if s.busy then .next (reject w .busy s)
  else
    match decode w with
    | .error _ => .next (reject w .illegalCmd s)
    | .ok i => exec i s

/-- A write to a CSR at an aligned offset: CMD presents a command (R36), STATUS clears its write-1-to-clear bits (R37),
IRQEN, ARG0 and ARG1 store (R38 to R40); every other CSR ignores it (R49, R92). -/
def csrWrite (off : Nat) (v : Word) (s : State) : Host.Outcome State Fault Refusal :=
  if off = 0x00C then present v s
  else if off = 0x010 then .next (writeStatus v s)
  else if off = 0x014 then .next (writeIrqen v s)
  else if off = 0x018 then .next { s with arg0 := v }
  else if off = 0x01C then .next { s with arg1 := v }
  else .next s

/-- `MemWrite(addr, 4, v, be)`: dropped unless be is 0b1111 (R90), ignored outside the CSR and DATA regions (R83, R85,
R86). -/
def hostWrite (addr v : Word) (be : BitVec 4) (s : State) : Host.Outcome State Fault Refusal :=
  if be = 0b1111 then
    match placeOf addr with
    | .csr off => csrWrite off v s
    | .node _ => .next s
    | .twiddle _ => .next s
    | .data off => .next (dataWrite off v s)
    | .unmapped => .next s
  else .next s

/-- The place is in the DATA or the NODE region, where accesses stall while a command runs (R93). -/
def Place.stalls : Place → Bool
  | .csr _ => false
  | .node _ => true
  | .twiddle _ => false
  | .data _ => true
  | .unmapped => false

/-- The host event waits while a command runs (R93). Whether a write is dropped does not matter (R90). -/
def HostOp.stalls : HostOp → Bool
  | .read addr => (placeOf addr).stalls
  | .write addr _ _ => (placeOf addr).stalls
  | .reset => false

/-- A host event performed: a read answers its word to the host, a write acts, a reset resets (R95, R270). -/
def perform (op : HostOp) (s : State) : Host.Outcome State Fault Refusal :=
  match op with
  | .read addr => .next { s with rdata := some (hostRead addr s) }
  | .write addr v be => hostWrite addr v be s
  | .reset => .next (resetEvent s)

/-! ## Which event comes next -/

/-- One host transaction fewer before the completion (R284). -/
def Sequencer.tick : Sequencer → Sequencer
  | .idle => .idle
  | .busy i a0 a1 left => .busy i a0 a1 (left - 1)

/-- The completion of the running command is the next event: its delay has run out, or the host has nothing more to
issue, or the host's next transaction stalls until the completion (R93, R284). -/
def completionDue (s : State) : Bool :=
  match s.seq with
  | .idle => false
  | .busy _ _ _ left =>
    left == 0 ||
      (match s.bus with
      | [] => true
      | op :: _ => op.stalls)

/-- The host's next event is taken from its list, and a running command is one host transaction nearer to its
completion. -/
def takeOp (rest : List HostOp) (s : State) : State :=
  { s with bus := rest, rdata := none, seq := s.seq.tick }

end Sys2Proof.Machine
end

