-- ==== Sys2Proof/Machine/Step.lean ====
section
/-!
DEFINITION. One event of the total order of spec/20_memory.md rule R95: a completion, or the host's next event.
-/
namespace Sys2Proof.Machine

/-- One event: the completion of the running command where it is due (R241, R284), else the host's next event (R81,
R95), else nothing, for the block waits for host transactions (R272). -/
def step (s : State) : Host.Outcome State Fault Refusal :=
  if completionDue s then .next (complete s)
  else
    match s.bus with
    | [] => .next s
    | op :: rest => perform op (takeOp rest s)

/-- The host's next transaction is the write of a command word to CSR.CMD (R36, R240), the only way a command comes to
run: the machine fetches none (R32, R99). -/
def State.withFetchWord (s : State) (nbits w : Nat) : State :=
  { s with bus := .write 0x0000000C (tableWord nbits w) 0b1111 :: s.bus }

end Sys2Proof.Machine
end

