-- ==== Sys2Proof/Safety.lean ====
section
/-!
DEFINITION. The terms that statements about the machine use: the invariant of the state (spec/10_state.md rules R37,
R43, R44, R50, R51 and R53), the data a command works on, the bytes it may write, rounding to nearest even
(spec/00_scope.md rule R13) and exact arithmetic (rule R16).
-/
namespace Sys2Proof.Machine

/-- The next state of an outcome, if it has one. -/
def nextState : Host.Outcome State Fault Refusal → Option State
  | .next s => some s
  | .fault _ => none
  | .refused _ => none

/-! ## The invariant -/

/-- The memory has its canonical form and lists populated DATA addresses only (R82 to R84). -/
abbrev MemoryOk (s : State) : Prop :=
  Memory.wf s.mem ∧ ∀ c ∈ s.mem, dataBase ≤ c.1 ∧ c.1 < dataBase + dataPopulated s.build

/-- While ERR = 0, ERRCODE and ERRCMD are 0 (R37, R44); while ERR = 1, ERRCODE holds a cause (R245). -/
abbrev ErrorsOk (s : State) : Prop :=
  (s.err = false → s.errcode = .none ∧ s.errcmd = 0) ∧ (s.err = true → s.errcode ≠ .none)

/-- The facade invariants of R50: LG is legal when configured and 0 otherwise; the link is legal when linked and 0
otherwise; linked implies configured. -/
abbrev FacadeOk (s : State) : Prop :=
  (s.facade.configured = true → checkLg s.build s.facade.lg = true) ∧
  (s.facade.configured = false → s.facade.lg = 0 ∧ s.facade.linked = false) ∧
  (s.facade.linked = true → checkLink s.build s.facade.xr s.facade.xi s.facade.yr s.facade.yi = true) ∧
  (s.facade.linked = false → s.facade.xr = 0 ∧ s.facade.xi = 0 ∧ s.facade.yr = 0 ∧ s.facade.yi = 0)

/-- The node table is the one of the configured size, and empty before the first configuration (R43, R51, R164). -/
abbrev NodesOk (s : State) : Prop :=
  s.nodes = if s.facade.configured then buildTable s.facade.lg 0 1 0 else []

/-- The invariants of R53 for context c. -/
abbrev ContextOk (s : State) (c : Nat) : Prop :=
  ((s.ctx c).st = .free →
    (s.ctx c).klen = 0 ∧ (s.ctx c).blk = 0 ∧ (s.ctx c).lgfft = 0 ∧ (s.ctx c).master = 0) ∧
  ((s.ctx c).st = .owner →
    nfftLg s.build (s.ctx c).klen (s.ctx c).blk = some (s.ctx c).lgfft ∧ (s.ctx c).master = 0) ∧
  ((s.ctx c).st = .slave →
    (s.ctx c).master < s.build.nctx ∧ (s.ctx c).master ≠ c ∧ (s.ctx (s.ctx c).master).st = .owner ∧
      (s.ctx c).klen = (s.ctx (s.ctx c).master).klen ∧ (s.ctx c).lgfft = (s.ctx (s.ctx c).master).lgfft) ∧
  ((s.ctx c).st ≠ .free →
    1 ≤ (s.ctx c).klen ∧ 1 ≤ (s.ctx c).blk ∧
      (s.ctx c).klen + (s.ctx c).blk - 1 ≤ 2 ^ (s.ctx c).lgfft ∧ (s.ctx c).lgfft ≤ s.build.log2nMax)

/-- There are NCTX contexts, and R53 holds of each (R52, R53). -/
abbrev ContextsOk (s : State) : Prop :=
  s.ctxs.length = s.build.nctx ∧ ∀ c < s.build.nctx, ContextOk s c

/-- A running command is encodable and still passes the checks it was accepted with (R96, R240). -/
def pendingOk (s : State) : Bool :=
  match s.seq with
  | .idle => true
  | .busy i a0 a1 _ => i.wf && (checkOf i a0 a1 s == none)

/-- The invariant of the machine. -/
abbrev Inv (s : State) : Prop :=
  s.build.valid ∧ MemoryOk s ∧ ErrorsOk s ∧ FacadeOk s ∧ NodesOk s ∧ ContextsOk s ∧ pendingOk s = true

/-- Every entry of the context memories is a W-bit pattern of the format (R9, R52). -/
abbrev EntriesFit (s : State) : Prop :=
  ∀ x ∈ s.ctxs, ∀ v ∈ x.kr ++ x.ki ++ x.acc, v.toNat < 2 ^ s.build.prec.width

/-! ## Vocabulary of the statements -/

/-- The sequencer is idle and the next command to be accepted completes at once (R284). -/
abbrev ReadyAtOnce (s : State) : Prop := s.seq = .idle ∧ s.nextDelay = 0

/-- Address a is outside the samples first .. first+count-1 of a bank (R84). -/
abbrev OutsideSpan (b : Build) (bank first count a : Nat) : Prop :=
  a < sampleAddr b bank first ∨ sampleAddr b bank (first + count) ≤ a

/-- The rejection of a command issued in state s, with its code (R246, R247). -/
abbrev Rejects (i : Instr) (code : ErrCode) (s : State) : Prop := exec i s = .next (reject (encode i) code s)

/-- The legal links of R193, in the rule's words. -/
abbrev LinkLegal (b : Build) (xr xi yr yi : Nat) : Prop :=
  (xr < b.nbank ∧ xi < b.nbank ∧ yr < b.nbank ∧ yi < b.nbank) ∧ yr ≠ yi ∧ (yr ≠ xr ∧ yr ≠ xi) ∧ (yi ≠ xr ∧ yi ≠ xi)

/-- Context d is a slave of context c (R45). -/
abbrev SlaveOf (s : State) (c d : Nat) : Prop := d < s.ctxs.length ∧ (s.ctx d).st = .slave ∧ (s.ctx d).master = c

/-- In t the banks yr and yi hold `re k` and `im k` at the indices k < n, and every other byte is as in s. -/
abbrev StoresPair (s t : State) (yr yi n : Nat) (re im : Nat → Sample) : Prop :=
  (∀ k < n, t.sample yr k = re k ∧ t.sample yi k = im k) ∧
  ∀ a, OutsideSpan s.build yr 0 n a → OutsideSpan s.build yi 0 n a → t.byte a = s.byte a

/-- t is s after the completion of a command whose effect reached the memory only: everything else is as it was, but
for DONE and the consumed entry of the latency schedule. -/
abbrev OnlyMemory (s t : State) : Prop := t = { s with mem := t.mem, done := true, delays := s.delays.tail }

/-- t is s after the completion of a command whose effect reached context c only: everything else is as it was, the
other contexts too, but for DONE and the consumed entry of the latency schedule. -/
abbrev OnlyContext (c : Nat) (s t : State) : Prop :=
  t = { s with ctxs := t.ctxs, done := true, delays := s.delays.tail } ∧ t.ctxs.length = s.ctxs.length ∧
  ∀ d, d ≠ c → t.ctx d = s.ctx d

/-- In t the first n accumulator entries of context c are `acc`, and the later ones are as in s. -/
abbrev AccIs (s t : State) (c n : Nat) (acc : Nat → Sample) : Prop :=
  (∀ j < n, t.accAt c j = acc j) ∧ ∀ j, n ≤ j → t.accAt c j = s.accAt c j

/-- The data that commands work on: the facade, the node table, the contexts and the banks (R30). -/
structure Data where
  facade : Facade
  nodes : List Node
  ctxs : List Context
  mem : Memory
  deriving DecidableEq, Repr

/-- The data of a state. -/
def dataOf (s : State) : Data := ⟨s.facade, s.nodes, s.ctxs, s.mem⟩

/-- The word the host holds after the event, if the event was a read (R81). -/
def readBack (o : Host.Outcome State Fault Refusal) : Option Word := (nextState o).bind State.rdata

/-! ## Rounding -/

/-- The least magnitude, in quanta, that rounds to infinity: half a unit above the largest finite value. -/
def overflowAt (p : Prec) : Nat := (2 ^ (fracBits p + 2) - 1) * 2 ^ (expOnes p - 3)

/-- How far the value with the bits r (without sign) lies from n * 2^-k quanta, in units of 2^-k quanta. -/
def distance (p : Prec) (n k r : Nat) : Nat := ((magOfBits p r * 2 ^ k : Nat) - (n : Int)).natAbs

/-- r is what rounding to nearest, ties to even, makes of the magnitude n * 2^-k quanta (R13): infinity from
`overflowAt` on, and else a finite value that no other one is nearer than, even where another one is as near. -/
abbrev RoundsTo (p : Prec) (n k r : Nat) : Prop :=
  r ≤ infBits p ∧ (r = infBits p ↔ overflowAt p * 2 ^ k ≤ n) ∧
  (r < infBits p → ∀ c < infBits p,
    distance p n k r ≤ distance p n k c ∧ (c ≠ r → distance p n k r = distance p n k c → r % 2 = 0))

/-! ## Real values -/

/-- The real number that a finite value stands for (R9, R13). -/
noncomputable def valueOf (p : Prec) (x : Sample) : ℝ := quanta p x / 2 ^ quantumExp p

/-- The exact real that ROM[t][j] is rounded from, with theta_j = 2*pi*j/NMAX (R141). -/
noncomputable def exactTwiddle (b : Build) (t j : Nat) : ℝ :=
  match t with
  | 0 => Real.cos (2 * Real.pi * j / b.nmax)
  | 1 => Real.cos (3 * (2 * Real.pi * j / b.nmax))
  | 2 => -Real.sin (2 * Real.pi * j / b.nmax)
  | _ => -Real.sin (3 * (2 * Real.pi * j / b.nmax))

/-! ## Exact arithmetic -/

/-- The arithmetic that computes exactly on the real numbers, with the exact tables of R140: the mathematical target of
the kernels (R16). -/
structure ExactArith (A : Arith ℝ) : Prop where
  add : ∀ a b, A.add a b = a + b
  sub : ∀ a b, A.sub a b = a - b
  mul : ∀ a b, A.mul a b = a * b
  neg : ∀ a, A.neg a = -a
  zero : A.zero = 0
  h : A.h = √2 / 2
  tab0 : ∀ lg i, i < 2 ^ lg / 8 → A.tab 0 lg i = Real.cos (2 * Real.pi * i / 2 ^ lg)
  tab1 : ∀ lg i, i < 2 ^ lg / 8 → A.tab 1 lg i = Real.cos (6 * Real.pi * i / 2 ^ lg)
  tab2 : ∀ lg i, i < 2 ^ lg / 8 → A.tab 2 lg i = -Real.sin (2 * Real.pi * i / 2 ^ lg)
  tab3 : ∀ lg i, i < 2 ^ lg / 8 → A.tab 3 lg i = -Real.sin (6 * Real.pi * i / 2 ^ lg)
  scale : ∀ lg, A.scale lg = (2 ^ lg : ℝ)⁻¹

/-- A complex sample of exact arithmetic as a complex number (R14). -/
def Cpx.toComplex (z : Cpx ℝ) : ℂ := ⟨z.re, z.im⟩

/-- The reference DFT of R16: bin k of the N values x(0), ..., x(N-1). -/
noncomputable def referenceDft (n : Nat) (x : Nat → ℂ) (k : Nat) : ℂ :=
  ∑ m ∈ Finset.range n, x m * Complex.exp (-(2 * Real.pi * Complex.I * m * k / n))

end Sys2Proof.Machine
end

