-- ==== Sys2Proof/Certificates/Slice0/Obligations.lean ====
section
/-!
DEFINITION. The statements for the provers. Each says which rule of spec/ it formalises, or which sections it rests on.
-/
section
open Sys2Proof Sys2Proof.Machine

/-! ## Encoding and decoding (spec/30_encoding.md) -/

/-- Decoding the word of a well-formed command gives the command back: no operand bit of any format is dropped (R112 to
R117). -/
def Obligations.DecodeOfEncode : Prop := ∀ i : Instr, i.wf = true → decode (encode i) = .ok i

/-- A word that decodes is the word of the command it decodes to, whose operands fit their fields: no two words stand
for one command (R115 to R117). -/
def Obligations.EncodeOfDecode : Prop := ∀ (w : Word) (i : Instr), decode w = .ok i → i.wf = true ∧ encode i = w

/-- Decoding is a total function that gives the one row a word matches, and is illegal where there is none. The rows
have different OP values under masks that cover OP (R116, R117). -/
def Obligations.DecodingIsTheUniqueRow : Prop :=
  (∀ w, ∀ r ∈ opcodeRows, r.matches w = true → decode w = .ok (r.build w)) ∧
  (∀ w, (∃ e, decode w = .error e) ↔ ∀ r ∈ opcodeRows, r.matches w = false) ∧
  (∀ r ∈ opcodeRows, r.mask &&& 0xFF = 0xFF) ∧
  opcodeRows.Pairwise (fun r r' => bits r.pattern 7 0 ≠ bits r'.pattern 7 0)

/-- Words that the spec writes out decode to the commands it writes beside them: the examples of R119, R181 to R184,
R186, R188 and R220. -/
def Obligations.SpecWordsDecode : Prop :=
  decode 0x00000000 = .ok .nop ∧ decode 0x05000001 = .ok (.cfg 5) ∧ decode 0x00321002 = .ok (.link 0 1 2 3) ∧
  decode 0x03321003 = .ok (.cfgl 0 1 2 3 3) ∧ decode 0x00654402 = .ok (.link 4 4 5 6) ∧
  decode 0x00103206 = .ok (.fwdl 2 3 0 1) ∧ decode 0x00321007 = .ok (.invl 0 1 2 3) ∧
  decode 0x20543208 = .ok (.prod 2 3 4 5 .minus) ∧ decode 0x00000014 = .ok (.oini 0)

/-! ## Presenting, rejecting, accepting and completing a command (spec/60_exceptions.md) -/

/-- A step runs the decoded command: when the sequencer is idle and the host's next transaction is a full write of a
word to CSR.CMD, the step takes that transaction from the host's list and is the meaning of the command the word
decodes to (R36, R240). -/
def Obligations.StepRunsTheCommand : Prop :=
  ∀ (s : State) (addr w : Word) (rest : List HostOp) (i : Instr),
    s.seq = .idle → alignedAddr addr = 0x00C → s.bus = .write addr w 0b1111 :: rest → decode w = .ok i →
    step s = exec i (takeOp rest s)

/-- A word that does not decode is rejected with ILLEGAL_CMD: a word with an unassigned OP, a word with an assigned OP
and a nonzero bit outside the command's fields (R118, R243). -/
def Obligations.IllegalWordsAreRejected : Prop :=
  (∀ w, (∀ r ∈ opcodeRows, bits r.pattern 7 0 ≠ bits w 7 0) → ∃ e, decode w = .error e) ∧
  (∀ w, ∀ r ∈ opcodeRows, bits r.pattern 7 0 = bits w 7 0 → w &&& r.mask ≠ r.pattern → ∃ e, decode w = .error e) ∧
  ∀ (s : State) (addr w : Word) (rest : List HostOp) (e : Illegal),
    s.seq = .idle → alignedAddr addr = 0x00C → s.bus = .write addr w 0b1111 :: rest → decode w = .error e →
    step s = .next (reject w .illegalCmd (takeOp rest s))

/-- A command written while another one runs is rejected with BUSY, whatever the word is, and the running command
stays, with its latched operands. Writes to ARG0 and ARG1 meanwhile just store (R244). -/
def Obligations.BusyRejects : Prop :=
  ∀ (s : State) (i : Instr) (a0 a1 : Word) (left : Nat) (addr w : Word), s.seq = .busy i a0 a1 left →
    (alignedAddr addr = 0x00C →
      hostWrite addr w 0b1111 s = .next (reject w .busy s) ∧ (reject w .busy s).seq = .busy i a0 a1 left ∧
        dataOf (complete (reject w .busy s)) = dataOf (complete s)) ∧
    (alignedAddr addr = 0x018 → hostWrite addr w 0b1111 s = .next { s with arg0 := w }) ∧
    (alignedAddr addr = 0x01C → hostWrite addr w 0b1111 s = .next { s with arg1 := w })

/-- Recording: the first rejection since ERR was last 0 is kept in full, a later one only sets ERROVF, and writing 1 to
STATUS.ERR clears ERR, ERRCODE and ERRCMD together (R246). -/
def Obligations.RejectionIsRecorded : Prop :=
  ∀ (w : Word) (e : ErrCode) (s : State),
    (s.err = false → reject w e s = { s with err := true, errcode := e, errcmd := w }) ∧
    (s.err = true → reject w e s = { s with errovf := true }) ∧
    ∀ v : Word, v.getLsbD 2 = true →
      (writeStatus v s).err = false ∧ (writeStatus v s).errcode = .none ∧ (writeStatus v s).errcmd = 0

/-- All or nothing: a presented word is rejected, which changes the error fields only, or it is the word of a command
whose checks all pass, which is accepted, and completed at once where no host transaction comes before its completion
(R240, R247, R249). How long a command takes is the model's schedule (notes/assumptions/2.md). -/
def Obligations.AllOrNothing : Prop :=
  ∀ (w : Word) (s : State), ∃ t, present w s = .next t ∧
    ((∃ e, e ≠ .none ∧ t = reject w e s) ∨
     ∃ i, decode w = .ok i ∧ s.seq = .idle ∧ checkOf i s.arg0 s.arg1 s = none ∧
       t = if s.nextDelay = 0 then complete (accept i s) else accept i s)

/-- Every check of every command names INVALID_ARG or INVALID_STATE (R245). -/
def Obligations.ChecksNameTwoCodes : Prop :=
  ∀ (i : Instr) (a0 a1 : Word) (s : State) (e : ErrCode), checkOf i a0 a1 s = some e →
    e = .invalidArg ∨ e = .invalidState

/-- When the facade commands are rejected, and with which code, in the priority of R248: CFGL with an illegal size fails
whatever its banks are, and LINK on an unconfigured facade fails with INVALID_STATE whatever its banks are (the checks of
R182 to R189, R192 and R193). -/
def Obligations.FacadeCommandsRejected : Prop :=
  ∀ s : State, s.seq = .idle →
    (∀ lg, ¬ (3 ≤ lg ∧ lg ≤ s.build.log2nMax) →
      Rejects (.cfg lg) .invalidArg s ∧ ∀ xr xi yr yi, Rejects (.cfgl xr xi yr yi lg) .invalidArg s) ∧
    (∀ xr xi yr yi, ¬ LinkLegal s.build xr xi yr yi →
      (∀ lg, Rejects (.cfgl xr xi yr yi lg) .invalidArg s) ∧
      (s.facade.configured = true → Rejects (.link xr xi yr yi) .invalidArg s ∧
        Rejects (.fwdl xr xi yr yi) .invalidArg s ∧ Rejects (.invl xr xi yr yi) .invalidArg s)) ∧
    (s.facade.configured = false → ∀ xr xi yr yi, Rejects (.link xr xi yr yi) .invalidState s ∧
      Rejects (.fwdl xr xi yr yi) .invalidState s ∧ Rejects (.invl xr xi yr yi) .invalidState s) ∧
    (s.facade.configured = false ∨ s.facade.linked = false →
      Rejects .fwd .invalidState s ∧ Rejects .inv .invalidState s) ∧
    ∀ xr xi yr yi sign,
      ¬ ((xr < s.build.nbank ∧ xi < s.build.nbank ∧ yr < s.build.nbank ∧ yi < s.build.nbank) ∧ yr ≠ yi ∧
          s.arg0.toNat ≤ s.build.nmax) →
      Rejects (.prod xr xi yr yi sign) .invalidArg s

/-- When the overlap-add commands are rejected, and with which code, check by check in the listed order (the checks of
R216 to R221, with R222 and R223). -/
def Obligations.ContextCommandsRejected : Prop :=
  ∀ s : State, s.seq = .idle →
    (∀ c, s.build.nctx ≤ c → ∀ m kb ib ob, Rejects (.ocfg c kb) .invalidArg s ∧ Rejects (.ocfgs c m kb) .invalidArg s ∧
      Rejects (.oflt c ib ob) .invalidArg s ∧ Rejects (.ofls c ob) .invalidArg s ∧ Rejects (.oini c) .invalidArg s ∧
      Rejects (.oclr c) .invalidArg s) ∧
    ∀ c, c < s.build.nctx →
      ((s.ctx c).st = .free → ∀ ib ob, Rejects (.oflt c ib ob) .invalidState s ∧
        Rejects (.ofls c ob) .invalidState s ∧ Rejects (.oini c) .invalidState s) ∧
      ((s.ctx c).st ≠ .free → ∀ ib ob,
        (s.build.nbank ≤ ib ∨ s.build.nbank ≤ ob ∨ s.build.nmax - (s.ctx c).blk < s.arg0.toNat ∨
          s.build.nmax - (s.ctx c).blk < s.arg1.toNat → Rejects (.oflt c ib ob) .invalidArg s) ∧
        (s.build.nbank ≤ ob ∨ s.build.nmax - (s.ctx c).blk < s.arg1.toNat → Rejects (.ofls c ob) .invalidArg s)) ∧
      ((∀ d, ¬ SlaveOf s c d) → ∀ kb,
        s.build.nbank ≤ kb ∨ nfftLg s.build s.arg0.toNat s.arg1.toNat = none → Rejects (.ocfg c kb) .invalidArg s) ∧
      (∀ m kb, s.build.nctx ≤ m ∨ m = c → Rejects (.ocfgs c m kb) .invalidArg s) ∧
      ((∀ d, ¬ SlaveOf s c d) → ∀ m kb, m < s.build.nctx → m ≠ c →
        ((s.ctx m).st = .free → Rejects (.ocfgs c m kb) .invalidState s) ∧
        ((s.ctx m).st = .slave → Rejects (.ocfgs c m kb) .invalidArg s) ∧
        ((s.ctx m).st = .owner →
          s.build.nbank ≤ kb ∨ s.arg0.toNat ≠ (s.ctx m).klen ∨ s.arg1.toNat = 0 ∨
            2 ^ (s.ctx m).lgfft < s.arg0.toNat + s.arg1.toNat - 1 → Rejects (.ocfgs c m kb) .invalidArg s))

/-- Acceptance: a command whose checks pass, where host transactions come before its completion, makes the sequencer
busy with the command and the values of ARG0 and ARG1, and changes no other state of the machine (R240). How many host
transactions come is the model's latency schedule (notes/assumptions/2.md). -/
def Obligations.AcceptanceLatches : Prop :=
  ∀ (i : Instr) (s : State) (n : Nat), s.seq = .idle → s.nextDelay = n + 1 → checkOf i s.arg0 s.arg1 s = none →
    exec i s = .next { s with seq := .busy i s.arg0 s.arg1 (n + 1), delays := s.delays.tail }

/-- Completion: one event applies the effect of the command with the latched operands, makes the sequencer idle, clears
BUSY and sets DONE. It never touches the error fields, ARG0, ARG1 or IRQEN (R241). -/
def Obligations.CompletionEvent : Prop :=
  ∀ (s : State) (i : Instr) (a0 a1 : Word) (left : Nat), s.seq = .busy i a0 a1 left → completionDue s = true →
    ∃ t, step s = .next t ∧ dataOf t = dataOf (effectOf i a0 a1 s) ∧ t.busy = false ∧
      t = { s with seq := .idle, done := true, facade := t.facade, nodes := t.nodes, ctxs := t.ctxs, mem := t.mem }

/-- Latency does not matter to the result: a command that host transactions will separate from its completion leaves,
when it completes, what it leaves when it completes at once (R284, R287). How long a command takes is the model's
schedule (notes/assumptions/2.md). -/
def Obligations.LatencyDoesNotMatter : Prop :=
  ∀ (i : Instr) (s : State) (n : Nat) (ds : List Nat) (t u : State), s.seq = .idle →
    checkOf i s.arg0 s.arg1 s = none →
    exec i { s with delays := (n + 1) :: ds } = .next t → exec i { s with delays := 0 :: ds } = .next u →
    t.seq = .busy i s.arg0 s.arg1 (n + 1) ∧ complete t = u

/-- The host's transactions during a command do not reach it: after a transaction that neither stalls nor resets, the
same command runs with the same latched operands, and its completion leaves the data it would have left before (R39,
R96, R287). That the command still runs, with one host transaction fewer left before its completion, is the model's
schedule (notes/assumptions/2.md, DESIGN CHOICE), not those rules. -/
def Obligations.HostEventsDoNotDisturb : Prop :=
  ∀ (s t : State) (i : Instr) (a0 a1 : Word) (left : Nat) (op : HostOp) (rest : List HostOp),
    s.seq = .busy i a0 a1 (left + 1) → s.bus = op :: rest → op ≠ .reset → op.stalls = false → step s = .next t →
    t.seq = .busy i a0 a1 left ∧ dataOf (complete t) = dataOf (complete s)

/-- Termination: a busy sequencer is idle again after finitely many events, at most one more than the host
transactions left before its completion (R284). How long a command takes is the model's schedule
(notes/assumptions/2.md). -/
def Obligations.EveryCommandEnds : Prop :=
  ∀ (s : State) (i : Instr) (a0 a1 : Word) (left : Nat), s.seq = .busy i a0 a1 left →
    ∃ k t, k ≤ left + 1 ∧ Sys2Proof.core.run k s = .next t ∧ t.seq = .idle

/-! ## The facade commands (spec/42_facade.md) -/

/-- NOP runs in every state and changes nothing but DONE (R181). How long a command takes is the model's schedule,
here none at all (notes/assumptions/2.md). -/
def Obligations.NopResult : Prop :=
  ∀ s : State, ReadyAtOnce s → exec .nop s = .next { s with done := true, delays := s.delays.tail }

/-- CFG lg and CFGL xr, xi, yr, yi, lg configure the facade and rebuild its node table. CFG leaves it unlinked, CFGL
links it. Nothing else changes but DONE (R182, R183). How long a command takes is the model's schedule, here none at
all (notes/assumptions/2.md). -/
def Obligations.ConfigureResult : Prop :=
  ∀ (s : State) (lg : Nat), ReadyAtOnce s → 3 ≤ lg → lg ≤ s.build.log2nMax →
    exec (.cfg lg) s = .next { s with
      facade := ⟨true, lg, false, 0, 0, 0, 0⟩, nodes := buildTable lg 0 1 0, done := true, delays := s.delays.tail } ∧
    ∀ xr xi yr yi, LinkLegal s.build xr xi yr yi →
      exec (.cfgl xr xi yr yi lg) s = .next { s with
        facade := ⟨true, lg, true, xr, xi, yr, yi⟩, nodes := buildTable lg 0 1 0, done := true,
        delays := s.delays.tail }

/-- LINK xr, xi, yr, yi on a configured facade replaces the link and changes nothing else but DONE (R184). How long a
command takes is the model's schedule, here none at all (notes/assumptions/2.md). -/
def Obligations.LinkResult : Prop :=
  ∀ (s : State) (xr xi yr yi : Nat), ReadyAtOnce s → s.facade.configured = true → LinkLegal s.build xr xi yr yi →
    exec (.link xr xi yr yi) s = .next { s with
      facade := ⟨true, s.facade.lg, true, xr, xi, yr, yi⟩, done := true, delays := s.delays.tail }

/-- FWD on a legal link, and FWDL after linking, put the forward transform of the source samples into the destination
banks and leave every other byte of every bank. FWD changes nothing else, FWDL the link (R163, R185, R186). How long a
command takes is the model's schedule, here none at all (notes/assumptions/2.md). -/
def Obligations.ForwardResult : Prop :=
  (∀ s : State, ReadyAtOnce s → s.facade.configured = true → s.facade.linked = true → FacadeOk s →
    ∃ t, exec .fwd s = .next t ∧ OnlyMemory s t ∧
      StoresPair s t s.facade.yr s.facade.yi (2 ^ s.facade.lg)
        (fun k => ((arithOf s.build).at ((arithOf s.build).fwd s.facade.lg (linkedSource s)) k).re)
        (fun k => ((arithOf s.build).at ((arithOf s.build).fwd s.facade.lg (linkedSource s)) k).im)) ∧
  ∀ (s : State) (xr xi yr yi : Nat), ReadyAtOnce s → s.facade.configured = true → FacadeOk s →
    LinkLegal s.build xr xi yr yi →
    ∃ t, exec (.fwdl xr xi yr yi) s = .next t ∧ OnlyMemory (bind xr xi yr yi s) t ∧
      t.facade = ⟨true, s.facade.lg, true, xr, xi, yr, yi⟩ ∧
      StoresPair s t yr yi (2 ^ s.facade.lg)
        (fun k => ((arithOf s.build).at
          ((arithOf s.build).fwd s.facade.lg (linkedSource (bind xr xi yr yi s))) k).re)
        (fun k => ((arithOf s.build).at
          ((arithOf s.build).fwd s.facade.lg (linkedSource (bind xr xi yr yi s))) k).im)

/-- INV on a legal link, and INVL after linking, put the inverse transform of the source samples (the forward
transform, then INV_POST) into the destination banks and leave every other byte of every bank. INV changes nothing
else, INVL the link (R187, R188, R190). How long a command takes is the model's schedule, here none at all
(notes/assumptions/2.md). -/
def Obligations.InverseResult : Prop :=
  (∀ s : State, ReadyAtOnce s → s.facade.configured = true → s.facade.linked = true → FacadeOk s →
    ∃ t, exec .inv s = .next t ∧ OnlyMemory s t ∧
      StoresPair s t s.facade.yr s.facade.yi (2 ^ s.facade.lg)
        (fun k => ((arithOf s.build).at ((arithOf s.build).inverse s.facade.lg (linkedSource s)) k).re)
        (fun k => ((arithOf s.build).at ((arithOf s.build).inverse s.facade.lg (linkedSource s)) k).im)) ∧
  ∀ (s : State) (xr xi yr yi : Nat), ReadyAtOnce s → s.facade.configured = true → FacadeOk s →
    LinkLegal s.build xr xi yr yi →
    ∃ t, exec (.invl xr xi yr yi) s = .next t ∧ OnlyMemory (bind xr xi yr yi s) t ∧
      t.facade = ⟨true, s.facade.lg, true, xr, xi, yr, yi⟩ ∧
      StoresPair s t yr yi (2 ^ s.facade.lg)
        (fun k => ((arithOf s.build).at
          ((arithOf s.build).inverse s.facade.lg (linkedSource (bind xr xi yr yi s))) k).re)
        (fun k => ((arithOf s.build).at
          ((arithOf s.build).inverse s.facade.lg (linkedSource (bind xr xi yr yi s))) k).im)

/-- PROD with count n = ARG0 replaces the samples 0..n-1 of the two Y banks by the products of the X and Y samples as
they were before the command, whichever banks are shared, and leaves every other byte and all other state (R189,
R191). How long a command takes is the model's schedule, here none at all (notes/assumptions/2.md). -/
def Obligations.ProductResult : Prop :=
  ∀ (s : State) (xr xi yr yi : Nat) (sign : Sign), ReadyAtOnce s →
    xr < s.build.nbank → xi < s.build.nbank → yr < s.build.nbank → yi < s.build.nbank → yr ≠ yi →
    s.arg0.toNat ≤ s.build.nmax →
    ∃ t, exec (.prod xr xi yr yi sign) s = .next t ∧ OnlyMemory s t ∧
      StoresPair s t yr yi s.arg0.toNat
        (fun k => ((arithOf s.build).cprod sign ⟨s.sample xr k, s.sample xi k⟩ ⟨s.sample yr k, s.sample yi k⟩).re)
        (fun k => ((arithOf s.build).cprod sign ⟨s.sample xr k, s.sample xi k⟩ ⟨s.sample yr k, s.sample yi k⟩).im)

/-! ## The overlap-add commands (spec/43_overlap_add.md) -/

/-- OCFG c, kb and OCFGS c, m, kb configure the context with the kernel length ARG0 and the block size ARG1: OCFG as
an owner with its own transform size, OCFGS as a slave with its master's. The kernel spectrum of the first ARG0
samples of bank kb is retained, and the accumulator is +0. The other contexts, every bank and the facade are unchanged
(R210, R212, R216, R217). How long a command takes is the model's schedule, here none at all (notes/assumptions/2.md). -/
def Obligations.ContextConfigurationResult : Prop :=
  ∀ (s : State) (c kb : Nat), ReadyAtOnce s → s.ctxs.length = s.build.nctx → c < s.build.nctx →
    (∀ d, ¬ SlaveOf s c d) → kb < s.build.nbank →
    (∀ lg, nfftLg s.build s.arg0.toNat s.arg1.toNat = some lg →
      ∃ t, exec (.ocfg c kb) s = .next t ∧ OnlyContext c s t ∧ AccIs s t c (2 ^ lg) (fun _ => plusZero) ∧
        t.ctx c = { (t.ctx c) with st := .owner, master := 0, klen := s.arg0.toNat, blk := s.arg1.toNat, lgfft := lg } ∧
        (∀ k < 2 ^ lg, (⟨t.krAt c k, t.kiAt c k⟩ : Cpx Sample) =
          (arithOf s.build).at ((arithOf s.build).kernelSpectrum lg (s.block kb 0 s.arg0.toNat)) k) ∧
        ∀ k, 2 ^ lg ≤ k → t.krAt c k = s.krAt c k ∧ t.kiAt c k = s.kiAt c k) ∧
    ∀ m lg, m < s.build.nctx → m ≠ c → (s.ctx m).st = .owner → (s.ctx m).klen = s.arg0.toNat → (s.ctx m).lgfft = lg →
      1 ≤ s.arg1.toNat → s.arg0.toNat + s.arg1.toNat - 1 ≤ 2 ^ lg →
      ∃ t, exec (.ocfgs c m kb) s = .next t ∧ OnlyContext c s t ∧ AccIs s t c (2 ^ lg) (fun _ => plusZero) ∧
        t.ctx c = { (t.ctx c) with st := .slave, master := m, klen := s.arg0.toNat, blk := s.arg1.toNat, lgfft := lg } ∧
        (∀ k < 2 ^ lg, (⟨t.krAt c k, t.kiAt c k⟩ : Cpx Sample) =
          (arithOf s.build).at ((arithOf s.build).kernelSpectrum lg (s.block kb 0 s.arg0.toNat)) k) ∧
        ∀ k, 2 ^ lg ≤ k → t.krAt c k = s.krAt c k ∧ t.kiAt c k = s.kiAt c k

/-- OFLT c, ib, ob adds the filtered block at offset ARG0 of bank ib to the accumulator, writes the first B sums to
the block at offset ARG1 of bank ob and shifts the accumulator left by B with +0 behind. Every other byte, the rest of
the context, the other contexts and the facade are unchanged, also where ib is ob (R214, R215, R218). How long a
command takes is the model's schedule, here none at all (notes/assumptions/2.md). -/
def Obligations.FilterResult : Prop :=
  ∀ (s : State) (c ib ob : Nat), ReadyAtOnce s → ContextsOk s → c < s.build.nctx → (s.ctx c).st ≠ .free →
    ib < s.build.nbank → ob < s.build.nbank →
    s.arg0.toNat ≤ s.build.nmax - (s.ctx c).blk → s.arg1.toNat ≤ s.build.nmax - (s.ctx c).blk →
    ∀ sums : Nat → Sample,
      (∀ j, sums j = fadd s.build.prec (s.accAt c j)
        (((arithOf s.build).olaBlock (s.ctx c).lgfft (spectrumOf s c)
          (s.block ib s.arg0.toNat (s.ctx c).blk)).getD j plusZero)) →
      ∃ t, exec (.oflt c ib ob) s = .next t ∧
        t = { s with ctxs := t.ctxs, mem := t.mem, done := true, delays := s.delays.tail } ∧
        (∀ j < (s.ctx c).blk, t.sample ob (s.arg1.toNat + j) = sums j) ∧
        (∀ a, OutsideSpan s.build ob s.arg1.toNat (s.ctx c).blk a → t.byte a = s.byte a) ∧
        AccIs s t c (2 ^ (s.ctx c).lgfft)
          (fun j => if j < 2 ^ (s.ctx c).lgfft - (s.ctx c).blk then sums (j + (s.ctx c).blk) else plusZero) ∧
        t.ctx c = { (s.ctx c) with acc := (t.ctx c).acc } ∧ (∀ d, d ≠ c → t.ctx d = s.ctx d)

/-- OFLS c, ob writes the first B accumulator entries, bit by bit, to the block at offset ARG1 of bank ob and shifts
the accumulator left by B with +0 behind. Every other byte, the rest of the context, the other contexts and the facade
are unchanged (R215, R219). How long a command takes is the model's schedule, here none at all
(notes/assumptions/2.md). -/
def Obligations.FlushResult : Prop :=
  ∀ (s : State) (c ob : Nat), ReadyAtOnce s → ContextsOk s → EntriesFit s → c < s.build.nctx → (s.ctx c).st ≠ .free →
    ob < s.build.nbank → s.arg1.toNat ≤ s.build.nmax - (s.ctx c).blk →
    ∃ t, exec (.ofls c ob) s = .next t ∧
      t = { s with ctxs := t.ctxs, mem := t.mem, done := true, delays := s.delays.tail } ∧
      (∀ j < (s.ctx c).blk, t.sample ob (s.arg1.toNat + j) = s.accAt c j) ∧
      (∀ a, OutsideSpan s.build ob s.arg1.toNat (s.ctx c).blk a → t.byte a = s.byte a) ∧
      AccIs s t c (2 ^ (s.ctx c).lgfft)
        (fun j => if j < 2 ^ (s.ctx c).lgfft - (s.ctx c).blk then s.accAt c (j + (s.ctx c).blk) else plusZero) ∧
      t.ctx c = { (s.ctx c) with acc := (t.ctx c).acc } ∧ (∀ d, d ≠ c → t.ctx d = s.ctx d)

/-- OINI c sets the accumulator entries below the transform size to +0 and changes nothing else (R220). How long a
command takes is the model's schedule, here none at all (notes/assumptions/2.md). -/
def Obligations.InitialiseResult : Prop :=
  ∀ (s : State) (c : Nat), ReadyAtOnce s → s.ctxs.length = s.build.nctx → c < s.build.nctx → (s.ctx c).st ≠ .free →
    ∃ t, exec (.oini c) s = .next t ∧ OnlyContext c s t ∧
      AccIs s t c (2 ^ (s.ctx c).lgfft) (fun _ => plusZero) ∧ t.ctx c = { (s.ctx c) with acc := (t.ctx c).acc }

/-- OCLR c makes a context without slaves FREE. KR, KI and ACC keep whatever they hold, and the master of a released
slave has one slave fewer (R221). How long a command takes is the model's schedule, here none at all
(notes/assumptions/2.md). -/
def Obligations.ReleaseResult : Prop :=
  ∀ (s : State) (c : Nat), ReadyAtOnce s → s.ctxs.length = s.build.nctx → c < s.build.nctx →
    (∀ d, ¬ SlaveOf s c d) →
    ∃ t, exec (.oclr c) s = .next t ∧ OnlyContext c s t ∧
      t.ctx c = { (s.ctx c) with st := .free, master := 0, klen := 0, blk := 0, lgfft := 0 } ∧
      ((s.ctx c).st = .slave → t.nslaves (s.ctx c).master + 1 = s.nslaves (s.ctx c).master)

/-- nfft_lg(L, B) is the least exponent of at least 3 whose power of two holds L + B - 1 samples, and it is defined
exactly when L and B are from 1 to NMAX and that exponent is at most LOG2N_MAX (R210). -/
def Obligations.TransformSizeRule : Prop :=
  ∀ (b : Build) (l bl lg : Nat),
    nfftLg b l bl = some lg ↔
      (1 ≤ l ∧ 1 ≤ bl ∧ l ≤ b.nmax ∧ bl ≤ b.nmax) ∧ 3 ≤ lg ∧ l + bl - 1 ≤ 2 ^ lg ∧
        (∀ lg', 3 ≤ lg' → l + bl - 1 ≤ 2 ^ lg' → lg ≤ lg') ∧ lg ≤ b.log2nMax

/-! ## Invariants and isolation -/

/-- The invariant holds right after reset of every legal build, and so does the fit of the context entries (R58). -/
def Obligations.InvariantAtReset : Prop :=
  (∀ b : Build, b.valid → Inv (State.resetOf b) ∧ EntriesFit (State.resetOf b)) ∧ Inv State.reset

/-- Every step keeps the invariant: the memory in canonical form and inside the populated banks, the error fields, the
facade and its link, the node table, every context invariant (a slave's master is an owner with the same kernel length
and transform size), and a running command that still passes the checks it was accepted with (R37, R43, R44, R50, R51,
R53, R226). -/
def Obligations.StepKeepsInvariant : Prop := ∀ s t : State, Inv s → step s = .next t → Inv t

/-- Every step keeps the context entries W-bit patterns of the format, and never changes the build (R6, R9, R52). -/
def Obligations.StepKeepsFormats : Prop :=
  ∀ s t : State, step s = .next t → t.build = s.build ∧ (EntriesFit s → EntriesFit t)

/-- Nothing stops the machine: every command, every host event and every step answers a next state (R81, R241, R242). -/
def Obligations.NothingStops : Prop :=
  (∀ (i : Instr) (s : State), ∃ t, exec i s = .next t) ∧
  (∀ (op : HostOp) (s : State), ∃ t, perform op s = .next t) ∧ ∀ s : State, ∃ t, step s = .next t

/-- No command writes ARG0, ARG1 or IRQEN, at its issue or at its completion: only a host write or a reset does (R31,
R38 to R40). -/
def Obligations.OnlyTheHostWritesOperands : Prop :=
  (∀ (i : Instr) (s t : State), exec i s = .next t →
    t.arg0 = s.arg0 ∧ t.arg1 = s.arg1 ∧ t.doneie = s.doneie ∧ t.errie = s.errie) ∧
  ∀ s : State, (complete s).arg0 = s.arg0 ∧ (complete s).arg1 = s.arg1 ∧ (complete s).doneie = s.doneie ∧
    (complete s).errie = s.errie

/-- A command writes no byte outside the samples its rule names: the destination banks below N of a transform, the
elements below the count of a product, the B samples of an output block, and none for every other command (R54, R94,
R163, R189, R227). -/
def Obligations.CommandsWriteTheirSamplesOnly : Prop :=
  ∀ (i : Instr) (a0 a1 : Word) (s : State) (a : Nat),
    (∀ w ∈ bankSpans s a0 a1 i, OutsideSpan s.build w.bank w.first w.count a) →
    (effectOf i a0 a1 s).byte a = s.byte a

/-- The two sub-engines are isolated: a context command neither reads nor writes the facade and the node table, and a
facade command neither reads nor writes any context, in its checks and in its effect (R227). -/
def Obligations.SubEnginesAreIsolated : Prop :=
  ∀ (a0 a1 : Word) (s : State),
    (∀ (f : Facade) (nt : List Node) (c m kb ib ob : Nat),
      ∀ i ∈ [Instr.ocfg c kb, .ocfgs c m kb, .oflt c ib ob, .ofls c ob, .oini c, .oclr c],
        checkOf i a0 a1 { s with facade := f, nodes := nt } = checkOf i a0 a1 s ∧
        effectOf i a0 a1 { s with facade := f, nodes := nt } =
          { effectOf i a0 a1 s with facade := f, nodes := nt }) ∧
    ∀ (cs : List Context) (xr xi yr yi lg : Nat) (sign : Sign),
      ∀ i ∈ [Instr.nop, .cfg lg, .link xr xi yr yi, .cfgl xr xi yr yi lg, .fwd, .inv, .fwdl xr xi yr yi,
          .invl xr xi yr yi, .prod xr xi yr yi sign],
        checkOf i a0 a1 { s with ctxs := cs } = checkOf i a0 a1 s ∧
        effectOf i a0 a1 { s with ctxs := cs } = { effectOf i a0 a1 s with ctxs := cs }

/-- A master that has slaves cannot be reconfigured, made a slave or released, and no command but OCFG, OCFGS and OCLR
changes the state of a context (R226). -/
def Obligations.MasterLifetime : Prop :=
  (∀ (s : State) (c d : Nat), s.seq = .idle → c < s.build.nctx → SlaveOf s c d → ∀ kb,
    Rejects (.ocfg c kb) .invalidState s ∧ Rejects (.oclr c) .invalidState s ∧
      ∀ m, m < s.build.nctx → m ≠ c → Rejects (.ocfgs c m kb) .invalidState s) ∧
  ∀ (i : Instr) (a0 a1 : Word) (s : State) (d : Nat),
    (∀ c kb, i ≠ .ocfg c kb) → (∀ c m kb, i ≠ .ocfgs c m kb) → (∀ c, i ≠ .oclr c) →
    ((effectOf i a0 a1 s).ctx d).st = (s.ctx d).st

/-! ## The host's view (spec/10_state.md, spec/20_memory.md) -/

/-- The control registers as the host reads them: ID, VERSION, CMD, every field of PARAM in a legal build, every field of
STATUS and IRQEN, ARG0, ARG1 and ERRCMD (R33 to R40, R44). -/
def Obligations.ControlRegistersRead : Prop :=
  ∀ s : State, s.build.valid →
    hostRead 0x000 s = 0x4F445350 ∧ hostRead 0x004 s = 0x00010000 ∧ hostRead 0x00C s = 0 ∧
    (bits (hostRead 0x008 s) 4 0 = s.build.log2nMax ∧ bits (hostRead 0x008 s) 7 5 = 0 ∧
      bits (hostRead 0x008 s) 8 8 = (match s.build.prec with | .binary32 => 0 | .binary64 => 1) ∧
      bits (hostRead 0x008 s) 11 9 = 0 ∧ bits (hostRead 0x008 s) 15 12 = s.build.nbank - 1 ∧
      bits (hostRead 0x008 s) 18 16 = s.build.nctx - 1 ∧ bits (hostRead 0x008 s) 31 19 = 0) ∧
    (bits (hostRead 0x010 s) 0 0 = bit s.busy ∧ bits (hostRead 0x010 s) 1 1 = bit s.done ∧
      bits (hostRead 0x010 s) 2 2 = bit s.err ∧ bits (hostRead 0x010 s) 3 3 = bit s.errovf ∧
      bits (hostRead 0x010 s) 7 4 = 0 ∧ bits (hostRead 0x010 s) 11 8 = s.errcode.number ∧
      bits (hostRead 0x010 s) 31 12 = 0) ∧
    (bits (hostRead 0x014 s) 0 0 = bit s.doneie ∧ bits (hostRead 0x014 s) 1 1 = bit s.errie ∧
      bits (hostRead 0x014 s) 31 2 = 0) ∧
    hostRead 0x018 s = s.arg0 ∧ hostRead 0x01C s = s.arg1 ∧ hostRead 0x02C s = s.errcmd

/-- The facade and context registers as the host reads them, in every state that meets the invariant: TCFG, TLINK,
NODECNT, and CSTATE, CKLEN, CBLK and CNFFT of every context of the build; those of the contexts the build does not have
read 0 (R41 to R43, R45 to R49). -/
def Obligations.ConfigurationRegistersRead : Prop :=
  ∀ s : State, Inv s →
    (bits (hostRead 0x020 s) 4 0 = s.facade.lg ∧ bits (hostRead 0x020 s) 7 5 = 0 ∧
      bits (hostRead 0x020 s) 8 8 = bit s.facade.configured ∧ bits (hostRead 0x020 s) 9 9 = bit s.facade.linked ∧
      bits (hostRead 0x020 s) 31 10 = 0) ∧
    (bits (hostRead 0x024 s) 3 0 = s.facade.xr ∧ bits (hostRead 0x024 s) 7 4 = s.facade.xi ∧
      bits (hostRead 0x024 s) 11 8 = s.facade.yr ∧ bits (hostRead 0x024 s) 15 12 = s.facade.yi ∧
      bits (hostRead 0x024 s) 31 16 = 0) ∧
    (hostRead 0x028 s).toNat = s.nodes.length ∧
    (∀ c < s.build.nctx, ∀ r : Nat → Word, (∀ w, r w = hostRead (BitVec.ofNat 32 (0x040 + 16 * c + 4 * w)) s) →
      (bits (r 0) 1 0 = (s.ctx c).st.number ∧ bits (r 0) 3 2 = 0 ∧ bits (r 0) 6 4 = (s.ctx c).master ∧
        bits (r 0) 7 7 = 0 ∧ bits (r 0) 11 8 = s.nslaves c ∧ bits (r 0) 31 12 = 0) ∧
      (r 1).toNat = (s.ctx c).klen ∧ (r 2).toNat = (s.ctx c).blk ∧ (r 3).toNat = (s.ctx c).lgfft) ∧
    ∀ c w, s.build.nctx ≤ c → c < 8 → w < 4 → hostRead (BitVec.ofNat 32 (0x040 + 16 * c + 4 * w)) s = 0

/-- A full write to STATUS clears DONE, ERR and ERROVF where it writes 1, ERRCODE and ERRCMD with ERR, and nothing else; a
full write to IRQEN stores its two bits, one to ARG0 or ARG1 the whole word (R37 to R40, R246). -/
def Obligations.RegisterWrites : Prop :=
  ∀ (s : State) (addr v : Word),
    (alignedAddr addr = 0x010 → hostWrite addr v 0b1111 s = .next { s with
      done := s.done && !v.getLsbD 1, err := s.err && !v.getLsbD 2, errovf := s.errovf && !v.getLsbD 3,
      errcode := if v.getLsbD 2 then .none else s.errcode, errcmd := if v.getLsbD 2 then 0 else s.errcmd }) ∧
    (alignedAddr addr = 0x014 →
      hostWrite addr v 0b1111 s = .next { s with doneie := v.getLsbD 0, errie := v.getLsbD 1 }) ∧
    (alignedAddr addr = 0x018 → hostWrite addr v 0b1111 s = .next { s with arg0 := v }) ∧
    (alignedAddr addr = 0x01C → hostWrite addr v 0b1111 s = .next { s with arg1 := v })

/-- The interrupt output is the level of DONE under DONEIE or ERR under ERRIE. It rises with a completion, with a first
rejection and with the mask of a set flag, whatever the masks were before, and ERROVF is no source of it (R38, R250,
R251). -/
def Obligations.InterruptLevel : Prop :=
  ∀ s : State,
    irq s = ((bits (hostRead 0x010 s) 1 1 == 1 && bits (hostRead 0x014 s) 0 0 == 1) ||
      (bits (hostRead 0x010 s) 2 2 == 1 && bits (hostRead 0x014 s) 1 1 == 1)) ∧
    (s.busy = true → s.doneie = true → irq (complete s) = true) ∧
    (∀ w e, s.errie = true → irq (reject w e s) = true) ∧
    (s.done = true → ∀ v : Word, v.getLsbD 0 = true → irq (writeIrqen v s) = true) ∧
    (∀ f, irq { s with errovf := f } = irq s)

/-- Reserved CSR offsets, unmapped addresses and unpopulated ones read 0, and a write there, or to any read-only
location, changes nothing (R49, R83, R85, R86, R92). -/
def Obligations.UnpopulatedReadsZero : Prop :=
  ∀ (s : State) (addr v : Word) (be : BitVec 4),
    (∀ off, placeOf addr = .csr off → (0x030 ≤ off ∧ off < 0x040) ∨ 0x0C0 ≤ off → hostRead addr s = 0) ∧
    (placeOf addr = .unmapped → hostRead addr s = 0) ∧
    (∀ off, placeOf addr = .node off → s.nodes.length * 16 ≤ off → hostRead addr s = 0) ∧
    (∀ off, placeOf addr = .twiddle off → 4 * (s.build.nmax / 8) * s.build.wb ≤ off → s.build.valid →
      hostRead addr s = 0) ∧
    (∀ off, placeOf addr = .data off → s.build.nbank * s.build.nmax * s.build.wb ≤ off →
      hostRead addr s = 0 ∧ hostWrite addr v be s = .next s) ∧
    (∀ off, placeOf addr = .csr off → off ∉ [0x00C, 0x010, 0x014, 0x018, 0x01C] → hostWrite addr v be s = .next s) ∧
    (∀ off, placeOf addr = .node off ∨ placeOf addr = .twiddle off → hostWrite addr v be s = .next s) ∧
    (placeOf addr = .unmapped → hostWrite addr v be s = .next s)

/-- The form of transactions. The two low address bits are ignored, by reads and by writes. Reads have no side effect:
the only trace of one is the word it returned to the host. A write with any byte-enable but 0b1111 is dropped: it changes
nothing and presents no command (R89, R90, R92). -/
def Obligations.TransactionForm : Prop :=
  ∀ (s : State) (addr addr' v : Word) (be : BitVec 4),
    (addr.toNat / 4 = addr'.toNat / 4 →
      hostRead addr s = hostRead addr' s ∧ hostWrite addr v be s = hostWrite addr' v be s) ∧
    perform (.read addr) s = .next { s with rdata := some (hostRead addr s) } ∧
    (be ≠ 0b1111 → perform (.write addr v be) s = .next s)

/-- A full write to a populated DATA word is read back, every other word of every region reads as before, and nothing
but the banks changes (R84, R87, R92). -/
def Obligations.DataWordsReadBack : Prop :=
  ∀ (s : State) (addr v : Word) (off : Nat), placeOf addr = .data off → off < s.build.nbank * s.build.nmax * s.build.wb →
    ∃ t, hostWrite addr v 0b1111 s = .next t ∧ t = { s with mem := t.mem } ∧ hostRead addr t = v ∧
      ∀ addr' : Word, alignedAddr addr' ≠ alignedAddr addr → hostRead addr' t = hostRead addr' s

/-- Sample j of bank b lies at DATA_BASE + (b * NMAX + j) * WB, the word at the lower address holding the low half of a
binary64 sample and the next one its high half; a binary32 sample is the one word (R84, R88). -/
def Obligations.SamplesInTheDataWindow : Prop :=
  ∀ (s : State) (bank j : Nat), s.build.valid → bank < s.build.nbank → j < s.build.nmax →
    ∀ addr, addr = 0x08000000 + (bank * s.build.nmax + j) * s.build.wb →
      (s.build.prec = .binary64 →
        s.sample bank j = hostRead (BitVec.ofNat 32 (addr + 4)) s ++ hostRead (BitVec.ofNat 32 addr) s) ∧
      (s.build.prec = .binary32 → s.sample bank j = (0 : BitVec 32) ++ hostRead (BitVec.ofNat 32 addr) s)

/-- The four words of descriptor n of the node table in the NODE window (R85). -/
def Obligations.NodeWindow : Prop :=
  ∀ (s : State) (n : Nat) (d : Node), s.nodes[n]? = some d → n < 131072 → d.lgs < 32 → d.seqoff < 2 ^ 32 →
    d.seqstride < 2 ^ 32 → d.toff < 2 ^ 32 →
    ∀ r : Nat → Word, (∀ w, r w = hostRead (BitVec.ofNat 32 (0x00200000 + 16 * n + 4 * w)) s) →
      (bits (r 0) 1 0 = d.kind.number ∧ bits (r 0) 7 2 = 0 ∧ bits (r 0) 12 8 = d.lgs ∧ bits (r 0) 31 13 = 0) ∧
      (r 1).toNat = d.seqoff ∧ (r 2).toNat = d.seqstride ∧ (r 3).toNat = d.toff

/-- Entry j of twiddle table t in the TWIDDLE window, in the word order of the DATA window (R86). -/
def Obligations.TwiddleWindow : Prop :=
  ∀ (s : State) (t j : Nat), s.build.valid → t < 4 → j < s.build.nmax / 8 →
    ∀ addr, addr = 0x00400000 + (t * (s.build.nmax / 8) + j) * s.build.wb →
      (s.build.prec = .binary64 →
        rom s.build t j = hostRead (BitVec.ofNat 32 (addr + 4)) s ++ hostRead (BitVec.ofNat 32 addr) s) ∧
      (s.build.prec = .binary32 → rom s.build t j = (0 : BitVec 32) ++ hostRead (BitVec.ofNat 32 addr) s)

/-- The stall rule: while a command runs, a transaction to the DATA or NODE region waits: the completion comes first,
the transaction is still the host's next one, and it is then performed against the state the command left. A
transaction elsewhere does not wait (R93). How long a command takes is the model's schedule (notes/assumptions/2.md). -/
def Obligations.StallRule : Prop :=
  (∀ (addr v : Word) (be : BitVec 4),
    ((HostOp.read addr).stalls = true ↔
      (0x00200000 ≤ addr.toNat ∧ addr.toNat < 0x00400000) ∨ (0x08000000 ≤ addr.toNat ∧ addr.toNat < 0x10000000)) ∧
    (HostOp.write addr v be).stalls = (HostOp.read addr).stalls) ∧
  ∀ (s : State) (i : Instr) (a0 a1 : Word) (left : Nat) (op : HostOp) (rest : List HostOp),
    s.seq = .busy i a0 a1 left → s.bus = op :: rest →
    (op.stalls = true → step s = .next (complete s) ∧ (complete s).bus = op :: rest ∧
      step (complete s) = perform op (takeOp rest (complete s))) ∧
    (op.stalls = false → left ≠ 0 → step s = perform op (takeOp rest s))

/-! ## Reset (spec/10_state.md rule R58, spec/70_reset_and_hazards.md) -/

/-- After a reset, of an idle machine or of a busy one, all the control state is as R58 lists it. -/
def Obligations.ResetControlState : Prop :=
  ∀ s : State, ∃ t, perform .reset s = .next t ∧ t.build = s.build ∧ statusWord t = 0 ∧ t.errcmd = 0 ∧
    irqenWord t = 0 ∧ irq t = false ∧ t.arg0 = 0 ∧ t.arg1 = 0 ∧ t.seq = .idle ∧ t.facade = Facade.fresh ∧
    t.nodes = [] ∧ tcfgWord t = 0 ∧ tlinkWord t = 0 ∧ nodecntWord t = 0 ∧
    ∀ c, (t.ctx c).st = .free ∧ (t.ctx c).master = 0 ∧ (t.ctx c).klen = 0 ∧ (t.ctx c).blk = 0 ∧ (t.ctx c).lgfft = 0

/-- A reset that aborts a command leaves every byte and every context entry that the command would not have written
(R271). This is the model's choice where R270 leaves all banks and context memories open, and so is the reading of 'the
ACC, KR and KI of the command's context' as the entries that the command's rule writes, above all in the clause about
the context entries (notes/assumptions/7.md, DESIGN CHOICE). -/
def Obligations.ResetWhileBusyKeeps : Prop :=
  ∀ (s : State) (i : Instr) (a0 a1 : Word) (left : Nat), s.seq = .busy i a0 a1 left →
    ∃ t, perform .reset s = .next t ∧
      (∀ a, (∀ w ∈ bankSpans s a0 a1 i, OutsideSpan s.build w.bank w.first w.count a) → t.byte a = s.byte a) ∧
      ∀ c j, (∀ x, contextSpan s a0 a1 i = some x → c ≠ x.1 ∨ x.2.2 ≤ j) →
        t.krAt c j = s.krAt c j ∧ t.kiAt c j = s.kiAt c j ∧ t.accAt c j = s.accAt c j

/-! ## The kernels and the node table (spec/40_twiddle_rom.md, spec/41_kernels_and_nodes.md) -/

/-- The number of nodes: 1 for sizes 8 and 16, and 1 + node_count(lg-1) + 2*node_count(lg-2) above; in closed form
2^(lg-3) for odd lg and 2^(lg-3) - 1 for even lg (R165). -/
def Obligations.NodeCount : Prop :=
  ∀ count : Nat → Nat, (∀ lg, count lg = (buildTable lg 0 1 0).length) →
    count 3 = 1 ∧ count 4 = 1 ∧
    (∀ lg, 5 ≤ lg → count lg = 1 + count (lg - 1) + 2 * count (lg - 2)) ∧
    (∀ lg, 3 ≤ lg → count lg = if lg % 2 = 1 then 2 ^ (lg - 3) else 2 ^ (lg - 3) - 1) ∧
    [count 3, count 4, count 5, count 6, count 7, count 8, count 9, count 10] = [1, 1, 4, 7, 16, 31, 64, 127] ∧
    count 20 = 131071

/-- The shape of the node table: the root is descriptor 0, GENERIC nodes have a size of at least 32 and stand before
their three child subtrees, the leaves' output ranges cover 0..N-1 without overlap, and every node's input indices lie
in 0..N-1 (R166). -/
def Obligations.TreeShape : Prop :=
  ∀ lg, 3 ≤ lg → ∀ table, table = buildTable lg 0 1 0 →
    (∃ rest, table = ⟨nodeKind lg, lg, 0, 1, 0⟩ :: rest) ∧
    (∀ d ∈ table, (d.kind = .base8 ↔ d.lgs = 3) ∧ (d.kind = .base16 ↔ d.lgs = 4) ∧ (d.kind = .generic ↔ 5 ≤ d.lgs) ∧
      ∀ m < 2 ^ d.lgs, d.seqoff + m * d.seqstride < 2 ^ lg) ∧
    (∀ pre d post, table = pre ++ d :: post → d.kind = .generic → ∃ post',
      post = buildTable (d.lgs - 1) d.seqoff (2 * d.seqstride) d.toff ++
        buildTable (d.lgs - 2) (d.seqoff + d.seqstride) (4 * d.seqstride) (d.toff + 2 ^ d.lgs / 2) ++
        buildTable (d.lgs - 2) (d.seqoff + 3 * d.seqstride) (4 * d.seqstride) (d.toff + 3 * 2 ^ d.lgs / 4) ++ post') ∧
    ∀ j, (table.countP (fun d => d.kind != .generic && decide (d.toff ≤ j) && decide (j < d.toff + 2 ^ d.lgs))) =
      if j < 2 ^ lg then 1 else 0

/-- The evaluation can run from the node table: visiting the descriptors from the last down to the first, the whole
kernel at a leaf and only COMBINE at a GENERIC node, gives what the recursion gives, whatever the arithmetic (R164). -/
def Obligations.TableDrivenEvaluation : Prop :=
  ∀ (α : Type) (A : Arith α) (x y : List (Cpx α)) (lg : Nat), 3 ≤ lg → y.length = 2 ^ lg →
    (buildTable lg 0 1 0).reverse.foldl (fun y d => A.visit x d y) y = A.node x lg 0 1 0 y

/-- The forward transform writes the destination indices 0..N-1 only, and its result depends on the source samples
0..N-1 only: not on what the destination held before, and not on later source samples (R163). -/
def Obligations.ForwardDependsOnItsInput : Prop :=
  ∀ (α : Type) (A : Arith α) (x x' y : List (Cpx α)) (lg : Nat), 3 ≤ lg → 2 ^ lg ≤ y.length →
    (∀ j < 2 ^ lg, A.at x j = A.at x' j) →
    (∀ k < 2 ^ lg, A.at (A.node x lg 0 1 0 y) k = A.at (A.fwd lg x') k) ∧
    ∀ k, 2 ^ lg ≤ k → A.at (A.node x lg 0 1 0 y) k = A.at y k

/-- In exact arithmetic the split-radix forward transform is the DFT, bin by bin in natural order (R16, R163, R194). -/
def Obligations.ForwardIsTheDft : Prop :=
  ∀ A : Arith ℝ, ExactArith A → ∀ (lg : Nat) (x : List (Cpx ℝ)), 3 ≤ lg → ∀ k < 2 ^ lg,
    (A.at (A.fwd lg x) k).toComplex = referenceDft (2 ^ lg) (fun m => (A.at x m).toComplex) k

/-- In exact arithmetic the inverse transform undoes the forward one (R190, R195). -/
def Obligations.InverseUndoesForward : Prop :=
  ∀ A : Arith ℝ, ExactArith A → ∀ (lg : Nat) (x : List (Cpx ℝ)), 3 ≤ lg → ∀ k < 2 ^ lg,
    A.at (A.inverse lg (A.fwd lg x)) k = A.at x k

/-- In exact arithmetic one block through the pipeline is the linear convolution of the block with the kernel, when the
transform size holds it (R214, R228). -/
def Obligations.OverlapAddConvolves : Prop :=
  ∀ A : Arith ℝ, ExactArith A → ∀ (lg : Nat) (kernel block : List ℝ), 3 ≤ lg →
    kernel.length + block.length - 1 ≤ 2 ^ lg → 1 ≤ kernel.length → 1 ≤ block.length → ∀ t < 2 ^ lg,
    (A.olaBlock lg (A.kernelSpectrum lg kernel) block).getD t 0 =
      ∑ m ∈ Finset.range (t + 1), kernel.getD m 0 * block.getD (t - m) 0

/-- What the twiddle ROM holds, in every legal build: entry 0 is 1.0 in the two cosine tables and +0 in the two sine
tables; every entry is finite, and no other finite value of the format is nearer to the exact cosine or negative sine of
R141 by more than 2^-240; and up to LOG2N_MAX = 10 the entry is nearer to it than every other value. The entry that a
transform of size 2^lg uses does not depend on the build's LOG2N_MAX (R141, R142). How the model computes an entry, and
why 2^-240 is less than a rounding boundary is away in any legal build, is in notes/assumptions/6.md. -/
def Obligations.TwiddleTables : Prop :=
  (∀ b : Build, b.valid →
    (∀ one, one = (match b.prec with | .binary32 => (0x3F800000 : Sample) | .binary64 => 0x3FF0000000000000) →
      rom b 0 0 = one ∧ rom b 1 0 = one ∧ rom b 2 0 = plusZero ∧ rom b 3 0 = plusZero) ∧
    ∀ t < 4, ∀ j < b.nmax / 8, fbits b.prec (rom b t j) < infBits b.prec ∧
      ∀ c : Sample, fbits b.prec c < infBits b.prec →
        |valueOf b.prec (rom b t j) - exactTwiddle b t j| ≤ |valueOf b.prec c - exactTwiddle b t j| + 2⁻¹ ^ 240 ∧
        (b.log2nMax ≤ 10 → valueOf b.prec c ≠ valueOf b.prec (rom b t j) →
          |valueOf b.prec (rom b t j) - exactTwiddle b t j| < |valueOf b.prec c - exactTwiddle b t j|)) ∧
  ∀ (b b' : Build) (t lg i : Nat), b.prec = b'.prec → lg ≤ b.log2nMax → lg ≤ b'.log2nMax → i < 2 ^ lg / 8 →
    tab b t lg i = tab b' t lg i

/-! ## The arithmetic primitives (spec/00_scope.md rule R13) -/

/-- Sums and products of finite values are rounded to nearest, ties to even, with overflow to infinity and gradual
underflow; a sum that is exactly zero is -0 only where both operands are negative; and the sign of a product is the
exclusive or of the operands' signs (R13). -/
def Obligations.PrimitivesRound : Prop :=
  ∀ (p : Prec) (a b : Sample), fbits p a < infBits p → fbits p b < infBits p →
    (quanta p a + quanta p b ≠ 0 →
      RoundsTo p (quanta p a + quanta p b).natAbs 0 (fbits p (fadd p a b)) ∧
      fsign p (fadd p a b) = decide (quanta p a + quanta p b < 0)) ∧
    (quanta p a + quanta p b = 0 →
      fbits p (fadd p a b) = 0 ∧ fsign p (fadd p a b) = (fsign p a && fsign p b)) ∧
    RoundsTo p (mag p a * mag p b) (quantumExp p) (fbits p (fmul p a b)) ∧
    fsign p (fmul p a b) = (fsign p a != fsign p b)

/-- Every NaN result of the primitives is the canonical quiet NaN; a sum is NaN exactly for a NaN operand or two
infinities of opposite signs, a product exactly for a NaN operand or infinity times zero. The sum of an infinity and a
finite value, or of two infinities of one sign, is that infinity, and the product of an infinity and a nonzero value
that is no NaN is the infinity whose sign is the exclusive or of the operands' signs. And fneg inverts the sign bit, of
a NaN as well (R13). -/
def Obligations.PrimitivesAndNaN : Prop :=
  ∀ (p : Prec) (a b : Sample),
    (isNaN p (fadd p a b) = true → fadd p a b = qNaN p) ∧ (isNaN p (fmul p a b) = true → fmul p a b = qNaN p) ∧
    (isNaN p (fadd p a b) = true ↔
      isNaN p a = true ∨ isNaN p b = true ∨ (isInf p a = true ∧ isInf p b = true ∧ fsign p a ≠ fsign p b)) ∧
    (isNaN p (fmul p a b) = true ↔
      isNaN p a = true ∨ isNaN p b = true ∨ (isInf p a = true ∧ isZero p b = true) ∨
        (isZero p a = true ∧ isInf p b = true)) ∧
    (isInf p a = true → fbits p b < infBits p ∨ (isInf p b = true ∧ fsign p a = fsign p b) →
      fbits p (fadd p a b) = infBits p ∧ fsign p (fadd p a b) = fsign p a ∧
        fbits p (fadd p b a) = infBits p ∧ fsign p (fadd p b a) = fsign p a) ∧
    (isInf p a = true → isNaN p b = false → isZero p b = false →
      fbits p (fmul p a b) = infBits p ∧ fsign p (fmul p a b) = (fsign p a != fsign p b) ∧
        fbits p (fmul p b a) = infBits p ∧ fsign p (fmul p b a) = (fsign p a != fsign p b)) ∧
    fsub p a b = fadd p a (fneg p b) ∧ fsign p (fneg p a) = !fsign p a ∧ fbits p (fneg p a) = fbits p a ∧
    qNaN .binary32 = 0x7FC00000 ∧ qNaN .binary64 = 0x7FF8000000000000

end
end

