-- ==== Sys2Proof/Laws/Kernels.lean ====
section
/-!
SUPPORT. Laws of the transform procedures that hold in every arithmetic: they keep the length of the destination, and
they keep every predicate that the primitives keep.
-/
namespace Sys2Proof.Machine

variable {α : Type}

/-! ## Lengths -/

@[simp] theorem Arith.dft2_length (A : Arith α) (x : List (Cpx α)) (off st t : Nat) (y : List (Cpx α)) :
    (A.dft2 x off st t y).length = y.length := by simp [Arith.dft2]

@[simp] theorem Arith.dft4_length (A : Arith α) (x : List (Cpx α)) (off st t : Nat) (y : List (Cpx α)) :
    (A.dft4 x off st t y).length = y.length := by simp [Arith.dft4]

@[simp] theorem Arith.butterfly_length (A : Arith α) (lg t q : Nat) (y : List (Cpx α)) (k : Nat) :
    (A.butterfly lg t q y k).length = y.length := by simp [Arith.butterfly]

@[simp] theorem Arith.invPair_length (A : Arith α) (lg : Nat) (y : List (Cpx α)) (i : Nat) :
    (A.invPair lg y i).length = y.length := by simp [Arith.invPair]

theorem foldl_length {β : Type} {f : List β → Nat → List β} (hf : ∀ y k, (f y k).length = y.length) (l : List Nat)
    (y : List β) : (l.foldl f y).length = y.length := by
  induction l generalizing y with
  | nil => rfl
  | cons k l ih => simp [ih, hf]

@[simp] theorem Arith.combine_length (A : Arith α) (lg t : Nat) (y : List (Cpx α)) :
    (A.combine lg t y).length = y.length := foldl_length (by simp) _ _

@[simp] theorem Arith.base8_length (A : Arith α) (x : List (Cpx α)) (off st t : Nat) (y : List (Cpx α)) :
    (A.base8 x off st t y).length = y.length := by simp [Arith.base8]

@[simp] theorem Arith.base16_length (A : Arith α) (x : List (Cpx α)) (off st t : Nat) (y : List (Cpx α)) :
    (A.base16 x off st t y).length = y.length := by simp [Arith.base16]

@[simp] theorem Arith.node_length (A : Arith α) (x : List (Cpx α)) (lg off st t : Nat) (y : List (Cpx α)) :
    (A.node x lg off st t y).length = y.length := by
  induction lg, off, st, t, y using Arith.node.induct A x with
  | case1 lg off st t y y1 y2 ih1 ih2 ih3 => simp only [Arith.node, Arith.combine_length]; rw [ih3, ih2, ih1]
  | case2 => simp [Arith.node]
  | case3 => simp [Arith.node]
  | case4 => simp [Arith.node]
  | case5 => simp [Arith.node]
  | case6 => simp [Arith.node]

@[simp] theorem Arith.fwd_length (A : Arith α) (lg : Nat) (x : List (Cpx α)) : (A.fwd lg x).length = 2 ^ lg := by
  simp [Arith.fwd]

@[simp] theorem Arith.invPost_length (A : Arith α) (lg : Nat) (y : List (Cpx α)) :
    (A.invPost lg y).length = y.length := by
  simp only [Arith.invPost]
  rw [foldl_length (by simp)]
  simp

@[simp] theorem Arith.inverse_length (A : Arith α) (lg : Nat) (x : List (Cpx α)) :
    (A.inverse lg x).length = 2 ^ lg := by simp [Arith.inverse]

@[simp] theorem Arith.padded_length (A : Arith α) (n : Nat) (v : List α) : (A.padded n v).length = n := by
  simp [Arith.padded]

@[simp] theorem Arith.kernelSpectrum_length (A : Arith α) (lg : Nat) (v : List α) :
    (A.kernelSpectrum lg v).length = 2 ^ lg := by simp [Arith.kernelSpectrum]

@[simp] theorem Arith.olaBlock_length (A : Arith α) (lg : Nat) (z : List (Cpx α)) (v : List α) :
    (A.olaBlock lg z v).length = 2 ^ lg := by simp [Arith.olaBlock]

/-! ## Closure -/

/-- A predicate that every primitive and constant of the arithmetic keeps. -/
structure Arith.Closed (A : Arith α) (P : α → Prop) : Prop where
  add : ∀ a b, P a → P b → P (A.add a b)
  sub : ∀ a b, P a → P b → P (A.sub a b)
  mul : ∀ a b, P a → P b → P (A.mul a b)
  neg : ∀ a, P a → P (A.neg a)
  zero : P A.zero
  h : P A.h
  tab : ∀ t lg i, P (A.tab t lg i)
  scale : ∀ lg, P (A.scale lg)

/-- A predicate of both components of a complex value. -/
abbrev Cpx.Both (P : α → Prop) (z : Cpx α) : Prop := P z.re ∧ P z.im

/-- A predicate of both components of every element. -/
abbrev AllBoth (P : α → Prop) (y : List (Cpx α)) : Prop := ∀ z ∈ y, z.Both P

variable {A : Arith α} {P : α → Prop}

theorem Arith.Closed.at (hA : A.Closed P) {y : List (Cpx α)} (hy : AllBoth P y) (j : Nat) : (A.at y j).Both P := by
  unfold Arith.at
  rw [List.getD_eq_getElem?_getD]
  cases h : y[j]? with
  | none => exact ⟨hA.zero, hA.zero⟩
  | some z => exact hy z (List.mem_of_getElem? h)

theorem AllBoth.set {y : List (Cpx α)} (hy : AllBoth P y) (j : Nat) {z : Cpx α} (hz : z.Both P) :
    AllBoth P (y.set j z) := fun w hw => (List.mem_or_eq_of_mem_set hw).elim (hy w) (fun h => h ▸ hz)

theorem AllBoth.foldl {f : List (Cpx α) → Nat → List (Cpx α)} (hf : ∀ y k, AllBoth P y → AllBoth P (f y k))
    (l : List Nat) {y : List (Cpx α)} (hy : AllBoth P y) : AllBoth P (l.foldl f y) := by
  induction l generalizing y with
  | nil => exact hy
  | cons k l ih => exact ih (hf y k hy)

theorem Arith.Closed.cadd (hA : A.Closed P) {a b : Cpx α} (ha : a.Both P) (hb : b.Both P) : (A.cadd a b).Both P :=
  ⟨hA.add _ _ ha.1 hb.1, hA.add _ _ ha.2 hb.2⟩

theorem Arith.Closed.csub (hA : A.Closed P) {a b : Cpx α} (ha : a.Both P) (hb : b.Both P) : (A.csub a b).Both P :=
  ⟨hA.sub _ _ ha.1 hb.1, hA.sub _ _ ha.2 hb.2⟩

theorem Arith.Closed.csubI (hA : A.Closed P) {a b : Cpx α} (ha : a.Both P) (hb : b.Both P) :
    (A.csubI a b).Both P := ⟨hA.add _ _ ha.1 hb.2, hA.sub _ _ ha.2 hb.1⟩

theorem Arith.Closed.caddI (hA : A.Closed P) {a b : Cpx α} (ha : a.Both P) (hb : b.Both P) :
    (A.caddI a b).Both P := ⟨hA.sub _ _ ha.1 hb.2, hA.add _ _ ha.2 hb.1⟩

theorem Arith.Closed.cmul (hA : A.Closed P) {a b : Cpx α} (ha : a.Both P) (hb : b.Both P) : (A.cmul a b).Both P :=
  ⟨hA.sub _ _ (hA.mul _ _ ha.1 hb.1) (hA.mul _ _ ha.2 hb.2), hA.add _ _ (hA.mul _ _ ha.1 hb.2) (hA.mul _ _ ha.2 hb.1)⟩

theorem Arith.Closed.rotate (hA : A.Closed P) (lg k : Nat) {z1 z3 : Cpx α} (h1 : z1.Both P) (h3 : z3.Both P) :
    (A.rotate lg k z1 z3).1.Both P ∧ (A.rotate lg k z1 z3).2.Both P := by
  have tw : (A.twiddle lg k).1.Both P ∧ (A.twiddle lg k).2.Both P := by
    unfold Arith.twiddle
    split
    · exact ⟨⟨hA.tab _ _ _, hA.tab _ _ _⟩, ⟨hA.tab _ _ _, hA.tab _ _ _⟩⟩
    · exact ⟨⟨hA.neg _ (hA.tab _ _ _), hA.neg _ (hA.tab _ _ _)⟩, ⟨hA.tab _ _ _, hA.tab _ _ _⟩⟩
  unfold Arith.rotate
  split
  · exact ⟨h1, h3⟩
  · split
    · exact ⟨⟨hA.mul _ _ hA.h (hA.add _ _ h1.1 h1.2), hA.mul _ _ hA.h (hA.sub _ _ h1.2 h1.1)⟩,
        ⟨hA.mul _ _ hA.h (hA.sub _ _ h3.2 h3.1), hA.neg _ (hA.mul _ _ hA.h (hA.add _ _ h3.1 h3.2))⟩⟩
    · exact ⟨hA.cmul tw.1 h1, hA.cmul tw.2 h3⟩

theorem Arith.Closed.dft2 (hA : A.Closed P) {x : List (Cpx α)} (hx : AllBoth P x) (off st t : Nat)
    {y : List (Cpx α)} (hy : AllBoth P y) : AllBoth P (A.dft2 x off st t y) :=
  (hy.set _ (hA.cadd (hA.at hx _) (hA.at hx _))).set _ (hA.csub (hA.at hx _) (hA.at hx _))

theorem Arith.Closed.dft4 (hA : A.Closed P) {x : List (Cpx α)} (hx : AllBoth P x) (off st t : Nat)
    {y : List (Cpx α)} (hy : AllBoth P y) : AllBoth P (A.dft4 x off st t y) := by
  have t0 := hA.cadd (hA.at hx off) (hA.at hx (off + 2 * st))
  have t1 := hA.csub (hA.at hx off) (hA.at hx (off + 2 * st))
  have t2 := hA.cadd (hA.at hx (off + st)) (hA.at hx (off + 3 * st))
  have t3 := hA.csub (hA.at hx (off + st)) (hA.at hx (off + 3 * st))
  exact (((hy.set _ (hA.cadd t0 t2)).set _ (hA.csubI t1 t3)).set _ (hA.csub t0 t2)).set _ (hA.caddI t1 t3)

theorem Arith.Closed.butterfly (hA : A.Closed P) (lg t q : Nat) (y : List (Cpx α)) (k : Nat) (hy : AllBoth P y) :
    AllBoth P (A.butterfly lg t q y k) := by
  have zz := hA.rotate lg k (hA.at hy (t + 2 * q + k)) (hA.at hy (t + 3 * q + k))
  have s := hA.cadd zz.1 zz.2
  have d := hA.csub zz.1 zz.2
  exact (((hy.set _ (hA.cadd (hA.at hy _) s)).set _ (hA.csub (hA.at hy _) s)).set _
    (hA.csubI (hA.at hy _) d)).set _ (hA.caddI (hA.at hy _) d)

theorem Arith.Closed.combine (hA : A.Closed P) (lg t : Nat) {y : List (Cpx α)} (hy : AllBoth P y) :
    AllBoth P (A.combine lg t y) := AllBoth.foldl (hA.butterfly lg t _) _ hy

theorem Arith.Closed.base8 (hA : A.Closed P) {x : List (Cpx α)} (hx : AllBoth P x) (off st t : Nat)
    {y : List (Cpx α)} (hy : AllBoth P y) : AllBoth P (A.base8 x off st t y) :=
  hA.combine _ _ (hA.dft2 hx _ _ _ (hA.dft2 hx _ _ _ (hA.dft4 hx _ _ _ hy)))

theorem Arith.Closed.base16 (hA : A.Closed P) {x : List (Cpx α)} (hx : AllBoth P x) (off st t : Nat)
    {y : List (Cpx α)} (hy : AllBoth P y) : AllBoth P (A.base16 x off st t y) :=
  hA.combine _ _ (hA.dft4 hx _ _ _ (hA.dft4 hx _ _ _ (hA.base8 hx _ _ _ hy)))

theorem Arith.Closed.node (hA : A.Closed P) {x : List (Cpx α)} (hx : AllBoth P x) (lg off st t : Nat)
    (y : List (Cpx α)) (hy : AllBoth P y) : AllBoth P (A.node x lg off st t y) := by
  induction lg, off, st, t, y using Arith.node.induct A x with
  | case1 lg off st t y y1 y2 ih1 ih2 ih3 => exact hA.combine _ _ (ih3 (ih2 (ih1 hy)))
  | case2 off st t y => exact hA.base16 hx _ _ _ hy
  | case3 off st t y => exact hA.base8 hx _ _ _ hy
  | case4 => exact hy
  | case5 => exact hy
  | case6 => exact hy

theorem Arith.Closed.fwd (hA : A.Closed P) (lg : Nat) {x : List (Cpx α)} (hx : AllBoth P x) :
    AllBoth P (A.fwd lg x) :=
  hA.node hx _ _ _ _ _ fun z hz => by rw [List.eq_of_mem_replicate hz]; exact ⟨hA.zero, hA.zero⟩

theorem Arith.Closed.cscale (hA : A.Closed P) (lg : Nat) {z : Cpx α} (hz : z.Both P) :
    (A.cscale (A.scale lg) z).Both P := ⟨hA.mul _ _ hz.1 (hA.scale lg), hA.mul _ _ hz.2 (hA.scale lg)⟩

theorem Arith.Closed.invPair (hA : A.Closed P) (lg : Nat) (y : List (Cpx α)) (i : Nat) (hy : AllBoth P y) :
    AllBoth P (A.invPair lg y i) :=
  (hy.set _ (hA.cscale lg (hA.at hy _))).set _ (hA.cscale lg (hA.at hy _))

theorem Arith.Closed.invPost (hA : A.Closed P) (lg : Nat) {y : List (Cpx α)} (hy : AllBoth P y) :
    AllBoth P (A.invPost lg y) := by
  have h0 := hy.set 0 (hA.cscale lg (hA.at hy 0))
  exact AllBoth.foldl (hA.invPair lg) _ (h0.set _ (hA.cscale lg (hA.at h0 _)))

theorem Arith.Closed.inverse (hA : A.Closed P) (lg : Nat) {x : List (Cpx α)} (hx : AllBoth P x) :
    AllBoth P (A.inverse lg x) := hA.invPost lg (hA.fwd lg hx)

/-! ## The results of the PREC primitives are W-bit patterns -/

/-- A W-bit pattern of the format (R9). -/
abbrev Fits (p : Prec) (v : Sample) : Prop := v.toNat < 2 ^ p.width

theorem pack_fits (p : Prec) (g : Bool) {n : Nat} (h : n < signWeight p) : Fits p (pack p g n) := by
  cases p <;> cases g <;>
    simp only [Fits, pack, signWeight, Prec.width, if_true, if_false, Bool.false_eq_true, BitVec.toNat_ofNat] at h ⊢ <;>
    omega

theorem infBits_lt (p : Prec) : infBits p < signWeight p := by cases p <;> decide

theorem roundMag_le (p : Prec) (n k : Nat) : roundMag p n k ≤ infBits p := Nat.min_le_left _ _

theorem qNaN_fits (p : Prec) : Fits p (qNaN p) := by cases p <;> decide

theorem fadd_fits (p : Prec) (a b : Sample) : Fits p (fadd p a b) := by
  unfold fadd
  split
  · exact qNaN_fits p
  · split
    · split
      · exact qNaN_fits p
      · exact pack_fits p _ (infBits_lt p)
    · split
      · exact pack_fits p _ (infBits_lt p)
      · unfold faddFinite
        dsimp only
        split
        · exact pack_fits p _ (by cases p <;> decide)
        · exact pack_fits p _ (lt_of_le_of_lt (roundMag_le p _ _) (infBits_lt p))

theorem fmul_fits (p : Prec) (a b : Sample) : Fits p (fmul p a b) := by
  unfold fmul
  dsimp only
  split
  · exact qNaN_fits p
  · split
    · split
      · exact qNaN_fits p
      · exact pack_fits p _ (infBits_lt p)
    · exact pack_fits p _ (lt_of_le_of_lt (roundMag_le p _ _) (infBits_lt p))

theorem fneg_fits (p : Prec) {a : Sample} (h : Fits p a) : Fits p (fneg p a) := by
  simp only [Fits, fneg, BitVec.toNat_xor] at h ⊢
  exact Nat.xor_lt_two_pow h (by cases p <;> decide)

theorem rom_fits (b : Build) (t j : Nat) : Fits b.prec (rom b t j) := by
  have key : ∀ g n, Fits b.prec (roundFix b.prec g n) := by
    intro g n
    unfold roundFix
    split
    · cases b.prec <;> decide
    · exact pack_fits _ _ (lt_of_le_of_lt (roundMag_le _ _ _) (infBits_lt _))
  have hc : ∀ r, Fits b.prec (cosTurn b.prec b.log2nMax r) := by
    intro r; unfold cosTurn; repeat' split
    all_goals exact key _ _
  have hs : ∀ r, Fits b.prec (negSinTurn b.prec b.log2nMax r) := by
    intro r; unfold negSinTurn; repeat' split
    all_goals exact key _ _
  unfold rom
  split
  · exact hc _
  · exact hc _
  · exact hs _
  · exact hs _

theorem scale_fits (p : Prec) (lg : Nat) : Fits p (scale p lg) := by
  cases p <;> simp only [Fits, scale, expBias, fracBits, Prec.width, BitVec.toNat_ofNat] <;> omega

/-- The primitives of a build keep to W-bit patterns. -/
theorem arithOf_closed (b : Build) : (arithOf b).Closed (Fits b.prec) where
  add a c _ _ := fadd_fits b.prec a c
  sub a c _ _ := fadd_fits b.prec a _
  mul a c _ _ := fmul_fits b.prec a c
  neg a h := fneg_fits b.prec h
  zero := by
    show Fits b.prec plusZero
    cases b.prec <;> decide
  h := by
    show Fits b.prec (constH b.prec)
    cases b.prec <;> decide
  tab t lg i := rom_fits b t _
  scale lg := scale_fits b.prec lg

end Sys2Proof.Machine
end

