-- ==== Sys2Proof/Laws/Memory.lean ====
section
/-!
SUPPORT. The laws of the bank memory: a byte read after a write, the canonical form, words and samples.
-/
namespace Sys2Proof.Machine

/-! ## One byte -/

@[simp] theorem Memory.get_put_same (m : Memory) (a : Nat) (v : Byte) :
    Memory.get (Memory.put m a v) a = some v := by
  induction m with
  | nil => simp [Memory.put, Memory.get]
  | cons c t ih =>
    unfold Memory.put
    split
    · simp [Memory.get]
    · split
      · simp [Memory.get]
      · rename_i _ h
        simp [Memory.get, h, ih]

theorem Memory.get_put_ne (m : Memory) {a b : Nat} (v : Byte) (h : b ≠ a) :
    Memory.get (Memory.put m a v) b = Memory.get m b := by
  induction m with
  | nil => simp [Memory.put, Memory.get, Ne.symm h]
  | cons c t ih =>
    unfold Memory.put
    split
    · simp [Memory.get, Ne.symm h]
    · split
      · rename_i _ hc
        have : c.1 ≠ b := by omega
        simp [Memory.get, Ne.symm h, this]
      · simp [Memory.get, ih]

/-- Every address listed after a write was listed before it or is the one written. -/
theorem Memory.addr_of_mem_put {m : Memory} {a : Nat} {v : Byte} {c : Host.Cell}
    (h : c ∈ Memory.put m a v) : c ∈ m ∨ c = (a, v) := by
  induction m with
  | nil => simpa [Memory.put] using h
  | cons d t ih =>
    unfold Memory.put at h
    split at h
    · simp only [List.mem_cons] at h ⊢; tauto
    · split at h
      · simp only [List.mem_cons] at h ⊢; tauto
      · simp only [List.mem_cons] at h ⊢
        rcases h with h | h
        · tauto
        · have := ih h; tauto

/-- A write keeps the canonical form. -/
theorem Memory.wf_put {m : Memory} (a : Nat) (v : Byte) (h : Memory.wf m) : Memory.wf (Memory.put m a v) := by
  induction m with
  | nil => simp [Memory.put, Memory.wf]
  | cons c t ih =>
    simp only [Memory.wf, List.map_cons, List.pairwise_cons, List.mem_map, forall_exists_index, and_imp,
      forall_apply_eq_imp_iff₂] at h ih
    unfold Memory.put
    split
    · rename_i hlt
      simp only [Memory.wf, List.map_cons, List.pairwise_cons, List.mem_cons, List.mem_map]
      refine ⟨?_, ?_, h.2⟩
      · rintro b (rfl | ⟨d, hd, rfl⟩)
        · exact hlt
        · exact hlt.trans (h.1 d hd)
      · rintro b ⟨d, hd, rfl⟩
        exact h.1 d hd
    · split
      · rename_i _ heq
        subst heq
        simp only [Memory.wf, List.map_cons, List.pairwise_cons, List.mem_map, forall_exists_index, and_imp,
          forall_apply_eq_imp_iff₂]
        exact h
      · rename_i hnlt hne
        simp only [Memory.wf, List.map_cons, List.pairwise_cons, List.mem_map, forall_exists_index, and_imp,
          forall_apply_eq_imp_iff₂]
        refine ⟨fun d hd => ?_, ih h.2⟩
        rcases Memory.addr_of_mem_put hd with hd | rfl
        · exact h.1 d hd
        · simp only; omega

/-! ## Bytes of a number -/

theorem joinBytes_congr {f g : Nat → Byte} {n : Nat} (h : ∀ k < n, f k = g k) :
    joinBytes f n = joinBytes g n := by
  induction n with
  | zero => rfl
  | succ n ih => simp only [joinBytes, h n (Nat.lt_succ_self n), ih fun k hk => h k (Nat.lt_succ_of_lt hk)]

/-- The n low bytes of a number, joined, are the number modulo 2^(8n) (R87, R88). -/
theorem joinBytes_byteOf (v n : Nat) : joinBytes (byteOf v) n = v % 256 ^ n := by
  induction n with
  | zero => simp [joinBytes, Nat.mod_one]
  | succ n ih =>
    have h : v % (256 ^ n * 256) = v % 256 ^ n + 256 ^ n * (v / 256 ^ n % 256) := Nat.mod_mul
    simp only [joinBytes, ih, byteOf, BitVec.toNat_ofNat]
    rw [pow_succ 256 n, h, Nat.mul_comm (256 ^ n) (v / 256 ^ n % 256)]

theorem joinBytes_lt (f : Nat → Byte) (n : Nat) : joinBytes f n < 256 ^ n := by
  induction n with
  | zero => simp [joinBytes]
  | succ n ih =>
    have := (f n).isLt
    have h : (f n).toNat * 256 ^ n ≤ 255 * 256 ^ n := Nat.mul_le_mul_right _ (by omega)
    simp only [joinBytes, pow_succ]
    omega

theorem Memory.get_putBytes_in (m : Memory) (a v n k : Nat) (h : k < n) :
    Memory.get (Memory.putBytes m a v n) (a + k) = some (byteOf v k) := by
  induction n with
  | zero => omega
  | succ n ih =>
    simp only [Memory.putBytes]
    by_cases hk : k = n
    · subst hk; simp
    · rw [Memory.get_put_ne _ _ (by omega), ih (by omega)]

theorem Memory.get_putBytes_out (m : Memory) (a v n : Nat) {b : Nat} (h : b < a ∨ a + n ≤ b) :
    Memory.get (Memory.putBytes m a v n) b = Memory.get m b := by
  induction n with
  | zero => rfl
  | succ n ih =>
    simp only [Memory.putBytes]
    rw [Memory.get_put_ne _ _ (by omega), ih (by omega)]

theorem Memory.wf_putBytes {m : Memory} (a v n : Nat) (h : Memory.wf m) : Memory.wf (Memory.putBytes m a v n) := by
  induction n with
  | zero => exact h
  | succ n ih => exact Memory.wf_put _ _ ih

theorem Memory.addr_of_mem_putBytes {m : Memory} {a v n : Nat} {c : Host.Cell}
    (h : c ∈ Memory.putBytes m a v n) : c ∈ m ∨ (a ≤ c.1 ∧ c.1 < a + n) := by
  induction n with
  | zero => exact .inl h
  | succ n ih =>
    rcases Memory.addr_of_mem_put h with h | rfl
    · rcases ih h with h | h
      · exact .inl h
      · exact .inr (by omega)
    · exact .inr (by simp)

/-! ## Bytes, words and samples of a state -/

theorem State.byte_storeBytes_in (s : State) (a v n k : Nat) (h : k < n) :
    (s.storeBytes a v n).byte (a + k) = byteOf v k := by
  simp [State.byte, State.storeBytes, Memory.get_putBytes_in _ _ _ _ _ h]

theorem State.byte_storeBytes_out (s : State) (a v n : Nat) {b : Nat} (h : b < a ∨ a + n ≤ b) :
    (s.storeBytes a v n).byte b = s.byte b := by
  simp [State.byte, State.storeBytes, Memory.get_putBytes_out _ _ _ _ h]

/-- A sample read back after it was written is the value written, as a W-bit pattern (R54, R84). -/
theorem State.sample_setSample_same (s : State) (bank j : Nat) (v : Sample) :
    (s.setSample bank j v).sample bank j = BitVec.ofNat 64 (v.toNat % 256 ^ s.build.wb) := by
  have h : joinBytes (fun k => (s.setSample bank j v).byte (sampleAddr s.build bank j + k)) s.build.wb =
      joinBytes (byteOf v.toNat) s.build.wb :=
    joinBytes_congr fun k hk => State.byte_storeBytes_in _ _ _ _ _ hk
  calc (s.setSample bank j v).sample bank j
      = BitVec.ofNat 64
          (joinBytes (fun k => (s.setSample bank j v).byte (sampleAddr s.build bank j + k)) s.build.wb) := rfl
    _ = _ := by rw [h, joinBytes_byteOf]

/-- Writing a sample leaves every byte outside it alone. -/
theorem State.byte_setSample_out (s : State) (bank j : Nat) (v : Sample) {a : Nat}
    (h : a < sampleAddr s.build bank j ∨ sampleAddr s.build bank j + s.build.wb ≤ a) :
    (s.setSample bank j v).byte a = s.byte a :=
  State.byte_storeBytes_out _ _ _ _ h

/-- Consecutive samples of a bank lie WB bytes apart (R84). -/
theorem sampleAddr_add (b : Build) (bank j k : Nat) :
    sampleAddr b bank (j + k) = sampleAddr b bank j + k * b.wb := by
  simp only [sampleAddr]; ring

/-- Two samples of populated banks are the same one, or their bytes are disjoint (R84). -/
theorem sampleAddr_disjoint (b : Build) {b1 j1 b2 j2 : Nat} (h1 : j1 < b.nmax) (h2 : j2 < b.nmax)
    (h : b1 ≠ b2 ∨ j1 ≠ j2) :
    sampleAddr b b1 j1 + b.wb ≤ sampleAddr b b2 j2 ∨ sampleAddr b b2 j2 + b.wb ≤ sampleAddr b b1 j1 := by
  have key : b1 * b.nmax + j1 < b2 * b.nmax + j2 ∨ b2 * b.nmax + j2 < b1 * b.nmax + j1 := by
    rcases Nat.lt_trichotomy b1 b2 with hb | hb | hb
    · left
      have : (b1 + 1) * b.nmax ≤ b2 * b.nmax := Nat.mul_le_mul_right _ hb
      rw [Nat.add_mul] at this
      omega
    · subst hb
      have : j1 ≠ j2 := by tauto
      omega
    · right
      have : (b2 + 1) * b.nmax ≤ b1 * b.nmax := Nat.mul_le_mul_right _ hb
      rw [Nat.add_mul] at this
      omega
  simp only [sampleAddr]
  rcases key with key | key
  · left
    have : (b1 * b.nmax + j1 + 1) * b.wb ≤ (b2 * b.nmax + j2) * b.wb := Nat.mul_le_mul_right _ key
    rw [Nat.add_mul] at this
    omega
  · right
    have : (b2 * b.nmax + j2 + 1) * b.wb ≤ (b1 * b.nmax + j1) * b.wb := Nat.mul_le_mul_right _ key
    rw [Nat.add_mul] at this
    omega

/-- Writing one sample leaves every other sample alone. -/
theorem State.sample_setSample_ne (s : State) {b1 j1 b2 j2 : Nat} (v : Sample) (h1 : j1 < s.build.nmax)
    (h2 : j2 < s.build.nmax) (h : b1 ≠ b2 ∨ j1 ≠ j2) :
    (s.setSample b1 j1 v).sample b2 j2 = s.sample b2 j2 := by
  have hd := sampleAddr_disjoint s.build h1 h2 h
  have hk : ∀ k < s.build.wb, (s.setSample b1 j1 v).byte (sampleAddr s.build b2 j2 + k) =
      s.byte (sampleAddr s.build b2 j2 + k) := fun k hk => State.byte_setSample_out _ _ _ _ (by omega)
  calc (s.setSample b1 j1 v).sample b2 j2
      = BitVec.ofNat 64
          (joinBytes (fun k => (s.setSample b1 j1 v).byte (sampleAddr s.build b2 j2 + k)) s.build.wb) := rfl
    _ = _ := by rw [joinBytes_congr hk]; rfl

/-! ## Blocks of samples -/

@[simp] theorem State.storeBytes_build (s : State) (a v n : Nat) : (s.storeBytes a v n).build = s.build := rfl

@[simp] theorem State.setSample_build (s : State) (bank j : Nat) (v : Sample) :
    (s.setSample bank j v).build = s.build := rfl

@[simp] theorem State.setBlock_build (s : State) (bank j0 : Nat) (vs : List Sample) :
    (s.setBlock bank j0 vs).build = s.build := by
  induction vs generalizing s j0 with
  | nil => rfl
  | cons v vs ih => simp [State.setBlock, ih]

/-- Writing a block changes the memory only. -/
theorem State.setBlock_eq (s : State) (bank j0 : Nat) (vs : List Sample) :
    s.setBlock bank j0 vs = { s with mem := (s.setBlock bank j0 vs).mem } := by
  induction vs generalizing s j0 with
  | nil => rfl
  | cons v vs ih =>
    simp only [State.setBlock]
    rw [ih]
    rfl

/-- Writing a block leaves every byte outside its samples alone. -/
theorem State.byte_setBlock_out (s : State) (bank j0 : Nat) (vs : List Sample) {a : Nat}
    (h : a < sampleAddr s.build bank j0 ∨ sampleAddr s.build bank (j0 + vs.length) ≤ a) :
    (s.setBlock bank j0 vs).byte a = s.byte a := by
  induction vs generalizing s j0 with
  | nil => rfl
  | cons v vs ih =>
    have e1 : sampleAddr s.build bank (j0 + (v :: vs).length) =
        sampleAddr s.build bank j0 + (vs.length + 1) * s.build.wb := by
      rw [sampleAddr_add]; simp
    have e2 : sampleAddr s.build bank (j0 + 1) = sampleAddr s.build bank j0 + s.build.wb := by
      rw [sampleAddr_add]; simp
    have e3 : sampleAddr s.build bank (j0 + 1 + vs.length) =
        sampleAddr s.build bank j0 + (vs.length + 1) * s.build.wb := by
      rw [sampleAddr_add, e2]; ring
    have h1 : (vs.length + 1) * s.build.wb = vs.length * s.build.wb + s.build.wb := by ring
    simp only [State.setBlock]
    rw [ih, State.byte_setSample_out]
    · rcases h with h | h
      · exact .inl h
      · right; rw [e1] at h; omega
    · rw [State.setSample_build, e2, e3]
      rcases h with h | h
      · left; omega
      · right; rw [e1] at h; exact h

/-- Writing a block leaves every sample outside it alone. -/
theorem State.sample_setBlock_out (s : State) (bank j0 : Nat) (vs : List Sample) {b2 j2 : Nat}
    (hv : j0 + vs.length ≤ s.build.nmax) (h2 : j2 < s.build.nmax)
    (h : b2 ≠ bank ∨ j2 < j0 ∨ j0 + vs.length ≤ j2) :
    (s.setBlock bank j0 vs).sample b2 j2 = s.sample b2 j2 := by
  induction vs generalizing s j0 with
  | nil => rfl
  | cons v vs ih =>
    simp only [List.length_cons] at hv h
    simp only [State.setBlock]
    rw [ih (s.setSample bank j0 v) (j0 + 1) (by simpa using by omega) (by simpa using h2) (by omega)]
    exact State.sample_setSample_ne _ _ (by omega) h2 (by omega)

/-- A sample of a block read back after the block was written. -/
theorem State.sample_setBlock_in (s : State) (bank j0 : Nat) (vs : List Sample) (k : Nat) (hk : k < vs.length)
    (hv : j0 + vs.length ≤ s.build.nmax) :
    (s.setBlock bank j0 vs).sample bank (j0 + k) = BitVec.ofNat 64 (vs[k].toNat % 256 ^ s.build.wb) := by
  induction vs generalizing s j0 k with
  | nil => simp at hk
  | cons v vs ih =>
    simp only [List.length_cons] at hv hk
    simp only [State.setBlock]
    cases k with
    | zero =>
      rw [State.sample_setBlock_out _ _ _ _ (by simpa using by omega) (by simpa using by omega) (by omega)]
      simpa using State.sample_setSample_same s bank j0 v
    | succ k =>
      have := ih (s.setSample bank j0 v) (j0 + 1) k (by omega) (by simpa using by omega)
      rw [show j0 + (k + 1) = j0 + 1 + k by omega]
      simpa using this

/-- Writing a block keeps the canonical form of the memory. -/
theorem State.wf_setBlock {s : State} (bank j0 : Nat) (vs : List Sample) (h : Memory.wf s.mem) :
    Memory.wf (s.setBlock bank j0 vs).mem := by
  induction vs generalizing s j0 with
  | nil => exact h
  | cons v vs ih => exact ih _ (Memory.wf_putBytes _ _ _ h)

/-- The addresses a block write adds are those of its samples. -/
theorem State.addr_of_mem_setBlock {s : State} {bank j0 : Nat} {vs : List Sample} {c : Host.Cell}
    (h : c ∈ (s.setBlock bank j0 vs).mem) :
    c ∈ s.mem ∨ (sampleAddr s.build bank j0 ≤ c.1 ∧ c.1 < sampleAddr s.build bank (j0 + vs.length)) := by
  induction vs generalizing s j0 with
  | nil => exact .inl h
  | cons v vs ih =>
    have e2 : sampleAddr s.build bank (j0 + 1) = sampleAddr s.build bank j0 + s.build.wb := by
      rw [sampleAddr_add]; simp
    have e3 : sampleAddr s.build bank (j0 + (v :: vs).length) =
        sampleAddr s.build bank (j0 + 1 + vs.length) := by
      congr 1; simp; omega
    have e4 : sampleAddr s.build bank (j0 + 1 + vs.length) =
        sampleAddr s.build bank (j0 + 1) + vs.length * s.build.wb := sampleAddr_add _ _ _ _
    rcases ih h with h | h
    · rcases Memory.addr_of_mem_putBytes h with h | h
      · exact .inl h
      · right; rw [e3, e4]; omega
    · simp only [State.setSample_build] at h
      right; rw [e3]; omega

/-- The first address after a bank of the build lies in the populated part of the DATA region (R82, R83). -/
theorem sampleAddr_bound (b : Build) {bank j : Nat} (hb : bank < b.nbank) (hj : j ≤ b.nmax) :
    sampleAddr b bank j ≤ dataBase + b.nbank * b.nmax * b.wb := by
  have h1 : (bank + 1) * b.nmax ≤ b.nbank * b.nmax := Nat.mul_le_mul_right _ hb
  rw [Nat.add_mul] at h1
  have h2 : (bank * b.nmax + j) * b.wb ≤ b.nbank * b.nmax * b.wb := Nat.mul_le_mul_right _ (by omega)
  simp only [sampleAddr]
  omega

/-- Every sample read is a W-bit pattern (R54). -/
theorem State.sample_fits (s : State) (bank j : Nat) : (s.sample bank j).toNat < 256 ^ s.build.wb := by
  simp only [State.sample, BitVec.toNat_ofNat]
  exact lt_of_le_of_lt (Nat.mod_le _ _) (joinBytes_lt _ _)

end Sys2Proof.Machine
end

