-- ==== Sys2Proof/Laws/State.lean ====
section
/-!
SUPPORT. One lemma per field per update of the state: what each named operation leaves a field at.
-/
namespace Sys2Proof.Machine

/-! ## setCtx: the contexts only -/

@[simp] theorem State.setCtx_build (s : State) (c : Nat) (x : Context) : (s.setCtx c x).build = s.build := rfl
@[simp] theorem State.setCtx_done (s : State) (c : Nat) (x : Context) : (s.setCtx c x).done = s.done := rfl
@[simp] theorem State.setCtx_err (s : State) (c : Nat) (x : Context) : (s.setCtx c x).err = s.err := rfl
@[simp] theorem State.setCtx_errovf (s : State) (c : Nat) (x : Context) : (s.setCtx c x).errovf = s.errovf := rfl
@[simp] theorem State.setCtx_errcode (s : State) (c : Nat) (x : Context) :
    (s.setCtx c x).errcode = s.errcode := rfl
@[simp] theorem State.setCtx_errcmd (s : State) (c : Nat) (x : Context) : (s.setCtx c x).errcmd = s.errcmd := rfl
@[simp] theorem State.setCtx_doneie (s : State) (c : Nat) (x : Context) : (s.setCtx c x).doneie = s.doneie := rfl
@[simp] theorem State.setCtx_errie (s : State) (c : Nat) (x : Context) : (s.setCtx c x).errie = s.errie := rfl
@[simp] theorem State.setCtx_arg0 (s : State) (c : Nat) (x : Context) : (s.setCtx c x).arg0 = s.arg0 := rfl
@[simp] theorem State.setCtx_arg1 (s : State) (c : Nat) (x : Context) : (s.setCtx c x).arg1 = s.arg1 := rfl
@[simp] theorem State.setCtx_seq (s : State) (c : Nat) (x : Context) : (s.setCtx c x).seq = s.seq := rfl
@[simp] theorem State.setCtx_facade (s : State) (c : Nat) (x : Context) : (s.setCtx c x).facade = s.facade := rfl
@[simp] theorem State.setCtx_nodes (s : State) (c : Nat) (x : Context) : (s.setCtx c x).nodes = s.nodes := rfl
@[simp] theorem State.setCtx_mem (s : State) (c : Nat) (x : Context) : (s.setCtx c x).mem = s.mem := rfl
@[simp] theorem State.setCtx_epoch (s : State) (c : Nat) (x : Context) : (s.setCtx c x).epoch = s.epoch := rfl
@[simp] theorem State.setCtx_aborts (s : State) (c : Nat) (x : Context) : (s.setCtx c x).aborts = s.aborts := rfl
@[simp] theorem State.setCtx_bus (s : State) (c : Nat) (x : Context) : (s.setCtx c x).bus = s.bus := rfl
@[simp] theorem State.setCtx_delays (s : State) (c : Nat) (x : Context) : (s.setCtx c x).delays = s.delays := rfl
@[simp] theorem State.setCtx_rdata (s : State) (c : Nat) (x : Context) : (s.setCtx c x).rdata = s.rdata := rfl
@[simp] theorem State.setCtx_ctxs (s : State) (c : Nat) (x : Context) : (s.setCtx c x).ctxs = s.ctxs.set c x := rfl

/-! ## storeBytes, setSample, setBlock: the memory only -/

@[simp] theorem State.storeBytes_done (s : State) (a v n : Nat) : (s.storeBytes a v n).done = s.done := rfl
@[simp] theorem State.storeBytes_err (s : State) (a v n : Nat) : (s.storeBytes a v n).err = s.err := rfl
@[simp] theorem State.storeBytes_errovf (s : State) (a v n : Nat) : (s.storeBytes a v n).errovf = s.errovf := rfl
@[simp] theorem State.storeBytes_errcode (s : State) (a v n : Nat) :
    (s.storeBytes a v n).errcode = s.errcode := rfl
@[simp] theorem State.storeBytes_errcmd (s : State) (a v n : Nat) : (s.storeBytes a v n).errcmd = s.errcmd := rfl
@[simp] theorem State.storeBytes_doneie (s : State) (a v n : Nat) : (s.storeBytes a v n).doneie = s.doneie := rfl
@[simp] theorem State.storeBytes_errie (s : State) (a v n : Nat) : (s.storeBytes a v n).errie = s.errie := rfl
@[simp] theorem State.storeBytes_arg0 (s : State) (a v n : Nat) : (s.storeBytes a v n).arg0 = s.arg0 := rfl
@[simp] theorem State.storeBytes_arg1 (s : State) (a v n : Nat) : (s.storeBytes a v n).arg1 = s.arg1 := rfl
@[simp] theorem State.storeBytes_seq (s : State) (a v n : Nat) : (s.storeBytes a v n).seq = s.seq := rfl
@[simp] theorem State.storeBytes_facade (s : State) (a v n : Nat) : (s.storeBytes a v n).facade = s.facade := rfl
@[simp] theorem State.storeBytes_nodes (s : State) (a v n : Nat) : (s.storeBytes a v n).nodes = s.nodes := rfl
@[simp] theorem State.storeBytes_ctxs (s : State) (a v n : Nat) : (s.storeBytes a v n).ctxs = s.ctxs := rfl
@[simp] theorem State.storeBytes_epoch (s : State) (a v n : Nat) : (s.storeBytes a v n).epoch = s.epoch := rfl
@[simp] theorem State.storeBytes_aborts (s : State) (a v n : Nat) : (s.storeBytes a v n).aborts = s.aborts := rfl
@[simp] theorem State.storeBytes_bus (s : State) (a v n : Nat) : (s.storeBytes a v n).bus = s.bus := rfl
@[simp] theorem State.storeBytes_delays (s : State) (a v n : Nat) : (s.storeBytes a v n).delays = s.delays := rfl
@[simp] theorem State.storeBytes_rdata (s : State) (a v n : Nat) : (s.storeBytes a v n).rdata = s.rdata := rfl
@[simp] theorem State.storeBytes_mem (s : State) (a v n : Nat) :
    (s.storeBytes a v n).mem = Memory.putBytes s.mem a v n := rfl
@[simp] theorem State.setSample_done (s : State) (b j : Nat) (v : Sample) :
    (s.setSample b j v).done = s.done := rfl
@[simp] theorem State.setSample_err (s : State) (b j : Nat) (v : Sample) : (s.setSample b j v).err = s.err := rfl
@[simp] theorem State.setSample_errovf (s : State) (b j : Nat) (v : Sample) :
    (s.setSample b j v).errovf = s.errovf := rfl
@[simp] theorem State.setSample_errcode (s : State) (b j : Nat) (v : Sample) :
    (s.setSample b j v).errcode = s.errcode := rfl
@[simp] theorem State.setSample_errcmd (s : State) (b j : Nat) (v : Sample) :
    (s.setSample b j v).errcmd = s.errcmd := rfl
@[simp] theorem State.setSample_doneie (s : State) (b j : Nat) (v : Sample) :
    (s.setSample b j v).doneie = s.doneie := rfl
@[simp] theorem State.setSample_errie (s : State) (b j : Nat) (v : Sample) :
    (s.setSample b j v).errie = s.errie := rfl
@[simp] theorem State.setSample_arg0 (s : State) (b j : Nat) (v : Sample) :
    (s.setSample b j v).arg0 = s.arg0 := rfl
@[simp] theorem State.setSample_arg1 (s : State) (b j : Nat) (v : Sample) :
    (s.setSample b j v).arg1 = s.arg1 := rfl
@[simp] theorem State.setSample_seq (s : State) (b j : Nat) (v : Sample) : (s.setSample b j v).seq = s.seq := rfl
@[simp] theorem State.setSample_facade (s : State) (b j : Nat) (v : Sample) :
    (s.setSample b j v).facade = s.facade := rfl
@[simp] theorem State.setSample_nodes (s : State) (b j : Nat) (v : Sample) :
    (s.setSample b j v).nodes = s.nodes := rfl
@[simp] theorem State.setSample_ctxs (s : State) (b j : Nat) (v : Sample) :
    (s.setSample b j v).ctxs = s.ctxs := rfl
@[simp] theorem State.setSample_epoch (s : State) (b j : Nat) (v : Sample) :
    (s.setSample b j v).epoch = s.epoch := rfl
@[simp] theorem State.setSample_aborts (s : State) (b j : Nat) (v : Sample) :
    (s.setSample b j v).aborts = s.aborts := rfl
@[simp] theorem State.setSample_bus (s : State) (b j : Nat) (v : Sample) : (s.setSample b j v).bus = s.bus := rfl
@[simp] theorem State.setSample_delays (s : State) (b j : Nat) (v : Sample) :
    (s.setSample b j v).delays = s.delays := rfl
@[simp] theorem State.setSample_rdata (s : State) (b j : Nat) (v : Sample) :
    (s.setSample b j v).rdata = s.rdata := rfl
@[simp] theorem State.setSample_mem (s : State) (b j : Nat) (v : Sample) :
    (s.setSample b j v).mem = Memory.putBytes s.mem (sampleAddr s.build b j) v.toNat s.build.wb := rfl
@[simp] theorem State.setBlock_done (s : State) (b j : Nat) (vs : List Sample) :
    (s.setBlock b j vs).done = s.done := by
  rw [State.setBlock_eq]
@[simp] theorem State.setBlock_err (s : State) (b j : Nat) (vs : List Sample) :
    (s.setBlock b j vs).err = s.err := by
  rw [State.setBlock_eq]
@[simp] theorem State.setBlock_errovf (s : State) (b j : Nat) (vs : List Sample) :
    (s.setBlock b j vs).errovf = s.errovf := by
  rw [State.setBlock_eq]
@[simp] theorem State.setBlock_errcode (s : State) (b j : Nat) (vs : List Sample) :
    (s.setBlock b j vs).errcode = s.errcode := by
  rw [State.setBlock_eq]
@[simp] theorem State.setBlock_errcmd (s : State) (b j : Nat) (vs : List Sample) :
    (s.setBlock b j vs).errcmd = s.errcmd := by
  rw [State.setBlock_eq]
@[simp] theorem State.setBlock_doneie (s : State) (b j : Nat) (vs : List Sample) :
    (s.setBlock b j vs).doneie = s.doneie := by
  rw [State.setBlock_eq]
@[simp] theorem State.setBlock_errie (s : State) (b j : Nat) (vs : List Sample) :
    (s.setBlock b j vs).errie = s.errie := by
  rw [State.setBlock_eq]
@[simp] theorem State.setBlock_arg0 (s : State) (b j : Nat) (vs : List Sample) :
    (s.setBlock b j vs).arg0 = s.arg0 := by
  rw [State.setBlock_eq]
@[simp] theorem State.setBlock_arg1 (s : State) (b j : Nat) (vs : List Sample) :
    (s.setBlock b j vs).arg1 = s.arg1 := by
  rw [State.setBlock_eq]
@[simp] theorem State.setBlock_seq (s : State) (b j : Nat) (vs : List Sample) :
    (s.setBlock b j vs).seq = s.seq := by
  rw [State.setBlock_eq]
@[simp] theorem State.setBlock_facade (s : State) (b j : Nat) (vs : List Sample) :
    (s.setBlock b j vs).facade = s.facade := by
  rw [State.setBlock_eq]
@[simp] theorem State.setBlock_nodes (s : State) (b j : Nat) (vs : List Sample) :
    (s.setBlock b j vs).nodes = s.nodes := by
  rw [State.setBlock_eq]
@[simp] theorem State.setBlock_ctxs (s : State) (b j : Nat) (vs : List Sample) :
    (s.setBlock b j vs).ctxs = s.ctxs := by
  rw [State.setBlock_eq]
@[simp] theorem State.setBlock_epoch (s : State) (b j : Nat) (vs : List Sample) :
    (s.setBlock b j vs).epoch = s.epoch := by
  rw [State.setBlock_eq]
@[simp] theorem State.setBlock_aborts (s : State) (b j : Nat) (vs : List Sample) :
    (s.setBlock b j vs).aborts = s.aborts := by
  rw [State.setBlock_eq]
@[simp] theorem State.setBlock_bus (s : State) (b j : Nat) (vs : List Sample) :
    (s.setBlock b j vs).bus = s.bus := by
  rw [State.setBlock_eq]
@[simp] theorem State.setBlock_delays (s : State) (b j : Nat) (vs : List Sample) :
    (s.setBlock b j vs).delays = s.delays := by
  rw [State.setBlock_eq]
@[simp] theorem State.setBlock_rdata (s : State) (b j : Nat) (vs : List Sample) :
    (s.setBlock b j vs).rdata = s.rdata := by
  rw [State.setBlock_eq]

/-! ## configure and bind: the facade and its node table -/

@[simp] theorem configure_build (lg : Nat) (s : State) : (configure lg s).build = s.build := rfl
@[simp] theorem configure_done (lg : Nat) (s : State) : (configure lg s).done = s.done := rfl
@[simp] theorem configure_err (lg : Nat) (s : State) : (configure lg s).err = s.err := rfl
@[simp] theorem configure_errovf (lg : Nat) (s : State) : (configure lg s).errovf = s.errovf := rfl
@[simp] theorem configure_errcode (lg : Nat) (s : State) : (configure lg s).errcode = s.errcode := rfl
@[simp] theorem configure_errcmd (lg : Nat) (s : State) : (configure lg s).errcmd = s.errcmd := rfl
@[simp] theorem configure_doneie (lg : Nat) (s : State) : (configure lg s).doneie = s.doneie := rfl
@[simp] theorem configure_errie (lg : Nat) (s : State) : (configure lg s).errie = s.errie := rfl
@[simp] theorem configure_arg0 (lg : Nat) (s : State) : (configure lg s).arg0 = s.arg0 := rfl
@[simp] theorem configure_arg1 (lg : Nat) (s : State) : (configure lg s).arg1 = s.arg1 := rfl
@[simp] theorem configure_seq (lg : Nat) (s : State) : (configure lg s).seq = s.seq := rfl
@[simp] theorem configure_ctxs (lg : Nat) (s : State) : (configure lg s).ctxs = s.ctxs := rfl
@[simp] theorem configure_mem (lg : Nat) (s : State) : (configure lg s).mem = s.mem := rfl
@[simp] theorem configure_epoch (lg : Nat) (s : State) : (configure lg s).epoch = s.epoch := rfl
@[simp] theorem configure_aborts (lg : Nat) (s : State) : (configure lg s).aborts = s.aborts := rfl
@[simp] theorem configure_bus (lg : Nat) (s : State) : (configure lg s).bus = s.bus := rfl
@[simp] theorem configure_delays (lg : Nat) (s : State) : (configure lg s).delays = s.delays := rfl
@[simp] theorem configure_rdata (lg : Nat) (s : State) : (configure lg s).rdata = s.rdata := rfl
@[simp] theorem configure_facade (lg : Nat) (s : State) :
    (configure lg s).facade = ⟨true, lg, false, 0, 0, 0, 0⟩ := rfl
@[simp] theorem configure_nodes (lg : Nat) (s : State) : (configure lg s).nodes = buildTable lg 0 1 0 := rfl
@[simp] theorem bind_build (a b c d : Nat) (s : State) : (bind a b c d s).build = s.build := rfl
@[simp] theorem bind_done (a b c d : Nat) (s : State) : (bind a b c d s).done = s.done := rfl
@[simp] theorem bind_err (a b c d : Nat) (s : State) : (bind a b c d s).err = s.err := rfl
@[simp] theorem bind_errovf (a b c d : Nat) (s : State) : (bind a b c d s).errovf = s.errovf := rfl
@[simp] theorem bind_errcode (a b c d : Nat) (s : State) : (bind a b c d s).errcode = s.errcode := rfl
@[simp] theorem bind_errcmd (a b c d : Nat) (s : State) : (bind a b c d s).errcmd = s.errcmd := rfl
@[simp] theorem bind_doneie (a b c d : Nat) (s : State) : (bind a b c d s).doneie = s.doneie := rfl
@[simp] theorem bind_errie (a b c d : Nat) (s : State) : (bind a b c d s).errie = s.errie := rfl
@[simp] theorem bind_arg0 (a b c d : Nat) (s : State) : (bind a b c d s).arg0 = s.arg0 := rfl
@[simp] theorem bind_arg1 (a b c d : Nat) (s : State) : (bind a b c d s).arg1 = s.arg1 := rfl
@[simp] theorem bind_seq (a b c d : Nat) (s : State) : (bind a b c d s).seq = s.seq := rfl
@[simp] theorem bind_nodes (a b c d : Nat) (s : State) : (bind a b c d s).nodes = s.nodes := rfl
@[simp] theorem bind_ctxs (a b c d : Nat) (s : State) : (bind a b c d s).ctxs = s.ctxs := rfl
@[simp] theorem bind_mem (a b c d : Nat) (s : State) : (bind a b c d s).mem = s.mem := rfl
@[simp] theorem bind_epoch (a b c d : Nat) (s : State) : (bind a b c d s).epoch = s.epoch := rfl
@[simp] theorem bind_aborts (a b c d : Nat) (s : State) : (bind a b c d s).aborts = s.aborts := rfl
@[simp] theorem bind_bus (a b c d : Nat) (s : State) : (bind a b c d s).bus = s.bus := rfl
@[simp] theorem bind_delays (a b c d : Nat) (s : State) : (bind a b c d s).delays = s.delays := rfl
@[simp] theorem bind_rdata (a b c d : Nat) (s : State) : (bind a b c d s).rdata = s.rdata := rfl
@[simp] theorem bind_facade (a b c d : Nat) (s : State) :
    (bind a b c d s).facade = ⟨s.facade.configured, s.facade.lg, true, a, b, c, d⟩ := rfl

/-! ## storeDest: the memory only -/

@[simp] theorem storeDest_build (ys : List (Cpx Sample)) (s : State) :
    (storeDest ys s).build = s.build := by
  simp [storeDest]
@[simp] theorem storeDest_done (ys : List (Cpx Sample)) (s : State) :
    (storeDest ys s).done = s.done := by
  simp [storeDest]
@[simp] theorem storeDest_err (ys : List (Cpx Sample)) (s : State) :
    (storeDest ys s).err = s.err := by
  simp [storeDest]
@[simp] theorem storeDest_errovf (ys : List (Cpx Sample)) (s : State) :
    (storeDest ys s).errovf = s.errovf := by
  simp [storeDest]
@[simp] theorem storeDest_errcode (ys : List (Cpx Sample)) (s : State) :
    (storeDest ys s).errcode = s.errcode := by
  simp [storeDest]
@[simp] theorem storeDest_errcmd (ys : List (Cpx Sample)) (s : State) :
    (storeDest ys s).errcmd = s.errcmd := by
  simp [storeDest]
@[simp] theorem storeDest_doneie (ys : List (Cpx Sample)) (s : State) :
    (storeDest ys s).doneie = s.doneie := by
  simp [storeDest]
@[simp] theorem storeDest_errie (ys : List (Cpx Sample)) (s : State) :
    (storeDest ys s).errie = s.errie := by
  simp [storeDest]
@[simp] theorem storeDest_arg0 (ys : List (Cpx Sample)) (s : State) :
    (storeDest ys s).arg0 = s.arg0 := by
  simp [storeDest]
@[simp] theorem storeDest_arg1 (ys : List (Cpx Sample)) (s : State) :
    (storeDest ys s).arg1 = s.arg1 := by
  simp [storeDest]
@[simp] theorem storeDest_seq (ys : List (Cpx Sample)) (s : State) :
    (storeDest ys s).seq = s.seq := by
  simp [storeDest]
@[simp] theorem storeDest_facade (ys : List (Cpx Sample)) (s : State) :
    (storeDest ys s).facade = s.facade := by
  simp [storeDest]
@[simp] theorem storeDest_nodes (ys : List (Cpx Sample)) (s : State) :
    (storeDest ys s).nodes = s.nodes := by
  simp [storeDest]
@[simp] theorem storeDest_ctxs (ys : List (Cpx Sample)) (s : State) :
    (storeDest ys s).ctxs = s.ctxs := by
  simp [storeDest]
@[simp] theorem storeDest_epoch (ys : List (Cpx Sample)) (s : State) :
    (storeDest ys s).epoch = s.epoch := by
  simp [storeDest]
@[simp] theorem storeDest_aborts (ys : List (Cpx Sample)) (s : State) :
    (storeDest ys s).aborts = s.aborts := by
  simp [storeDest]
@[simp] theorem storeDest_bus (ys : List (Cpx Sample)) (s : State) :
    (storeDest ys s).bus = s.bus := by
  simp [storeDest]
@[simp] theorem storeDest_delays (ys : List (Cpx Sample)) (s : State) :
    (storeDest ys s).delays = s.delays := by
  simp [storeDest]
@[simp] theorem storeDest_rdata (ys : List (Cpx Sample)) (s : State) :
    (storeDest ys s).rdata = s.rdata := by
  simp [storeDest]

/-! ## The accumulator and the kernel spectrum: the contexts only -/

@[simp] theorem setAcc_build (c : Nat) (vs : List Sample) (s : State) : (setAcc c vs s).build = s.build := rfl
@[simp] theorem setAcc_done (c : Nat) (vs : List Sample) (s : State) : (setAcc c vs s).done = s.done := rfl
@[simp] theorem setAcc_err (c : Nat) (vs : List Sample) (s : State) : (setAcc c vs s).err = s.err := rfl
@[simp] theorem setAcc_errovf (c : Nat) (vs : List Sample) (s : State) : (setAcc c vs s).errovf = s.errovf := rfl
@[simp] theorem setAcc_errcode (c : Nat) (vs : List Sample) (s : State) :
    (setAcc c vs s).errcode = s.errcode := rfl
@[simp] theorem setAcc_errcmd (c : Nat) (vs : List Sample) (s : State) : (setAcc c vs s).errcmd = s.errcmd := rfl
@[simp] theorem setAcc_doneie (c : Nat) (vs : List Sample) (s : State) : (setAcc c vs s).doneie = s.doneie := rfl
@[simp] theorem setAcc_errie (c : Nat) (vs : List Sample) (s : State) : (setAcc c vs s).errie = s.errie := rfl
@[simp] theorem setAcc_arg0 (c : Nat) (vs : List Sample) (s : State) : (setAcc c vs s).arg0 = s.arg0 := rfl
@[simp] theorem setAcc_arg1 (c : Nat) (vs : List Sample) (s : State) : (setAcc c vs s).arg1 = s.arg1 := rfl
@[simp] theorem setAcc_seq (c : Nat) (vs : List Sample) (s : State) : (setAcc c vs s).seq = s.seq := rfl
@[simp] theorem setAcc_facade (c : Nat) (vs : List Sample) (s : State) : (setAcc c vs s).facade = s.facade := rfl
@[simp] theorem setAcc_nodes (c : Nat) (vs : List Sample) (s : State) : (setAcc c vs s).nodes = s.nodes := rfl
@[simp] theorem setAcc_mem (c : Nat) (vs : List Sample) (s : State) : (setAcc c vs s).mem = s.mem := rfl
@[simp] theorem setAcc_epoch (c : Nat) (vs : List Sample) (s : State) : (setAcc c vs s).epoch = s.epoch := rfl
@[simp] theorem setAcc_aborts (c : Nat) (vs : List Sample) (s : State) : (setAcc c vs s).aborts = s.aborts := rfl
@[simp] theorem setAcc_bus (c : Nat) (vs : List Sample) (s : State) : (setAcc c vs s).bus = s.bus := rfl
@[simp] theorem setAcc_delays (c : Nat) (vs : List Sample) (s : State) : (setAcc c vs s).delays = s.delays := rfl
@[simp] theorem setAcc_rdata (c : Nat) (vs : List Sample) (s : State) : (setAcc c vs s).rdata = s.rdata := rfl
@[simp] theorem clearAcc_build (c : Nat) (s : State) : (clearAcc c s).build = s.build := rfl
@[simp] theorem clearAcc_done (c : Nat) (s : State) : (clearAcc c s).done = s.done := rfl
@[simp] theorem clearAcc_err (c : Nat) (s : State) : (clearAcc c s).err = s.err := rfl
@[simp] theorem clearAcc_errovf (c : Nat) (s : State) : (clearAcc c s).errovf = s.errovf := rfl
@[simp] theorem clearAcc_errcode (c : Nat) (s : State) : (clearAcc c s).errcode = s.errcode := rfl
@[simp] theorem clearAcc_errcmd (c : Nat) (s : State) : (clearAcc c s).errcmd = s.errcmd := rfl
@[simp] theorem clearAcc_doneie (c : Nat) (s : State) : (clearAcc c s).doneie = s.doneie := rfl
@[simp] theorem clearAcc_errie (c : Nat) (s : State) : (clearAcc c s).errie = s.errie := rfl
@[simp] theorem clearAcc_arg0 (c : Nat) (s : State) : (clearAcc c s).arg0 = s.arg0 := rfl
@[simp] theorem clearAcc_arg1 (c : Nat) (s : State) : (clearAcc c s).arg1 = s.arg1 := rfl
@[simp] theorem clearAcc_seq (c : Nat) (s : State) : (clearAcc c s).seq = s.seq := rfl
@[simp] theorem clearAcc_facade (c : Nat) (s : State) : (clearAcc c s).facade = s.facade := rfl
@[simp] theorem clearAcc_nodes (c : Nat) (s : State) : (clearAcc c s).nodes = s.nodes := rfl
@[simp] theorem clearAcc_mem (c : Nat) (s : State) : (clearAcc c s).mem = s.mem := rfl
@[simp] theorem clearAcc_epoch (c : Nat) (s : State) : (clearAcc c s).epoch = s.epoch := rfl
@[simp] theorem clearAcc_aborts (c : Nat) (s : State) : (clearAcc c s).aborts = s.aborts := rfl
@[simp] theorem clearAcc_bus (c : Nat) (s : State) : (clearAcc c s).bus = s.bus := rfl
@[simp] theorem clearAcc_delays (c : Nat) (s : State) : (clearAcc c s).delays = s.delays := rfl
@[simp] theorem clearAcc_rdata (c : Nat) (s : State) : (clearAcc c s).rdata = s.rdata := rfl
@[simp] theorem kspec_build (c kb : Nat) (s : State) : (kspec c kb s).build = s.build := rfl
@[simp] theorem kspec_done (c kb : Nat) (s : State) : (kspec c kb s).done = s.done := rfl
@[simp] theorem kspec_err (c kb : Nat) (s : State) : (kspec c kb s).err = s.err := rfl
@[simp] theorem kspec_errovf (c kb : Nat) (s : State) : (kspec c kb s).errovf = s.errovf := rfl
@[simp] theorem kspec_errcode (c kb : Nat) (s : State) : (kspec c kb s).errcode = s.errcode := rfl
@[simp] theorem kspec_errcmd (c kb : Nat) (s : State) : (kspec c kb s).errcmd = s.errcmd := rfl
@[simp] theorem kspec_doneie (c kb : Nat) (s : State) : (kspec c kb s).doneie = s.doneie := rfl
@[simp] theorem kspec_errie (c kb : Nat) (s : State) : (kspec c kb s).errie = s.errie := rfl
@[simp] theorem kspec_arg0 (c kb : Nat) (s : State) : (kspec c kb s).arg0 = s.arg0 := rfl
@[simp] theorem kspec_arg1 (c kb : Nat) (s : State) : (kspec c kb s).arg1 = s.arg1 := rfl
@[simp] theorem kspec_seq (c kb : Nat) (s : State) : (kspec c kb s).seq = s.seq := rfl
@[simp] theorem kspec_facade (c kb : Nat) (s : State) : (kspec c kb s).facade = s.facade := rfl
@[simp] theorem kspec_nodes (c kb : Nat) (s : State) : (kspec c kb s).nodes = s.nodes := rfl
@[simp] theorem kspec_mem (c kb : Nat) (s : State) : (kspec c kb s).mem = s.mem := rfl
@[simp] theorem kspec_epoch (c kb : Nat) (s : State) : (kspec c kb s).epoch = s.epoch := rfl
@[simp] theorem kspec_aborts (c kb : Nat) (s : State) : (kspec c kb s).aborts = s.aborts := rfl
@[simp] theorem kspec_bus (c kb : Nat) (s : State) : (kspec c kb s).bus = s.bus := rfl
@[simp] theorem kspec_delays (c kb : Nat) (s : State) : (kspec c kb s).delays = s.delays := rfl
@[simp] theorem kspec_rdata (c kb : Nat) (s : State) : (kspec c kb s).rdata = s.rdata := rfl
@[simp] theorem configureContext_build (c kb : Nat) (st : ContextKind) (m l b lg : Nat) (s : State) :
    (configureContext c kb st m l b lg s).build = s.build := rfl
@[simp] theorem configureContext_done (c kb : Nat) (st : ContextKind) (m l b lg : Nat) (s : State) :
    (configureContext c kb st m l b lg s).done = s.done := rfl
@[simp] theorem configureContext_err (c kb : Nat) (st : ContextKind) (m l b lg : Nat) (s : State) :
    (configureContext c kb st m l b lg s).err = s.err := rfl
@[simp] theorem configureContext_errovf (c kb : Nat) (st : ContextKind) (m l b lg : Nat) (s : State) :
    (configureContext c kb st m l b lg s).errovf = s.errovf := rfl
@[simp] theorem configureContext_errcode (c kb : Nat) (st : ContextKind) (m l b lg : Nat) (s : State) :
    (configureContext c kb st m l b lg s).errcode = s.errcode := rfl
@[simp] theorem configureContext_errcmd (c kb : Nat) (st : ContextKind) (m l b lg : Nat) (s : State) :
    (configureContext c kb st m l b lg s).errcmd = s.errcmd := rfl
@[simp] theorem configureContext_doneie (c kb : Nat) (st : ContextKind) (m l b lg : Nat) (s : State) :
    (configureContext c kb st m l b lg s).doneie = s.doneie := rfl
@[simp] theorem configureContext_errie (c kb : Nat) (st : ContextKind) (m l b lg : Nat) (s : State) :
    (configureContext c kb st m l b lg s).errie = s.errie := rfl
@[simp] theorem configureContext_arg0 (c kb : Nat) (st : ContextKind) (m l b lg : Nat) (s : State) :
    (configureContext c kb st m l b lg s).arg0 = s.arg0 := rfl
@[simp] theorem configureContext_arg1 (c kb : Nat) (st : ContextKind) (m l b lg : Nat) (s : State) :
    (configureContext c kb st m l b lg s).arg1 = s.arg1 := rfl
@[simp] theorem configureContext_seq (c kb : Nat) (st : ContextKind) (m l b lg : Nat) (s : State) :
    (configureContext c kb st m l b lg s).seq = s.seq := rfl
@[simp] theorem configureContext_facade (c kb : Nat) (st : ContextKind) (m l b lg : Nat) (s : State) :
    (configureContext c kb st m l b lg s).facade = s.facade := rfl
@[simp] theorem configureContext_nodes (c kb : Nat) (st : ContextKind) (m l b lg : Nat) (s : State) :
    (configureContext c kb st m l b lg s).nodes = s.nodes := rfl
@[simp] theorem configureContext_mem (c kb : Nat) (st : ContextKind) (m l b lg : Nat) (s : State) :
    (configureContext c kb st m l b lg s).mem = s.mem := rfl
@[simp] theorem configureContext_epoch (c kb : Nat) (st : ContextKind) (m l b lg : Nat) (s : State) :
    (configureContext c kb st m l b lg s).epoch = s.epoch := rfl
@[simp] theorem configureContext_aborts (c kb : Nat) (st : ContextKind) (m l b lg : Nat) (s : State) :
    (configureContext c kb st m l b lg s).aborts = s.aborts := rfl
@[simp] theorem configureContext_bus (c kb : Nat) (st : ContextKind) (m l b lg : Nat) (s : State) :
    (configureContext c kb st m l b lg s).bus = s.bus := rfl
@[simp] theorem configureContext_delays (c kb : Nat) (st : ContextKind) (m l b lg : Nat) (s : State) :
    (configureContext c kb st m l b lg s).delays = s.delays := rfl
@[simp] theorem configureContext_rdata (c kb : Nat) (st : ContextKind) (m l b lg : Nat) (s : State) :
    (configureContext c kb st m l b lg s).rdata = s.rdata := rfl
@[simp] theorem olaStep_build (c ib io : Nat) (s : State) : (olaStep c ib io s).build = s.build := rfl
@[simp] theorem olaStep_done (c ib io : Nat) (s : State) : (olaStep c ib io s).done = s.done := rfl
@[simp] theorem olaStep_err (c ib io : Nat) (s : State) : (olaStep c ib io s).err = s.err := rfl
@[simp] theorem olaStep_errovf (c ib io : Nat) (s : State) : (olaStep c ib io s).errovf = s.errovf := rfl
@[simp] theorem olaStep_errcode (c ib io : Nat) (s : State) : (olaStep c ib io s).errcode = s.errcode := rfl
@[simp] theorem olaStep_errcmd (c ib io : Nat) (s : State) : (olaStep c ib io s).errcmd = s.errcmd := rfl
@[simp] theorem olaStep_doneie (c ib io : Nat) (s : State) : (olaStep c ib io s).doneie = s.doneie := rfl
@[simp] theorem olaStep_errie (c ib io : Nat) (s : State) : (olaStep c ib io s).errie = s.errie := rfl
@[simp] theorem olaStep_arg0 (c ib io : Nat) (s : State) : (olaStep c ib io s).arg0 = s.arg0 := rfl
@[simp] theorem olaStep_arg1 (c ib io : Nat) (s : State) : (olaStep c ib io s).arg1 = s.arg1 := rfl
@[simp] theorem olaStep_seq (c ib io : Nat) (s : State) : (olaStep c ib io s).seq = s.seq := rfl
@[simp] theorem olaStep_facade (c ib io : Nat) (s : State) : (olaStep c ib io s).facade = s.facade := rfl
@[simp] theorem olaStep_nodes (c ib io : Nat) (s : State) : (olaStep c ib io s).nodes = s.nodes := rfl
@[simp] theorem olaStep_mem (c ib io : Nat) (s : State) : (olaStep c ib io s).mem = s.mem := rfl
@[simp] theorem olaStep_epoch (c ib io : Nat) (s : State) : (olaStep c ib io s).epoch = s.epoch := rfl
@[simp] theorem olaStep_aborts (c ib io : Nat) (s : State) : (olaStep c ib io s).aborts = s.aborts := rfl
@[simp] theorem olaStep_bus (c ib io : Nat) (s : State) : (olaStep c ib io s).bus = s.bus := rfl
@[simp] theorem olaStep_delays (c ib io : Nat) (s : State) : (olaStep c ib io s).delays = s.delays := rfl
@[simp] theorem olaStep_rdata (c ib io : Nat) (s : State) : (olaStep c ib io s).rdata = s.rdata := rfl

/-! ## emit: the contexts and the memory only -/

@[simp] theorem emit_build (c ob oo : Nat) (s : State) : (emit c ob oo s).build = s.build := by
  simp [emit]
@[simp] theorem emit_done (c ob oo : Nat) (s : State) : (emit c ob oo s).done = s.done := by
  simp [emit]
@[simp] theorem emit_err (c ob oo : Nat) (s : State) : (emit c ob oo s).err = s.err := by
  simp [emit]
@[simp] theorem emit_errovf (c ob oo : Nat) (s : State) : (emit c ob oo s).errovf = s.errovf := by
  simp [emit]
@[simp] theorem emit_errcode (c ob oo : Nat) (s : State) : (emit c ob oo s).errcode = s.errcode := by
  simp [emit]
@[simp] theorem emit_errcmd (c ob oo : Nat) (s : State) : (emit c ob oo s).errcmd = s.errcmd := by
  simp [emit]
@[simp] theorem emit_doneie (c ob oo : Nat) (s : State) : (emit c ob oo s).doneie = s.doneie := by
  simp [emit]
@[simp] theorem emit_errie (c ob oo : Nat) (s : State) : (emit c ob oo s).errie = s.errie := by
  simp [emit]
@[simp] theorem emit_arg0 (c ob oo : Nat) (s : State) : (emit c ob oo s).arg0 = s.arg0 := by
  simp [emit]
@[simp] theorem emit_arg1 (c ob oo : Nat) (s : State) : (emit c ob oo s).arg1 = s.arg1 := by
  simp [emit]
@[simp] theorem emit_seq (c ob oo : Nat) (s : State) : (emit c ob oo s).seq = s.seq := by
  simp [emit]
@[simp] theorem emit_facade (c ob oo : Nat) (s : State) : (emit c ob oo s).facade = s.facade := by
  simp [emit]
@[simp] theorem emit_nodes (c ob oo : Nat) (s : State) : (emit c ob oo s).nodes = s.nodes := by
  simp [emit]
@[simp] theorem emit_epoch (c ob oo : Nat) (s : State) : (emit c ob oo s).epoch = s.epoch := by
  simp [emit]
@[simp] theorem emit_aborts (c ob oo : Nat) (s : State) : (emit c ob oo s).aborts = s.aborts := by
  simp [emit]
@[simp] theorem emit_bus (c ob oo : Nat) (s : State) : (emit c ob oo s).bus = s.bus := by
  simp [emit]
@[simp] theorem emit_delays (c ob oo : Nat) (s : State) : (emit c ob oo s).delays = s.delays := by
  simp [emit]
@[simp] theorem emit_rdata (c ob oo : Nat) (s : State) : (emit c ob oo s).rdata = s.rdata := by
  simp [emit]

/-! ## Rejection, acceptance and completion -/

@[simp] theorem reject_build (w : Word) (e : ErrCode) (s : State) :
    (reject w e s).build = s.build := by
  unfold reject; split <;> rfl
@[simp] theorem reject_done (w : Word) (e : ErrCode) (s : State) :
    (reject w e s).done = s.done := by
  unfold reject; split <;> rfl
@[simp] theorem reject_doneie (w : Word) (e : ErrCode) (s : State) :
    (reject w e s).doneie = s.doneie := by
  unfold reject; split <;> rfl
@[simp] theorem reject_errie (w : Word) (e : ErrCode) (s : State) :
    (reject w e s).errie = s.errie := by
  unfold reject; split <;> rfl
@[simp] theorem reject_arg0 (w : Word) (e : ErrCode) (s : State) :
    (reject w e s).arg0 = s.arg0 := by
  unfold reject; split <;> rfl
@[simp] theorem reject_arg1 (w : Word) (e : ErrCode) (s : State) :
    (reject w e s).arg1 = s.arg1 := by
  unfold reject; split <;> rfl
@[simp] theorem reject_seq (w : Word) (e : ErrCode) (s : State) :
    (reject w e s).seq = s.seq := by
  unfold reject; split <;> rfl
@[simp] theorem reject_facade (w : Word) (e : ErrCode) (s : State) :
    (reject w e s).facade = s.facade := by
  unfold reject; split <;> rfl
@[simp] theorem reject_nodes (w : Word) (e : ErrCode) (s : State) :
    (reject w e s).nodes = s.nodes := by
  unfold reject; split <;> rfl
@[simp] theorem reject_ctxs (w : Word) (e : ErrCode) (s : State) :
    (reject w e s).ctxs = s.ctxs := by
  unfold reject; split <;> rfl
@[simp] theorem reject_mem (w : Word) (e : ErrCode) (s : State) :
    (reject w e s).mem = s.mem := by
  unfold reject; split <;> rfl
@[simp] theorem reject_epoch (w : Word) (e : ErrCode) (s : State) :
    (reject w e s).epoch = s.epoch := by
  unfold reject; split <;> rfl
@[simp] theorem reject_aborts (w : Word) (e : ErrCode) (s : State) :
    (reject w e s).aborts = s.aborts := by
  unfold reject; split <;> rfl
@[simp] theorem reject_bus (w : Word) (e : ErrCode) (s : State) :
    (reject w e s).bus = s.bus := by
  unfold reject; split <;> rfl
@[simp] theorem reject_delays (w : Word) (e : ErrCode) (s : State) :
    (reject w e s).delays = s.delays := by
  unfold reject; split <;> rfl
@[simp] theorem reject_rdata (w : Word) (e : ErrCode) (s : State) :
    (reject w e s).rdata = s.rdata := by
  unfold reject; split <;> rfl
@[simp] theorem accept_build (i : Instr) (s : State) : (accept i s).build = s.build := rfl
@[simp] theorem accept_done (i : Instr) (s : State) : (accept i s).done = s.done := rfl
@[simp] theorem accept_err (i : Instr) (s : State) : (accept i s).err = s.err := rfl
@[simp] theorem accept_errovf (i : Instr) (s : State) : (accept i s).errovf = s.errovf := rfl
@[simp] theorem accept_errcode (i : Instr) (s : State) : (accept i s).errcode = s.errcode := rfl
@[simp] theorem accept_errcmd (i : Instr) (s : State) : (accept i s).errcmd = s.errcmd := rfl
@[simp] theorem accept_doneie (i : Instr) (s : State) : (accept i s).doneie = s.doneie := rfl
@[simp] theorem accept_errie (i : Instr) (s : State) : (accept i s).errie = s.errie := rfl
@[simp] theorem accept_arg0 (i : Instr) (s : State) : (accept i s).arg0 = s.arg0 := rfl
@[simp] theorem accept_arg1 (i : Instr) (s : State) : (accept i s).arg1 = s.arg1 := rfl
@[simp] theorem accept_facade (i : Instr) (s : State) : (accept i s).facade = s.facade := rfl
@[simp] theorem accept_nodes (i : Instr) (s : State) : (accept i s).nodes = s.nodes := rfl
@[simp] theorem accept_ctxs (i : Instr) (s : State) : (accept i s).ctxs = s.ctxs := rfl
@[simp] theorem accept_mem (i : Instr) (s : State) : (accept i s).mem = s.mem := rfl
@[simp] theorem accept_epoch (i : Instr) (s : State) : (accept i s).epoch = s.epoch := rfl
@[simp] theorem accept_aborts (i : Instr) (s : State) : (accept i s).aborts = s.aborts := rfl
@[simp] theorem accept_bus (i : Instr) (s : State) : (accept i s).bus = s.bus := rfl
@[simp] theorem accept_rdata (i : Instr) (s : State) : (accept i s).rdata = s.rdata := rfl
@[simp] theorem accept_seq (i : Instr) (s : State) :
    (accept i s).seq = .busy i s.arg0 s.arg1 s.nextDelay := rfl
@[simp] theorem accept_delays (i : Instr) (s : State) : (accept i s).delays = s.delays.tail := rfl
@[simp] theorem finish_build (e : Word → Word → State → State) (a0 a1 : Word) (s : State) :
    (finish e a0 a1 s).build = (e a0 a1 s).build := rfl
@[simp] theorem finish_err (e : Word → Word → State → State) (a0 a1 : Word) (s : State) :
    (finish e a0 a1 s).err = (e a0 a1 s).err := rfl
@[simp] theorem finish_errovf (e : Word → Word → State → State) (a0 a1 : Word) (s : State) :
    (finish e a0 a1 s).errovf = (e a0 a1 s).errovf := rfl
@[simp] theorem finish_errcode (e : Word → Word → State → State) (a0 a1 : Word) (s : State) :
    (finish e a0 a1 s).errcode = (e a0 a1 s).errcode := rfl
@[simp] theorem finish_errcmd (e : Word → Word → State → State) (a0 a1 : Word) (s : State) :
    (finish e a0 a1 s).errcmd = (e a0 a1 s).errcmd := rfl
@[simp] theorem finish_doneie (e : Word → Word → State → State) (a0 a1 : Word) (s : State) :
    (finish e a0 a1 s).doneie = (e a0 a1 s).doneie := rfl
@[simp] theorem finish_errie (e : Word → Word → State → State) (a0 a1 : Word) (s : State) :
    (finish e a0 a1 s).errie = (e a0 a1 s).errie := rfl
@[simp] theorem finish_arg0 (e : Word → Word → State → State) (a0 a1 : Word) (s : State) :
    (finish e a0 a1 s).arg0 = (e a0 a1 s).arg0 := rfl
@[simp] theorem finish_arg1 (e : Word → Word → State → State) (a0 a1 : Word) (s : State) :
    (finish e a0 a1 s).arg1 = (e a0 a1 s).arg1 := rfl
@[simp] theorem finish_facade (e : Word → Word → State → State) (a0 a1 : Word) (s : State) :
    (finish e a0 a1 s).facade = (e a0 a1 s).facade := rfl
@[simp] theorem finish_nodes (e : Word → Word → State → State) (a0 a1 : Word) (s : State) :
    (finish e a0 a1 s).nodes = (e a0 a1 s).nodes := rfl
@[simp] theorem finish_ctxs (e : Word → Word → State → State) (a0 a1 : Word) (s : State) :
    (finish e a0 a1 s).ctxs = (e a0 a1 s).ctxs := rfl
@[simp] theorem finish_mem (e : Word → Word → State → State) (a0 a1 : Word) (s : State) :
    (finish e a0 a1 s).mem = (e a0 a1 s).mem := rfl
@[simp] theorem finish_epoch (e : Word → Word → State → State) (a0 a1 : Word) (s : State) :
    (finish e a0 a1 s).epoch = (e a0 a1 s).epoch := rfl
@[simp] theorem finish_aborts (e : Word → Word → State → State) (a0 a1 : Word) (s : State) :
    (finish e a0 a1 s).aborts = (e a0 a1 s).aborts := rfl
@[simp] theorem finish_bus (e : Word → Word → State → State) (a0 a1 : Word) (s : State) :
    (finish e a0 a1 s).bus = (e a0 a1 s).bus := rfl
@[simp] theorem finish_delays (e : Word → Word → State → State) (a0 a1 : Word) (s : State) :
    (finish e a0 a1 s).delays = (e a0 a1 s).delays := rfl
@[simp] theorem finish_rdata (e : Word → Word → State → State) (a0 a1 : Word) (s : State) :
    (finish e a0 a1 s).rdata = (e a0 a1 s).rdata := rfl
@[simp] theorem finish_seq (e : Word → Word → State → State) (a0 a1 : Word) (s : State) :
    (finish e a0 a1 s).seq = .idle := rfl
@[simp] theorem finish_done (e : Word → Word → State → State) (a0 a1 : Word) (s : State) :
    (finish e a0 a1 s).done = true := rfl

/-! ## The host's register writes -/

@[simp] theorem clearDone_build (s : State) : (clearDone s).build = s.build := rfl
@[simp] theorem clearDone_err (s : State) : (clearDone s).err = s.err := rfl
@[simp] theorem clearDone_errovf (s : State) : (clearDone s).errovf = s.errovf := rfl
@[simp] theorem clearDone_errcode (s : State) : (clearDone s).errcode = s.errcode := rfl
@[simp] theorem clearDone_errcmd (s : State) : (clearDone s).errcmd = s.errcmd := rfl
@[simp] theorem clearDone_doneie (s : State) : (clearDone s).doneie = s.doneie := rfl
@[simp] theorem clearDone_errie (s : State) : (clearDone s).errie = s.errie := rfl
@[simp] theorem clearDone_arg0 (s : State) : (clearDone s).arg0 = s.arg0 := rfl
@[simp] theorem clearDone_arg1 (s : State) : (clearDone s).arg1 = s.arg1 := rfl
@[simp] theorem clearDone_seq (s : State) : (clearDone s).seq = s.seq := rfl
@[simp] theorem clearDone_facade (s : State) : (clearDone s).facade = s.facade := rfl
@[simp] theorem clearDone_nodes (s : State) : (clearDone s).nodes = s.nodes := rfl
@[simp] theorem clearDone_ctxs (s : State) : (clearDone s).ctxs = s.ctxs := rfl
@[simp] theorem clearDone_mem (s : State) : (clearDone s).mem = s.mem := rfl
@[simp] theorem clearDone_epoch (s : State) : (clearDone s).epoch = s.epoch := rfl
@[simp] theorem clearDone_aborts (s : State) : (clearDone s).aborts = s.aborts := rfl
@[simp] theorem clearDone_bus (s : State) : (clearDone s).bus = s.bus := rfl
@[simp] theorem clearDone_delays (s : State) : (clearDone s).delays = s.delays := rfl
@[simp] theorem clearDone_rdata (s : State) : (clearDone s).rdata = s.rdata := rfl
@[simp] theorem clearDone_done (s : State) : (clearDone s).done = false := rfl
@[simp] theorem clearErr_build (s : State) : (clearErr s).build = s.build := rfl
@[simp] theorem clearErr_done (s : State) : (clearErr s).done = s.done := rfl
@[simp] theorem clearErr_errovf (s : State) : (clearErr s).errovf = s.errovf := rfl
@[simp] theorem clearErr_doneie (s : State) : (clearErr s).doneie = s.doneie := rfl
@[simp] theorem clearErr_errie (s : State) : (clearErr s).errie = s.errie := rfl
@[simp] theorem clearErr_arg0 (s : State) : (clearErr s).arg0 = s.arg0 := rfl
@[simp] theorem clearErr_arg1 (s : State) : (clearErr s).arg1 = s.arg1 := rfl
@[simp] theorem clearErr_seq (s : State) : (clearErr s).seq = s.seq := rfl
@[simp] theorem clearErr_facade (s : State) : (clearErr s).facade = s.facade := rfl
@[simp] theorem clearErr_nodes (s : State) : (clearErr s).nodes = s.nodes := rfl
@[simp] theorem clearErr_ctxs (s : State) : (clearErr s).ctxs = s.ctxs := rfl
@[simp] theorem clearErr_mem (s : State) : (clearErr s).mem = s.mem := rfl
@[simp] theorem clearErr_epoch (s : State) : (clearErr s).epoch = s.epoch := rfl
@[simp] theorem clearErr_aborts (s : State) : (clearErr s).aborts = s.aborts := rfl
@[simp] theorem clearErr_bus (s : State) : (clearErr s).bus = s.bus := rfl
@[simp] theorem clearErr_delays (s : State) : (clearErr s).delays = s.delays := rfl
@[simp] theorem clearErr_rdata (s : State) : (clearErr s).rdata = s.rdata := rfl
@[simp] theorem clearErr_err (s : State) : (clearErr s).err = false := rfl
@[simp] theorem clearErr_errcode (s : State) : (clearErr s).errcode = .none := rfl
@[simp] theorem clearErr_errcmd (s : State) : (clearErr s).errcmd = 0 := rfl
@[simp] theorem clearErrovf_build (s : State) : (clearErrovf s).build = s.build := rfl
@[simp] theorem clearErrovf_done (s : State) : (clearErrovf s).done = s.done := rfl
@[simp] theorem clearErrovf_err (s : State) : (clearErrovf s).err = s.err := rfl
@[simp] theorem clearErrovf_errcode (s : State) : (clearErrovf s).errcode = s.errcode := rfl
@[simp] theorem clearErrovf_errcmd (s : State) : (clearErrovf s).errcmd = s.errcmd := rfl
@[simp] theorem clearErrovf_doneie (s : State) : (clearErrovf s).doneie = s.doneie := rfl
@[simp] theorem clearErrovf_errie (s : State) : (clearErrovf s).errie = s.errie := rfl
@[simp] theorem clearErrovf_arg0 (s : State) : (clearErrovf s).arg0 = s.arg0 := rfl
@[simp] theorem clearErrovf_arg1 (s : State) : (clearErrovf s).arg1 = s.arg1 := rfl
@[simp] theorem clearErrovf_seq (s : State) : (clearErrovf s).seq = s.seq := rfl
@[simp] theorem clearErrovf_facade (s : State) : (clearErrovf s).facade = s.facade := rfl
@[simp] theorem clearErrovf_nodes (s : State) : (clearErrovf s).nodes = s.nodes := rfl
@[simp] theorem clearErrovf_ctxs (s : State) : (clearErrovf s).ctxs = s.ctxs := rfl
@[simp] theorem clearErrovf_mem (s : State) : (clearErrovf s).mem = s.mem := rfl
@[simp] theorem clearErrovf_epoch (s : State) : (clearErrovf s).epoch = s.epoch := rfl
@[simp] theorem clearErrovf_aborts (s : State) : (clearErrovf s).aborts = s.aborts := rfl
@[simp] theorem clearErrovf_bus (s : State) : (clearErrovf s).bus = s.bus := rfl
@[simp] theorem clearErrovf_delays (s : State) : (clearErrovf s).delays = s.delays := rfl
@[simp] theorem clearErrovf_rdata (s : State) : (clearErrovf s).rdata = s.rdata := rfl
@[simp] theorem clearErrovf_errovf (s : State) : (clearErrovf s).errovf = false := rfl
@[simp] theorem writeStatus_build (v : Word) (s : State) :
    (writeStatus v s).build = s.build := by
  unfold writeStatus; dsimp only; split <;> split <;> split <;> simp
@[simp] theorem writeStatus_doneie (v : Word) (s : State) :
    (writeStatus v s).doneie = s.doneie := by
  unfold writeStatus; dsimp only; split <;> split <;> split <;> simp
@[simp] theorem writeStatus_errie (v : Word) (s : State) :
    (writeStatus v s).errie = s.errie := by
  unfold writeStatus; dsimp only; split <;> split <;> split <;> simp
@[simp] theorem writeStatus_arg0 (v : Word) (s : State) :
    (writeStatus v s).arg0 = s.arg0 := by
  unfold writeStatus; dsimp only; split <;> split <;> split <;> simp
@[simp] theorem writeStatus_arg1 (v : Word) (s : State) :
    (writeStatus v s).arg1 = s.arg1 := by
  unfold writeStatus; dsimp only; split <;> split <;> split <;> simp
@[simp] theorem writeStatus_seq (v : Word) (s : State) :
    (writeStatus v s).seq = s.seq := by
  unfold writeStatus; dsimp only; split <;> split <;> split <;> simp
@[simp] theorem writeStatus_facade (v : Word) (s : State) :
    (writeStatus v s).facade = s.facade := by
  unfold writeStatus; dsimp only; split <;> split <;> split <;> simp
@[simp] theorem writeStatus_nodes (v : Word) (s : State) :
    (writeStatus v s).nodes = s.nodes := by
  unfold writeStatus; dsimp only; split <;> split <;> split <;> simp
@[simp] theorem writeStatus_ctxs (v : Word) (s : State) :
    (writeStatus v s).ctxs = s.ctxs := by
  unfold writeStatus; dsimp only; split <;> split <;> split <;> simp
@[simp] theorem writeStatus_mem (v : Word) (s : State) :
    (writeStatus v s).mem = s.mem := by
  unfold writeStatus; dsimp only; split <;> split <;> split <;> simp
@[simp] theorem writeStatus_epoch (v : Word) (s : State) :
    (writeStatus v s).epoch = s.epoch := by
  unfold writeStatus; dsimp only; split <;> split <;> split <;> simp
@[simp] theorem writeStatus_aborts (v : Word) (s : State) :
    (writeStatus v s).aborts = s.aborts := by
  unfold writeStatus; dsimp only; split <;> split <;> split <;> simp
@[simp] theorem writeStatus_bus (v : Word) (s : State) :
    (writeStatus v s).bus = s.bus := by
  unfold writeStatus; dsimp only; split <;> split <;> split <;> simp
@[simp] theorem writeStatus_delays (v : Word) (s : State) :
    (writeStatus v s).delays = s.delays := by
  unfold writeStatus; dsimp only; split <;> split <;> split <;> simp
@[simp] theorem writeStatus_rdata (v : Word) (s : State) :
    (writeStatus v s).rdata = s.rdata := by
  unfold writeStatus; dsimp only; split <;> split <;> split <;> simp
@[simp] theorem writeIrqen_build (v : Word) (s : State) : (writeIrqen v s).build = s.build := rfl
@[simp] theorem writeIrqen_done (v : Word) (s : State) : (writeIrqen v s).done = s.done := rfl
@[simp] theorem writeIrqen_err (v : Word) (s : State) : (writeIrqen v s).err = s.err := rfl
@[simp] theorem writeIrqen_errovf (v : Word) (s : State) : (writeIrqen v s).errovf = s.errovf := rfl
@[simp] theorem writeIrqen_errcode (v : Word) (s : State) : (writeIrqen v s).errcode = s.errcode := rfl
@[simp] theorem writeIrqen_errcmd (v : Word) (s : State) : (writeIrqen v s).errcmd = s.errcmd := rfl
@[simp] theorem writeIrqen_arg0 (v : Word) (s : State) : (writeIrqen v s).arg0 = s.arg0 := rfl
@[simp] theorem writeIrqen_arg1 (v : Word) (s : State) : (writeIrqen v s).arg1 = s.arg1 := rfl
@[simp] theorem writeIrqen_seq (v : Word) (s : State) : (writeIrqen v s).seq = s.seq := rfl
@[simp] theorem writeIrqen_facade (v : Word) (s : State) : (writeIrqen v s).facade = s.facade := rfl
@[simp] theorem writeIrqen_nodes (v : Word) (s : State) : (writeIrqen v s).nodes = s.nodes := rfl
@[simp] theorem writeIrqen_ctxs (v : Word) (s : State) : (writeIrqen v s).ctxs = s.ctxs := rfl
@[simp] theorem writeIrqen_mem (v : Word) (s : State) : (writeIrqen v s).mem = s.mem := rfl
@[simp] theorem writeIrqen_epoch (v : Word) (s : State) : (writeIrqen v s).epoch = s.epoch := rfl
@[simp] theorem writeIrqen_aborts (v : Word) (s : State) : (writeIrqen v s).aborts = s.aborts := rfl
@[simp] theorem writeIrqen_bus (v : Word) (s : State) : (writeIrqen v s).bus = s.bus := rfl
@[simp] theorem writeIrqen_delays (v : Word) (s : State) : (writeIrqen v s).delays = s.delays := rfl
@[simp] theorem writeIrqen_rdata (v : Word) (s : State) : (writeIrqen v s).rdata = s.rdata := rfl
@[simp] theorem writeIrqen_doneie (v : Word) (s : State) : (writeIrqen v s).doneie = v.getLsbD 0 := rfl
@[simp] theorem writeIrqen_errie (v : Word) (s : State) : (writeIrqen v s).errie = v.getLsbD 1 := rfl

/-! ## Taking the host's next event -/

@[simp] theorem takeOp_build (rest : List HostOp) (s : State) : (takeOp rest s).build = s.build := rfl
@[simp] theorem takeOp_done (rest : List HostOp) (s : State) : (takeOp rest s).done = s.done := rfl
@[simp] theorem takeOp_err (rest : List HostOp) (s : State) : (takeOp rest s).err = s.err := rfl
@[simp] theorem takeOp_errovf (rest : List HostOp) (s : State) : (takeOp rest s).errovf = s.errovf := rfl
@[simp] theorem takeOp_errcode (rest : List HostOp) (s : State) : (takeOp rest s).errcode = s.errcode := rfl
@[simp] theorem takeOp_errcmd (rest : List HostOp) (s : State) : (takeOp rest s).errcmd = s.errcmd := rfl
@[simp] theorem takeOp_doneie (rest : List HostOp) (s : State) : (takeOp rest s).doneie = s.doneie := rfl
@[simp] theorem takeOp_errie (rest : List HostOp) (s : State) : (takeOp rest s).errie = s.errie := rfl
@[simp] theorem takeOp_arg0 (rest : List HostOp) (s : State) : (takeOp rest s).arg0 = s.arg0 := rfl
@[simp] theorem takeOp_arg1 (rest : List HostOp) (s : State) : (takeOp rest s).arg1 = s.arg1 := rfl
@[simp] theorem takeOp_facade (rest : List HostOp) (s : State) : (takeOp rest s).facade = s.facade := rfl
@[simp] theorem takeOp_nodes (rest : List HostOp) (s : State) : (takeOp rest s).nodes = s.nodes := rfl
@[simp] theorem takeOp_ctxs (rest : List HostOp) (s : State) : (takeOp rest s).ctxs = s.ctxs := rfl
@[simp] theorem takeOp_mem (rest : List HostOp) (s : State) : (takeOp rest s).mem = s.mem := rfl
@[simp] theorem takeOp_epoch (rest : List HostOp) (s : State) : (takeOp rest s).epoch = s.epoch := rfl
@[simp] theorem takeOp_aborts (rest : List HostOp) (s : State) : (takeOp rest s).aborts = s.aborts := rfl
@[simp] theorem takeOp_delays (rest : List HostOp) (s : State) : (takeOp rest s).delays = s.delays := rfl
@[simp] theorem takeOp_bus (rest : List HostOp) (s : State) : (takeOp rest s).bus = rest := rfl
@[simp] theorem takeOp_rdata (rest : List HostOp) (s : State) : (takeOp rest s).rdata = none := rfl
@[simp] theorem takeOp_seq (rest : List HostOp) (s : State) : (takeOp rest s).seq = s.seq.tick := rfl

/-! ## Reading a context after it was set -/

@[simp] theorem State.ctx_setCtx_same (s : State) (c : Nat) (x : Context) (h : c < s.ctxs.length) :
    (s.setCtx c x).ctx c = x := by
  simp [State.ctx, h]

theorem State.ctx_setCtx_ne (s : State) {c d : Nat} (x : Context) (h : d ≠ c) :
    (s.setCtx c x).ctx d = s.ctx d := by
  simp only [State.ctx, State.setCtx_ctxs, List.getD_eq_getElem?_getD, List.getElem?_set_ne (Ne.symm h)]

/-- Setting the context twice is setting it once. -/
theorem State.setCtx_setCtx (s : State) (c : Nat) (x y : Context) : (s.setCtx c x).setCtx c y = s.setCtx c y := by
  simp [State.setCtx]

/-! ## Bytes, samples and blocks depend on the build, the memory and the free-value index only -/

theorem State.byte_congr {s t : State} (he : s.epoch = t.epoch) (hm : s.mem = t.mem) (a : Nat) :
    s.byte a = t.byte a := by
  simp [State.byte, he, hm]

theorem State.sample_congr {s t : State} (hb : s.build = t.build) (he : s.epoch = t.epoch) (hm : s.mem = t.mem)
    (b j : Nat) : s.sample b j = t.sample b j := by
  simp [State.sample, State.byte, hb, he, hm]

theorem State.block_congr {s t : State} (hb : s.build = t.build) (he : s.epoch = t.epoch) (hm : s.mem = t.mem)
    (b j n : Nat) : s.block b j n = t.block b j n := by
  simp only [State.block, State.sample_congr hb he hm]

end Sys2Proof.Machine
end

