-- ==== Sys2Proof/Laws/Issue.lean ====
section
/-!
SUPPORT. What issuing a command can do, said once; and that a command's effect touches the facade, the node table, the
contexts and the memory only.
-/
namespace Sys2Proof.Machine

/-- Every meaning issues its command with the checks and the effect of its rule. -/
theorem exec_eq_issue (i : Instr) (s : State) : exec i s = .next (issue i (checkOf i) (effectOf i) s) := by
  cases i <;> rfl

/-! ## The checks -/

theorem firstFail_eq_none_iff (l : List (Bool × ErrCode)) : firstFail l = none ↔ ∀ x ∈ l, x.1 = true := by
  induction l with
  | nil => simp [firstFail]
  | cons x l ih => obtain ⟨b, e⟩ := x; cases b <;> simp [firstFail, ih]

/-- A failing list of checks answers the code of one of them. -/
theorem firstFail_mem {l : List (Bool × ErrCode)} {e : ErrCode} (h : firstFail l = some e) : (false, e) ∈ l := by
  induction l with
  | nil => simp [firstFail] at h
  | cons x l ih =>
    obtain ⟨b, c⟩ := x
    cases b with
    | false => simp only [firstFail, Bool.false_eq_true, if_false, Option.some.injEq] at h; simp [h]
    | true => simp only [firstFail, if_true] at h; exact List.mem_cons_of_mem _ (ih h)

/-! ## Rejection -/

theorem reject_first (w : Word) (e : ErrCode) {s : State} (h : s.err = false) :
    reject w e s = { s with err := true, errcode := e, errcmd := w } := by
  simp [reject, h]

theorem reject_later (w : Word) (e : ErrCode) {s : State} (h : s.err = true) :
    reject w e s = { s with errovf := true } := by
  simp [reject, h]

@[simp] theorem reject_err (w : Word) (e : ErrCode) (s : State) : (reject w e s).err = true := by
  cases h : s.err <;> simp [reject, h]

/-! ## Issue -/

theorem State.busy_eq_false_iff (s : State) : s.busy = false ↔ s.seq = .idle := by
  unfold State.busy
  cases s.seq <;> simp

theorem State.busy_of_idle {s : State} (h : s.seq = .idle) : s.busy = false := (State.busy_eq_false_iff s).2 h

theorem issue_busy {i : Instr} {check effect} {s : State} (h : s.busy = true) :
    issue i check effect s = reject (encode i) .busy s := by
  simp [issue, h]

theorem issue_rejected {i : Instr} {check effect} {s : State} {e : ErrCode} (h : s.seq = .idle)
    (hc : check s.arg0 s.arg1 s = some e) : issue i check effect s = reject (encode i) e s := by
  simp [issue, State.busy_of_idle h, hc]

theorem issue_atOnce {i : Instr} {check effect} {s : State} (h : ReadyAtOnce s)
    (hc : check s.arg0 s.arg1 s = none) :
    issue i check effect s = finish effect s.arg0 s.arg1 (accept i s) := by
  simp [issue, State.busy_of_idle h.1, hc, h.2]

theorem issue_later {i : Instr} {check effect} {s : State} {n : Nat} (h : s.seq = .idle)
    (hd : s.nextDelay = n + 1) (hc : check s.arg0 s.arg1 s = none) :
    issue i check effect s = accept i s := by
  simp [issue, State.busy_of_idle h, hc, hd]

/-- Issuing a command does one of four things: a BUSY rejection, a rejection by a check, an acceptance that completes
at once, an acceptance that leaves the command running. -/
theorem issue_cases (i : Instr) (check) (effect) (s : State) :
    (s.busy = true ∧ issue i check effect s = reject (encode i) .busy s) ∨
    (s.seq = .idle ∧ ∃ e, check s.arg0 s.arg1 s = some e ∧ issue i check effect s = reject (encode i) e s) ∨
    (s.seq = .idle ∧ check s.arg0 s.arg1 s = none ∧ s.nextDelay = 0 ∧
      issue i check effect s = finish effect s.arg0 s.arg1 (accept i s)) ∨
    (s.seq = .idle ∧ check s.arg0 s.arg1 s = none ∧ 0 < s.nextDelay ∧
      issue i check effect s = accept i s) := by
  cases hb : s.busy with
  | true => exact .inl ⟨rfl, issue_busy hb⟩
  | false =>
    have hi := (State.busy_eq_false_iff s).1 hb
    cases hc : check s.arg0 s.arg1 s with
    | some e => exact .inr (.inl ⟨hi, e, rfl, issue_rejected hi hc⟩)
    | none =>
      cases hd : s.nextDelay with
      | zero => exact .inr (.inr (.inl ⟨hi, rfl, rfl, issue_atOnce ⟨hi, hd⟩ hc⟩))
      | succ n => exact .inr (.inr (.inr ⟨hi, rfl, Nat.succ_pos n, issue_later hi hd hc⟩))

/-! ## Effects -/

/-- Two states that differ in nothing but the facade, the node table, the contexts and the memory. -/
abbrev SameControl (s t : State) : Prop :=
  t = { s with facade := t.facade, nodes := t.nodes, ctxs := t.ctxs, mem := t.mem }

theorem SameControl.trans {s t u : State} (h1 : SameControl s t) (h2 : SameControl t u) : SameControl s u := by
  unfold SameControl at *
  rw [h2, h1]

theorem sameControl_setCtx (s : State) (c : Nat) (x : Context) : SameControl s (s.setCtx c x) := rfl

theorem sameControl_setBlock (s : State) (b j : Nat) (vs : List Sample) : SameControl s (s.setBlock b j vs) := by
  have h := State.setBlock_eq s b j vs
  unfold SameControl
  rw [h]

theorem sameControl_storeDest (ys : List (Cpx Sample)) (s : State) : SameControl s (storeDest ys s) :=
  (sameControl_setBlock _ _ _ _).trans (sameControl_setBlock _ _ _ _)

theorem sameControl_bind (a b c d : Nat) (s : State) : SameControl s (bind a b c d s) := rfl

theorem sameControl_configure (lg : Nat) (s : State) : SameControl s (configure lg s) := rfl

theorem sameControl_productAt (a b c d : Nat) (g : Sign) (s : State) (k : Nat) :
    SameControl s (productAt a b c d g s k) := rfl

theorem sameControl_foldl {f : State → Nat → State} (hf : ∀ s k, SameControl s (f s k)) (l : List Nat) (s : State) :
    SameControl s (l.foldl f s) := by
  induction l generalizing s with
  | nil => rfl
  | cons k l ih => exact (hf s k).trans (ih _)

theorem sameControl_emit (c ob oo : Nat) (s : State) : SameControl s (emit c ob oo s) :=
  (sameControl_setBlock s _ _ _).trans (sameControl_setCtx _ _ _)

/-- The effect of a command changes the facade, the node table, the contexts and the memory only (R57, R180). -/
theorem effectOf_sameControl (i : Instr) (a0 a1 : Word) (s : State) : SameControl s (effectOf i a0 a1 s) := by
  cases i with
  | nop => rfl
  | cfg lg => rfl
  | link a b c d => rfl
  | cfgl a b c d lg => rfl
  | fwd => exact sameControl_storeDest _ _
  | inv => exact sameControl_storeDest _ _
  | fwdl a b c d => exact (sameControl_bind a b c d s).trans (sameControl_storeDest _ _)
  | invl a b c d => exact (sameControl_bind a b c d s).trans (sameControl_storeDest _ _)
  | prod a b c d g => exact sameControl_foldl (sameControl_productAt a b c d g) _ _
  | ocfg c kb => rfl
  | ocfgs c m kb => rfl
  | oflt c ib ob =>
    exact (show SameControl s (olaStep c ib a0.toNat s) from rfl).trans (sameControl_emit _ _ _ _)
  | ofls c ob => exact sameControl_emit _ _ _ _
  | oini c => rfl
  | oclr c => rfl

/-! ## Effects and the sequencer -/

/-- The state with another sequencer state and another latency schedule. -/
def State.scheduled (q : Sequencer) (ds : List Nat) (s : State) : State := { s with seq := q, delays := ds }

theorem setBlock_scheduled (q : Sequencer) (ds : List Nat) (s : State) (b j : Nat) (vs : List Sample) :
    (s.scheduled q ds).setBlock b j vs = (s.setBlock b j vs).scheduled q ds := by
  induction vs generalizing s j with
  | nil => rfl
  | cons v vs ih => exact ih (s.setSample b j v) (j + 1)

theorem storeDest_scheduled (q : Sequencer) (ds : List Nat) (s : State) (ys : List (Cpx Sample)) :
    storeDest ys (s.scheduled q ds) = (storeDest ys s).scheduled q ds := by
  unfold storeDest
  rw [setBlock_scheduled]
  exact setBlock_scheduled ..

theorem product_scheduled (q : Sequencer) (ds : List Nat) (xr xi yr yi : Nat) (g : Sign) (l : List Nat) (s : State) :
    l.foldl (productAt xr xi yr yi g) (s.scheduled q ds) = (l.foldl (productAt xr xi yr yi g) s).scheduled q ds := by
  induction l generalizing s with
  | nil => rfl
  | cons k l ih => exact ih (productAt xr xi yr yi g s k)

theorem emit_scheduled (q : Sequencer) (ds : List Nat) (c ob oo : Nat) (s : State) :
    emit c ob oo (s.scheduled q ds) = (emit c ob oo s).scheduled q ds := by
  unfold emit
  dsimp only
  rw [setBlock_scheduled]
  rfl

/-- An effect neither reads nor writes the sequencer and the latency schedule (R241). -/
theorem effectOf_scheduled (q : Sequencer) (ds : List Nat) (i : Instr) (a0 a1 : Word) (s : State) :
    effectOf i a0 a1 (s.scheduled q ds) = (effectOf i a0 a1 s).scheduled q ds := by
  cases i with
  | nop => rfl
  | cfg lg => rfl
  | link a b c d => rfl
  | cfgl a b c d lg => rfl
  | fwd => exact storeDest_scheduled ..
  | inv => exact storeDest_scheduled ..
  | fwdl a b c d => exact storeDest_scheduled q ds (bind a b c d s) _
  | invl a b c d => exact storeDest_scheduled q ds (bind a b c d s) _
  | prod a b c d g => exact product_scheduled ..
  | ocfg c kb => rfl
  | ocfgs c m kb => rfl
  | oflt c ib ob => exact emit_scheduled q ds c ob a1.toNat (olaStep c ib a0.toNat s)
  | ofls c ob => exact emit_scheduled ..
  | oini c => rfl
  | oclr c => rfl

/-- What a command accepted in an idle state leaves when it completes at once: its effect, DONE, and one entry fewer in
the latency schedule. -/
theorem finish_accept (i : Instr) {s : State} (h : s.seq = .idle) :
    finish (effectOf i) s.arg0 s.arg1 (accept i s) =
      { effectOf i s.arg0 s.arg1 s with done := true, delays := s.delays.tail } := by
  have h1 : accept i s = s.scheduled (.busy i s.arg0 s.arg1 s.nextDelay) s.delays.tail := rfl
  have h2 : (effectOf i s.arg0 s.arg1 s).seq = .idle := by
    rw [effectOf_sameControl i s.arg0 s.arg1 s, ← h]
  unfold finish
  rw [h1, effectOf_scheduled]
  simp only [State.scheduled, ← h2]

/-- The next state of a command whose checks pass and that completes at once. -/
theorem exec_atOnce {i : Instr} {s : State} (h : ReadyAtOnce s) (hc : checkOf i s.arg0 s.arg1 s = none) :
    exec i s = .next { effectOf i s.arg0 s.arg1 s with done := true, delays := s.delays.tail } := by
  rw [exec_eq_issue, issue_atOnce h hc, finish_accept i h.1]

end Sys2Proof.Machine
end

