-- ==== Sys2Proof/Laws/Step.lean ====
section
/-!
SUPPORT. What a step can do, said once: the completion, each host event, the presentation of a command and the reset.
And that every operation over the banks keeps the canonical form of the memory.
-/
namespace Sys2Proof.Machine

/-! ## Which event comes next -/

theorem completionDue_of_idle {s : State} (h : s.seq = .idle) : completionDue s = false := by
  simp [completionDue, h]

theorem busy_of_completionDue {s : State} (h : completionDue s = true) :
    ∃ i a0 a1 left, s.seq = .busy i a0 a1 left := by
  unfold completionDue at h
  cases hs : s.seq with
  | idle => simp [hs] at h
  | busy i a0 a1 left => exact ⟨i, a0, a1, left, rfl⟩

/-- A step is the completion that is due, or the host's next event, or nothing. -/
theorem step_cases (s : State) :
    (completionDue s = true ∧ step s = .next (complete s)) ∨
    (completionDue s = false ∧ s.bus = [] ∧ step s = .next s) ∨
    (∃ op rest, completionDue s = false ∧ s.bus = op :: rest ∧ step s = perform op (takeOp rest s)) := by
  unfold step
  cases hd : completionDue s with
  | true => exact .inl ⟨rfl, rfl⟩
  | false =>
    cases hb : s.bus with
    | nil => exact .inr (.inl ⟨rfl, rfl, rfl⟩)
    | cons op rest => exact .inr (.inr ⟨op, rest, rfl, rfl, rfl⟩)

/-! ## The completion -/

theorem complete_idle {s : State} (h : s.seq = .idle) : complete s = s := by
  simp [complete, h]

theorem complete_busy {s : State} {i : Instr} {a0 a1 : Word} {left : Nat} (h : s.seq = .busy i a0 a1 left) :
    complete s = finish (effectOf i) a0 a1 s := by
  simp [complete, h]

/-! ## The presentation of a command -/

/-- A presented word is rejected with BUSY, or rejected with ILLEGAL_CMD, or issued as the command it decodes to. -/
theorem present_cases (w : Word) (s : State) :
    (s.busy = true ∧ present w s = .next (reject w .busy s)) ∨
    (s.busy = false ∧ (∃ e, decode w = .error e) ∧ present w s = .next (reject w .illegalCmd s)) ∨
    (∃ i, s.busy = false ∧ decode w = .ok i ∧ present w s = .next (issue i (checkOf i) (effectOf i) s)) := by
  unfold present
  cases hb : s.busy with
  | true => exact .inl ⟨rfl, by simp⟩
  | false =>
    cases hd : decode w with
    | error e => exact .inr (.inl ⟨rfl, ⟨e, rfl⟩, by simp⟩)
    | ok i => exact .inr (.inr ⟨i, rfl, rfl, by simp [exec_eq_issue]⟩)

/-! ## The host's events -/

/-- A host write presents a command, or writes STATUS, IRQEN, ARG0, ARG1 or the banks, or does nothing. -/
theorem hostWrite_cases (addr v : Word) (be : BitVec 4) (s : State) :
    hostWrite addr v be s = present v s ∨ hostWrite addr v be s = .next (writeStatus v s) ∨
    hostWrite addr v be s = .next (writeIrqen v s) ∨ hostWrite addr v be s = .next { s with arg0 := v } ∨
    hostWrite addr v be s = .next { s with arg1 := v } ∨
    (∃ off, placeOf addr = .data off ∧ hostWrite addr v be s = .next (dataWrite off v s)) ∨
    hostWrite addr v be s = .next s := by
  unfold hostWrite
  split
  · cases hp : placeOf addr with
    | csr off =>
      simp only [csrWrite]
      split
      · simp
      · split
        · simp
        · split
          · simp
          · split
            · simp
            · split <;> simp
    | node off => simp
    | twiddle off => simp
    | data off => simp
    | unmapped => simp
  · simp

/-- A dropped write changes nothing (R90). -/
theorem hostWrite_partial {addr v : Word} {be : BitVec 4} (h : be ≠ 0b1111) (s : State) :
    hostWrite addr v be s = .next s := by
  rw [hostWrite, if_neg h]

theorem dataWrite_in {off : Nat} {s : State} (h : off < dataPopulated s.build) (v : Word) :
    dataWrite off v s = s.storeBytes (dataBase + off) v.toNat 4 := by
  simp [dataWrite, h]

theorem dataWrite_out {off : Nat} {s : State} (h : ¬ off < dataPopulated s.build) (v : Word) :
    dataWrite off v s = s := by
  simp [dataWrite, h]

/-- The address of an aligned word is a multiple of 4 not above the address given (R89). -/
theorem alignedAddr_spec (addr : Word) :
    alignedAddr addr % 4 = 0 ∧ alignedAddr addr ≤ addr.toNat ∧ addr.toNat < alignedAddr addr + 4 := by
  unfold alignedAddr
  omega

/-- The place of an address in the DATA region (R82). -/
theorem placeOfNat_data {a off : Nat} :
    placeOfNat a = .data off ↔ dataBase ≤ a ∧ a < dataBase + dataSize ∧ off = a - dataBase := by
  unfold placeOfNat csrSize nodeBase nodeSize twiddleBase twiddleSize dataBase dataSize
  split
  · simp only [reduceCtorEq, false_iff]
    omega
  · split
    · simp only [reduceCtorEq, false_iff]
      omega
    · split
      · simp only [reduceCtorEq, false_iff]
        omega
      · split
        · simp only [Place.data.injEq]
          omega
        · simp only [reduceCtorEq, false_iff]
          omega

/-! ## The reset -/

theorem resetEvent_idle {s : State} (h : s.seq = .idle) : resetEvent s = resetIdle s := by
  simp [resetEvent, h]

theorem resetEvent_busy {s : State} {i : Instr} {a0 a1 : Word} {left : Nat} (h : s.seq = .busy i a0 a1 left) :
    resetEvent s = resetBusy i a0 a1 s := by
  simp [resetEvent, h]

@[simp] theorem resetOf_build (b : Build) : (State.resetOf b).build = b := rfl

@[simp] theorem forgetSpan_build (s : State) (w : BankSpan) : (forgetSpan s w).build = s.build := by
  simp [forgetSpan]

theorem forgetSpans_build (ws : List BankSpan) (s : State) : (ws.foldl forgetSpan s).build = s.build := by
  induction ws generalizing s with
  | nil => rfl
  | cons w ws ih => simp [ih]

/-- A reset leaves the build alone and the sequencer idle (R6, R58). -/
theorem resetEvent_build (s : State) : (resetEvent s).build = s.build ∧ (resetEvent s).seq = .idle := by
  cases h : s.seq with
  | idle => rw [resetEvent_idle h]; exact ⟨rfl, rfl⟩
  | busy i a0 a1 left =>
    rw [resetEvent_busy h]
    refine ⟨?_, rfl⟩
    show (forgetContext _ _).build = s.build
    unfold forgetContext
    split
    · exact forgetSpans_build _ _
    · exact forgetSpans_build _ _

/-! ## Every operation over the banks keeps the canonical form of the memory -/

theorem wf_storeBytes {s : State} (a v n : Nat) (h : Memory.wf s.mem) : Memory.wf (s.storeBytes a v n).mem :=
  Memory.wf_putBytes _ _ _ h

theorem wf_setSample {s : State} (b j : Nat) (v : Sample) (h : Memory.wf s.mem) : Memory.wf (s.setSample b j v).mem :=
  wf_storeBytes _ _ _ h

theorem wf_storeDest {s : State} (ys : List (Cpx Sample)) (h : Memory.wf s.mem) : Memory.wf (storeDest ys s).mem :=
  State.wf_setBlock _ _ _ (State.wf_setBlock _ _ _ h)

theorem wf_productAt {s : State} (a b c d : Nat) (g : Sign) (k : Nat) (h : Memory.wf s.mem) :
    Memory.wf (productAt a b c d g s k).mem := wf_setSample _ _ _ (wf_setSample _ _ _ h)

theorem wf_emit {s : State} (c ob oo : Nat) (h : Memory.wf s.mem) : Memory.wf (emit c ob oo s).mem :=
  State.wf_setBlock _ _ _ h

theorem wf_dataWrite {s : State} (off : Nat) (v : Word) (h : Memory.wf s.mem) : Memory.wf (dataWrite off v s).mem := by
  unfold dataWrite
  split
  · exact wf_storeBytes _ _ _ h
  · exact h

theorem wf_forgetSpan {s : State} (w : BankSpan) (h : Memory.wf s.mem) : Memory.wf (forgetSpan s w).mem :=
  State.wf_setBlock _ _ _ h

/-- The memory after reset has the canonical form. -/
theorem reset_wf (b : Build) : Memory.wf (State.resetOf b).mem := List.Pairwise.nil

/-! ## What the checks read -/

/-- The checks of a command read the build, the facade and the contexts only (R180, R240). -/
theorem checkOf_congr {s t : State} (hb : s.build = t.build) (hf : s.facade = t.facade) (hc : s.ctxs = t.ctxs)
    (i : Instr) (a0 a1 : Word) : checkOf i a0 a1 s = checkOf i a0 a1 t := by
  obtain ⟨⟩ := s
  obtain ⟨⟩ := t
  simp only at hb hf hc
  subst hb hf hc
  cases i <;> rfl

end Sys2Proof.Machine
end

