-- ==== Sys2Proof/Laws/Invariant.lean ====
section
/-!
SUPPORT. The invariant of the data (memory, error fields, facade, node table, contexts): what the checks of a command
say, and that the effect of a command whose checks pass keeps it.
-/
namespace Sys2Proof.Machine

/-! ## The configuration of the contexts -/

/-- What the context invariants speak of: everything of a context but its memories (R53). -/
def Context.config (x : Context) : ContextKind × Nat × Nat × Nat × Nat := (x.st, x.master, x.klen, x.blk, x.lgfft)

theorem Context.config_eq_iff {x y : Context} :
    x.config = y.config ↔ x.st = y.st ∧ x.master = y.master ∧ x.klen = y.klen ∧ x.blk = y.blk ∧ x.lgfft = y.lgfft := by
  simp [Context.config]

/-- The context invariants depend on the build and the configurations only. -/
theorem contextsOk_congr {s t : State} (hb : t.build = s.build) (hl : t.ctxs.length = s.ctxs.length)
    (hc : ∀ d, (t.ctx d).config = (s.ctx d).config) (h : ContextsOk s) : ContextsOk t := by
  have e : ∀ d, (t.ctx d).st = (s.ctx d).st ∧ (t.ctx d).master = (s.ctx d).master ∧ (t.ctx d).klen = (s.ctx d).klen ∧
      (t.ctx d).blk = (s.ctx d).blk ∧ (t.ctx d).lgfft = (s.ctx d).lgfft := fun d => Context.config_eq_iff.1 (hc d)
  refine ⟨by rw [hl, hb, h.1], ?_⟩
  intro c hcn
  rw [hb] at hcn
  have := h.2 c hcn
  unfold ContextOk at this ⊢
  simp only [(e _).1, (e _).2.1, (e _).2.2.1, (e _).2.2.2.1, (e _).2.2.2.2, hb]
  exact this

theorem config_setCtx {s : State} {c : Nat} {x : Context} (h : x.config = (s.ctx c).config) (d : Nat) :
    ((s.setCtx c x).ctx d).config = (s.ctx d).config := by
  by_cases hd : d = c
  · subst hd
    by_cases hl : d < s.ctxs.length
    · rw [State.ctx_setCtx_same _ _ _ hl, h]
    · simp [State.ctx, State.setCtx, hl]
  · rw [State.ctx_setCtx_ne _ _ hd]

theorem config_setAcc (c : Nat) (vs : List Sample) (s : State) (d : Nat) :
    ((setAcc c vs s).ctx d).config = (s.ctx d).config := config_setCtx (by rfl) d

theorem config_kspec (c kb : Nat) (s : State) (d : Nat) : ((kspec c kb s).ctx d).config = (s.ctx d).config :=
  config_setCtx (by rfl) d

theorem ctx_congr {s t : State} (h : t.ctxs = s.ctxs) (d : Nat) : t.ctx d = s.ctx d := by simp [State.ctx, h]

theorem config_emit (c ob oo : Nat) (s : State) (d : Nat) : ((emit c ob oo s).ctx d).config = (s.ctx d).config := by
  unfold emit
  rw [config_setAcc, ctx_congr (s := s) (by simp)]

theorem ctxs_length_setAcc (c : Nat) (vs : List Sample) (s : State) : (setAcc c vs s).ctxs.length = s.ctxs.length := by
  simp [setAcc]

theorem ctxs_length_emit (c ob oo : Nat) (s : State) : (emit c ob oo s).ctxs.length = s.ctxs.length := by
  unfold emit
  rw [ctxs_length_setAcc]
  simp

theorem configureContext_length (c kb : Nat) (st : ContextKind) (m l b lg : Nat) (s : State) :
    (configureContext c kb st m l b lg s).ctxs.length = s.ctxs.length := by
  simp [configureContext, clearAcc, setAcc, kspec]

theorem config_configureContext {s : State} {c : Nat} (h : c < s.ctxs.length) (kb : Nat) (st : ContextKind)
    (m l b lg d : Nat) :
    ((configureContext c kb st m l b lg s).ctx d).config = if d = c then (st, m, l, b, lg) else (s.ctx d).config := by
  unfold configureContext clearAcc
  rw [config_setAcc, config_kspec]
  split
  · rename_i hd; subst hd; rw [State.ctx_setCtx_same _ _ _ h]; rfl
  · rename_i hd; rw [State.ctx_setCtx_ne _ _ hd]

/-- No context is a slave of c when the count of slaves is 0. -/
theorem nslaves_eq_zero_iff (s : State) (c : Nat) : s.nslaves c = 0 ↔ ∀ d, ¬ SlaveOf s c d := by
  unfold State.nslaves SlaveOf
  rw [List.countP_eq_zero]
  constructor
  · intro h d hd
    apply h (s.ctxs[d]'hd.1) (List.getElem_mem _)
    have : s.ctx d = s.ctxs[d]'hd.1 := by simp [State.ctx, hd.1]
    rw [← this]
    simp [hd.2.1, hd.2.2]
  · intro h x hx hp
    obtain ⟨d, hd, rfl⟩ := List.getElem_of_mem hx
    apply h d
    have : s.ctx d = s.ctxs[d] := by simp [State.ctx, hd]
    rw [this]
    simpa [hd] using hp

/-! ## The memory stays inside the populated banks -/

theorem memoryOk_setBlock {s : State} (hM : MemoryOk s) {bank j0 : Nat} {vs : List Sample}
    (hb : bank < s.build.nbank) (hj : j0 + vs.length ≤ s.build.nmax) : MemoryOk (s.setBlock bank j0 vs) := by
  refine ⟨State.wf_setBlock _ _ _ hM.1, ?_⟩
  intro c hc
  rw [State.setBlock_build]
  rcases State.addr_of_mem_setBlock hc with h | ⟨h1, h2⟩
  · exact hM.2 c h
  · have h3 := sampleAddr_bound s.build hb hj
    have h4 : dataBase ≤ sampleAddr s.build bank j0 := by unfold sampleAddr; omega
    unfold dataPopulated
    omega

theorem memoryOk_congr {s t : State} (hb : t.build = s.build) (hm : t.mem = s.mem) (h : MemoryOk s) : MemoryOk t := by
  unfold MemoryOk at *
  rw [hb, hm]; exact h

theorem memoryOk_storeDest {s : State} (hM : MemoryOk s) {ys : List (Cpx Sample)} (hr : s.facade.yr < s.build.nbank)
    (hi : s.facade.yi < s.build.nbank) (hn : ys.length ≤ s.build.nmax) : MemoryOk (storeDest ys s) := by
  unfold storeDest
  apply memoryOk_setBlock
  · exact memoryOk_setBlock hM hr (by simpa using hn)
  · simpa using hi
  · simpa using hn

theorem setSample_eq_setBlock (s : State) (b j : Nat) (v : Sample) : s.setSample b j v = s.setBlock b j [v] := rfl

theorem memoryOk_productAt {s : State} (hM : MemoryOk s) {xr xi yr yi k : Nat} (g : Sign) (hr : yr < s.build.nbank)
    (hi : yi < s.build.nbank) (hk : k < s.build.nmax) : MemoryOk (productAt xr xi yr yi g s k) := by
  unfold productAt
  dsimp only
  rw [setSample_eq_setBlock, setSample_eq_setBlock]
  apply memoryOk_setBlock
  · exact memoryOk_setBlock hM hr (by simpa using hk)
  · simpa using hi
  · simpa using hk

theorem memoryOk_product {xr xi yr yi : Nat} (g : Sign) (l : List Nat) {s : State} (hM : MemoryOk s)
    (hr : yr < s.build.nbank) (hi : yi < s.build.nbank) (hl : ∀ k ∈ l, k < s.build.nmax) :
    MemoryOk (l.foldl (productAt xr xi yr yi g) s) := by
  induction l generalizing s with
  | nil => exact hM
  | cons k l ih =>
    have hb : (productAt xr xi yr yi g s k).build = s.build := by simp [productAt]
    exact ih (memoryOk_productAt hM g hr hi (hl k (by simp))) (by rwa [hb]) (by rwa [hb])
      (fun j hj => by rw [hb]; exact hl j (by simp [hj]))

theorem memoryOk_emit {s : State} (hM : MemoryOk s) {c ob oo : Nat} (ho : ob < s.build.nbank)
    (hn : oo + (s.ctx c).blk ≤ s.build.nmax) : MemoryOk (emit c ob oo s) := by
  have : MemoryOk (s.setBlock ob oo ((accOf s c).take (s.ctx c).blk)) :=
    memoryOk_setBlock hM ho (by rw [List.length_take]; omega)
  exact memoryOk_congr (by simp) rfl this

theorem memoryOk_dataWrite {s : State} (hM : MemoryOk s) {off : Nat} (v : Word) (h4 : off % 4 = 0) :
    MemoryOk (dataWrite off v s) := by
  unfold dataWrite
  split
  · rename_i ho
    refine ⟨wf_storeBytes _ _ _ hM.1, ?_⟩
    intro c hc
    rcases Memory.addr_of_mem_putBytes hc with h | ⟨h1, h2⟩
    · exact hM.2 c h
    · refine ⟨by omega, ?_⟩
      have : dataPopulated s.build % 4 = 0 := by
        unfold dataPopulated Build.wb Prec.width
        cases s.build.prec with
        | binary32 => simp
        | binary64 => simp; omega
      show c.1 < dataBase + dataPopulated s.build
      omega
  · exact hM

/-! ## What the checks say -/

theorem checkLg_iff (b : Build) (lg : Nat) : checkLg b lg = true ↔ 3 ≤ lg ∧ lg ≤ b.log2nMax := by
  simp [checkLg]

theorem checkLink_iff (b : Build) (xr xi yr yi : Nat) : checkLink b xr xi yr yi = true ↔ LinkLegal b xr xi yr yi := by
  simp only [checkLink, LinkLegal, bankOk, Bool.and_eq_true, decide_eq_true_eq, bne_iff_ne]
  tauto

theorem nfftLg_spec {b : Build} {l bl lg : Nat} (h : nfftLg b l bl = some lg) :
    1 ≤ l ∧ 1 ≤ bl ∧ l + bl - 1 ≤ 2 ^ lg ∧ 3 ≤ lg ∧ lg ≤ b.log2nMax := by
  unfold nfftLg at h
  split at h
  · cases h
  · have h1 := List.find?_some h
    have h2 := List.mem_of_find?_eq_some h
    simp only [Bool.and_eq_true, decide_eq_true_eq, List.mem_range] at h1 h2
    omega

/-- The invariant but for the running command. -/
abbrev DataInv (s : State) : Prop :=
  s.build.valid ∧ MemoryOk s ∧ ErrorsOk s ∧ FacadeOk s ∧ NodesOk s ∧ ContextsOk s

theorem FacadeOk.lg_le {s : State} (h : FacadeOk s) : 2 ^ s.facade.lg ≤ s.build.nmax := by
  unfold Build.nmax
  apply Nat.pow_le_pow_right (by omega)
  cases hc : s.facade.configured with
  | true => exact ((checkLg_iff _ _).1 (h.1 hc)).2
  | false => rw [(h.2.1 hc).1]; omega

theorem ContextsOk.blk_le {s : State} (h : ContextsOk s) {c : Nat} (hc : c < s.build.nctx) :
    (s.ctx c).blk ≤ s.build.nmax ∧ (s.ctx c).blk ≤ 2 ^ (s.ctx c).lgfft := by
  have hk := h.2 c hc
  by_cases hf : (s.ctx c).st = .free
  · rw [(hk.1 hf).2.1]; exact ⟨Nat.zero_le _, Nat.zero_le _⟩
  · have h4 := hk.2.2.2 hf
    have h5 : 2 ^ (s.ctx c).lgfft ≤ s.build.nmax := Nat.pow_le_pow_right (by omega) h4.2.2.2
    omega

/-- Configuring a context that is no master keeps the context invariants, if its new configuration meets its own. -/
theorem contextsOk_configure {s t : State} (hC : ContextsOk s) {c : Nat}
    (hs : ∀ d, ¬ SlaveOf s c d) {st : ContextKind} {m l b lg : Nat} (hb : t.build = s.build)
    (hl : t.ctxs.length = s.ctxs.length)
    (ht : ∀ d, (t.ctx d).config = if d = c then (st, m, l, b, lg) else (s.ctx d).config)
    (hok : ContextOk t c) : ContextsOk t := by
  refine ⟨by rw [hl, hb, hC.1], ?_⟩
  intro d hd
  rw [hb] at hd
  by_cases hdc : d = c
  · rwa [hdc]
  · have e : ∀ d, d ≠ c → _ := fun d hd => Context.config_eq_iff.1 ((ht d).trans (if_neg hd))
    have hd' := hC.2 d hd
    have e1 := e d hdc
    unfold ContextOk at hd' ⊢
    rw [e1.1, e1.2.1, e1.2.2.1, e1.2.2.2.1, e1.2.2.2.2, hb]
    refine ⟨hd'.1, hd'.2.1, ?_, hd'.2.2.2⟩
    intro hsl
    have h3 := hd'.2.2.1 hsl
    have hm : (s.ctx d).master ≠ c := fun hm => hs d ⟨by rw [hC.1]; exact hd, hsl, hm⟩
    have e2 := e _ hm
    rw [e2.1, e2.2.2.1, e2.2.2.2.2]
    exact h3

/-- A change of the contexts and the memory that keeps their own invariants keeps the whole. -/
theorem DataInv.change {s t : State} (h : DataInv s) (ht : t = { s with ctxs := t.ctxs, mem := t.mem })
    (hM : MemoryOk t) (hC : ContextsOk t) : DataInv t := by
  obtain ⟨hV, -, hE, hF, hN, -⟩ := h
  refine ⟨?_, hM, ?_, ?_, ?_, hC⟩
  · rw [ht]; exact hV
  · rw [ht]; exact hE
  · rw [ht]; exact hF
  · rw [ht]; exact hN

theorem storeDest_eq (ys : List (Cpx Sample)) (s : State) :
    storeDest ys s = { s with mem := (storeDest ys s).mem } := by
  unfold storeDest
  rw [State.setBlock_eq, State.setBlock_eq s]

theorem DataInv.storeDest {s : State} (h : DataInv s) {ys : List (Cpx Sample)}
    (hl : s.facade.linked = true) (hn : ys.length = 2 ^ s.facade.lg) : DataInv (storeDest ys s) := by
  have hL := (checkLink_iff _ _ _ _ _).1 (h.2.2.2.1.2.2.1 hl)
  refine h.change ((storeDest_eq ys s).trans (by simp)) (memoryOk_storeDest h.2.1 hL.1.2.2.1 hL.1.2.2.2 (hn ▸ h.2.2.2.1.lg_le)) ?_
  exact contextsOk_congr (by simp) (by simp) (fun d => by rw [ctx_congr (s := s) (by simp)]) h.2.2.2.2.2

theorem DataInv.bind {s : State} (h : DataInv s) {xr xi yr yi : Nat} (hc : s.facade.configured = true)
    (hl : checkLink s.build xr xi yr yi = true) : DataInv (bind xr xi yr yi s) := by
  obtain ⟨hV, hM, hE, hF, hN, hC⟩ := h
  exact ⟨hV, hM, hE, ⟨hF.1, fun h => by simp [Machine.bind, hc] at h, fun _ => hl,
      fun h => by simp [Machine.bind] at h⟩, hN, hC⟩

theorem foldl_productAt_eq (xr xi yr yi : Nat) (g : Sign) (l : List Nat) (s : State) :
    l.foldl (productAt xr xi yr yi g) s = { s with mem := (l.foldl (productAt xr xi yr yi g) s).mem } := by
  induction l generalizing s with
  | nil => rfl
  | cons k l ih => rw [List.foldl_cons, ih]; rfl

theorem emit_eq (c ob oo : Nat) (s : State) :
    emit c ob oo s = { s with ctxs := (emit c ob oo s).ctxs, mem := (emit c ob oo s).mem } := by
  unfold emit setAcc State.setCtx
  dsimp only
  rw [State.setBlock_eq]

theorem DataInv.emit {s : State} (h : DataInv s) {c ob oo : Nat} (ho : ob < s.build.nbank)
    (hn : oo + (s.ctx c).blk ≤ s.build.nmax) : DataInv (emit c ob oo s) :=
  h.change (emit_eq c ob oo s) (memoryOk_emit h.2.1 ho hn)
    (contextsOk_congr (by simp) (ctxs_length_emit _ _ _ _) (config_emit c ob oo s) h.2.2.2.2.2)

theorem DataInv.setAcc {s : State} (h : DataInv s) (c : Nat) (vs : List Sample) : DataInv (setAcc c vs s) :=
  h.change rfl h.2.1 (contextsOk_congr (s := s) rfl (ctxs_length_setAcc _ _ _) (config_setAcc c vs s) h.2.2.2.2.2)

/-- The effect of a command whose checks pass keeps the invariant of the data. -/
theorem effect_keeps {i : Instr} {a0 a1 : Word} {s : State} (h : DataInv s) (hc : checkOf i a0 a1 s = none) :
    DataInv (effectOf i a0 a1 s) := by
  have hC := h.2.2.2.2.2
  cases i with
  | nop => exact h
  | cfg lg =>
    simp only [checkOf, checkCfg, firstFail_eq_none_iff, List.mem_singleton, forall_eq] at hc
    obtain ⟨hV, hM, hE, hF, hN, hC⟩ := h
    exact ⟨hV, hM, hE, ⟨fun _ => hc, fun h => by simp [effectOf, effectCfg, configure] at h,
      fun h => by simp [effectOf, effectCfg, configure] at h, fun _ => ⟨rfl, rfl, rfl, rfl⟩⟩, rfl, hC⟩
  | link xr xi yr yi =>
    simp only [checkOf, checkLinkCmd, linkChecks, firstFail_eq_none_iff, List.mem_cons, List.not_mem_nil, or_false,
      forall_eq_or_imp, forall_eq] at hc
    exact h.bind hc.1 hc.2
  | cfgl xr xi yr yi lg =>
    simp only [checkOf, checkCfgl, firstFail_eq_none_iff, List.mem_cons, List.not_mem_nil, or_false,
      forall_eq_or_imp, forall_eq] at hc
    obtain ⟨hV, hM, hE, hF, hN, hC⟩ := h
    exact ⟨hV, hM, hE, ⟨fun _ => hc.1, fun h => by simp [effectOf, effectCfgl, Machine.bind, configure] at h,
      fun _ => hc.2, fun h => by simp [effectOf, effectCfgl, Machine.bind] at h⟩, rfl, hC⟩
  | fwd =>
    simp only [checkOf, checkFwd, evaluationChecks, firstFail_eq_none_iff, List.mem_cons, List.not_mem_nil, or_false,
      forall_eq_or_imp, forall_eq] at hc
    exact h.storeDest hc.2 (Arith.fwd_length _ _ _)
  | inv =>
    simp only [checkOf, checkInv, evaluationChecks, firstFail_eq_none_iff, List.mem_cons, List.not_mem_nil, or_false,
      forall_eq_or_imp, forall_eq] at hc
    exact h.storeDest hc.2 (Arith.inverse_length _ _ _)
  | fwdl xr xi yr yi =>
    simp only [checkOf, checkFwdl, linkChecks, firstFail_eq_none_iff, List.mem_cons, List.not_mem_nil, or_false,
      forall_eq_or_imp, forall_eq] at hc
    exact (h.bind hc.1 hc.2).storeDest rfl (Arith.fwd_length _ _ _)
  | invl xr xi yr yi =>
    simp only [checkOf, checkInvl, linkChecks, firstFail_eq_none_iff, List.mem_cons, List.not_mem_nil, or_false,
      forall_eq_or_imp, forall_eq] at hc
    exact (h.bind hc.1 hc.2).storeDest rfl (Arith.inverse_length _ _ _)
  | prod xr xi yr yi sign =>
    simp only [checkOf, checkProd, firstFail_eq_none_iff, List.mem_cons, List.not_mem_nil, or_false,
      forall_eq_or_imp, forall_eq, bankOk, Bool.and_eq_true, decide_eq_true_eq] at hc
    have he : effectOf (.prod xr xi yr yi sign) a0 a1 s =
        { s with mem := (effectOf (.prod xr xi yr yi sign) a0 a1 s).mem } := foldl_productAt_eq ..
    refine h.change (he.trans (by rw [he])) (memoryOk_product sign _ h.2.1 hc.1.1.2 hc.1.2 ?_) ?_
    · intro k hk
      have := List.mem_range.1 hk
      omega
    · exact contextsOk_congr (s := s) (by rw [he]) (by rw [he]) (fun d => by rw [ctx_congr (s := s) (by rw [he])]) hC
  | ocfg c kb =>
    simp only [checkOf, checkOcfg, firstFail_eq_none_iff, List.mem_cons, List.not_mem_nil, or_false,
      forall_eq_or_imp, forall_eq, bankOk, contextOk, noSlaves, decide_eq_true_eq, beq_iff_eq,
      Option.isSome_iff_exists] at hc
    obtain ⟨hcn, hsl, hkb, lg, hlg⟩ := hc
    have hlen : c < s.ctxs.length := hC.1 ▸ hcn
    have hd := nfftLg_spec hlg
    have ht := config_configureContext hlen kb .owner 0 a0.toNat a1.toNat lg
    rw [show effectOf (.ocfg c kb) a0 a1 s = configureContext c kb .owner 0 a0.toNat a1.toNat lg s by
      simp [effectOf, effectOcfg, hlg]]
    refine h.change rfl h.2.1 (contextsOk_configure hC ((nslaves_eq_zero_iff _ _).1 hsl) rfl
      (configureContext_length ..) ht ?_)
    have e := (ht c).trans (if_pos rfl)
    simp only [Context.config, Prod.mk.injEq] at e
    unfold ContextOk
    simp only [e.1, e.2.1, e.2.2.1, e.2.2.2.1, e.2.2.2.2, configureContext_build]
    exact ⟨fun h => by simp at h, fun _ => ⟨hlg, trivial⟩, fun h => by simp at h, fun _ => ⟨hd.1, hd.2.1, hd.2.2.1, hd.2.2.2.2⟩⟩
  | ocfgs c m kb =>
    simp only [checkOf, checkOcfgs, firstFail_eq_none_iff, List.mem_cons, List.not_mem_nil, or_false,
      forall_eq_or_imp, forall_eq, bankOk, contextOk, noSlaves, contextInUse, decide_eq_true_eq, beq_iff_eq,
      bne_iff_ne, Bool.and_eq_true] at hc
    obtain ⟨hcn, hmn, hmc, hsl, hmf, hms, hkb, hkl, hb1, hb2⟩ := hc
    have hlen : c < s.ctxs.length := hC.1 ▸ hcn
    have hmo : (s.ctx m).st = .owner := by cases hst : (s.ctx m).st <;> simp_all
    have hm4 := (hC.2 m hmn).2.2.2 hmf
    have ht := config_configureContext hlen kb .slave m a0.toNat a1.toNat (s.ctx m).lgfft
    refine h.change rfl h.2.1 (contextsOk_configure hC ((nslaves_eq_zero_iff _ _).1 hsl) rfl
      (configureContext_length ..) ht ?_)
    have e := (ht c).trans (if_pos rfl)
    have e2 := Context.config_eq_iff.1 ((ht m).trans (if_neg hmc))
    simp only [Context.config, Prod.mk.injEq] at e
    unfold ContextOk
    show _ ∧ _ ∧ _ ∧ _
    simp only [effectOf, effectOcfgs, e.1, e.2.1, e.2.2.1, e.2.2.2.1, e.2.2.2.2, e2, configureContext_build]
    refine ⟨fun h => by simp at h, fun h => by simp at h, fun _ => ⟨hmn, hmc, hmo, hkl, trivial⟩, fun _ =>
      ⟨by omega, hb1, hb2, hm4.2.2.2⟩⟩
  | oflt c ib ob =>
    simp only [checkOf, checkOflt, firstFail_eq_none_iff, List.mem_cons, List.not_mem_nil, or_false,
      forall_eq_or_imp, forall_eq, bankOk, contextOk, contextInUse, offsetOk, decide_eq_true_eq, bne_iff_ne,
      Bool.and_eq_true] at hc
    have hb := (hC.blk_le hc.1).1
    refine (h.setAcc c _).emit hc.2.2.1.2 ?_
    have := (Context.config_eq_iff.1 (config_setAcc c (List.zipWith (fadd s.build.prec) (accOf s c)
      ((arithOf s.build).olaBlock (s.ctx c).lgfft (spectrumOf s c) (s.block ib a0.toNat (s.ctx c).blk))) s c)).2.2.2.1
    rw [this]
    show _ ≤ s.build.nmax
    omega
  | ofls c ob =>
    simp only [checkOf, checkOfls, firstFail_eq_none_iff, List.mem_cons, List.not_mem_nil, or_false,
      forall_eq_or_imp, forall_eq, bankOk, contextOk, contextInUse, offsetOk, decide_eq_true_eq, bne_iff_ne] at hc
    have hb := (hC.blk_le hc.1).1
    exact h.emit hc.2.2.1 (by omega)
  | oini c => exact h.setAcc c _
  | oclr c =>
    simp only [checkOf, checkOclr, firstFail_eq_none_iff, List.mem_cons, List.not_mem_nil, or_false,
      forall_eq_or_imp, forall_eq, contextOk, noSlaves, decide_eq_true_eq, beq_iff_eq] at hc
    have hlen : c < s.ctxs.length := hC.1 ▸ hc.1
    have ht : ∀ d, ((effectOf (.oclr c) a0 a1 s).ctx d).config = if d = c then (.free, 0, 0, 0, 0) else (s.ctx d).config := by
      intro d
      simp only [effectOf, effectOclr]
      split
      · rename_i hd; subst hd; rw [State.ctx_setCtx_same _ _ _ hlen]; rfl
      · rename_i hd; rw [State.ctx_setCtx_ne _ _ hd]
    refine h.change rfl h.2.1 (contextsOk_configure hC ((nslaves_eq_zero_iff _ _).1 hc.2) rfl
      (by simp [effectOf, effectOclr]) ht ?_)
    have e := (ht c).trans (if_pos rfl)
    simp only [Context.config, Prod.mk.injEq] at e
    unfold ContextOk
    simp [e.1, e.2.1, e.2.2.1, e.2.2.2.1, e.2.2.2.2]

end Sys2Proof.Machine
end

