-- ==== Sys2Proof/Laws/Contexts.lean ====
section
/-!
SUPPORT. What each operation over the contexts and the destination banks does, said once: entry by entry of the context
memories, sample by sample of the banks.
-/
namespace Sys2Proof.Machine

/-! ## Lists -/

theorem getD_overwrite (old vs : List Sample) (j : Nat) (d : Sample) :
    (overwrite old vs).getD j d = if j < vs.length then vs.getD j d else old.getD j d := by
  unfold overwrite
  simp only [List.getD_eq_getElem?_getD]
  split
  · rename_i h
    rw [List.getElem?_append_left h]
  · rename_i h
    rw [List.getElem?_append_right (by omega), List.getElem?_drop]
    congr 2
    omega

theorem getD_of_lt {vs : List Sample} {j : Nat} (h : j < vs.length) (d d' : Sample) : vs.getD j d = vs.getD j d' := by
  simp [h]

theorem mem_overwrite {old vs : List Sample} {v : Sample} (h : v ∈ overwrite old vs) : v ∈ vs ∨ v ∈ old := by
  unfold overwrite at h
  rcases List.mem_append.1 h with h | h
  · exact .inl h
  · exact .inr (List.mem_of_mem_drop h)

/-! ## The accumulator -/

theorem unwrittenEntry_congr {s t : State} (he : t.epoch = s.epoch) (hb : t.build = s.build) (c w j : Nat) :
    t.unwrittenEntry c w j = s.unwrittenEntry c w j := by
  simp [State.unwrittenEntry, he, hb]

/-- Setting the accumulator sets its first entries and nothing else (R52). -/
theorem setAcc_spec {s : State} {c : Nat} (hc : c < s.ctxs.length) (vs : List Sample) :
    (setAcc c vs s).ctx c = { s.ctx c with acc := overwrite (s.ctx c).acc vs } ∧
    (∀ d, d ≠ c → (setAcc c vs s).ctx d = s.ctx d) ∧
    ∀ j, (setAcc c vs s).accAt c j = if j < vs.length then vs.getD j plusZero else s.accAt c j := by
  have h1 : (setAcc c vs s).ctx c = { s.ctx c with acc := overwrite (s.ctx c).acc vs } :=
    State.ctx_setCtx_same _ _ _ hc
  refine ⟨h1, fun d hd => State.ctx_setCtx_ne _ _ hd, fun j => ?_⟩
  unfold State.accAt
  rw [h1, unwrittenEntry_congr (s := s) rfl rfl, getD_overwrite]
  split
  · rename_i h; exact getD_of_lt h _ _
  · rfl

theorem accOf_length (s : State) (c : Nat) : (accOf s c).length = 2 ^ (s.ctx c).lgfft := by simp [accOf]

theorem accOf_getD (s : State) (c : Nat) {j : Nat} (h : j < 2 ^ (s.ctx c).lgfft) (d : Sample) :
    (accOf s c).getD j d = s.accAt c j := by
  simp [accOf, h]

/-- Clearing the accumulator sets the entries below the transform size to +0 (R216, R220). -/
theorem clearAcc_spec {s : State} {c : Nat} (hc : c < s.ctxs.length) :
    (clearAcc c s).ctx c = { s.ctx c with acc := ((clearAcc c s).ctx c).acc } ∧
    (∀ d, d ≠ c → (clearAcc c s).ctx d = s.ctx d) ∧
    ∀ j, (clearAcc c s).accAt c j = if j < 2 ^ (s.ctx c).lgfft then plusZero else s.accAt c j := by
  obtain ⟨h1, h2, h3⟩ := setAcc_spec hc (List.replicate (2 ^ (s.ctx c).lgfft) plusZero)
  refine ⟨by unfold clearAcc; rw [h1], h2, fun j => (h3 j).trans ?_⟩
  rw [List.length_replicate]
  split
  · rename_i h; simp
  · rfl

/-- OLA_STEP adds the filtered block to the accumulator, entry by entry (R214). -/
theorem olaStep_spec {s : State} {c : Nat} (hc : c < s.ctxs.length) (ib io : Nat) :
    (olaStep c ib io s).ctx c = { s.ctx c with acc := ((olaStep c ib io s).ctx c).acc } ∧
    (∀ d, d ≠ c → (olaStep c ib io s).ctx d = s.ctx d) ∧
    ∀ j, (olaStep c ib io s).accAt c j =
      if j < 2 ^ (s.ctx c).lgfft then
        fadd s.build.prec (s.accAt c j)
          (((arithOf s.build).olaBlock (s.ctx c).lgfft (spectrumOf s c) (s.block ib io (s.ctx c).blk)).getD j plusZero)
      else s.accAt c j := by
  obtain ⟨h1, h2, h3⟩ := setAcc_spec hc (List.zipWith (fadd s.build.prec) (accOf s c)
    ((arithOf s.build).olaBlock (s.ctx c).lgfft (spectrumOf s c) (s.block ib io (s.ctx c).blk)))
  refine ⟨by unfold olaStep; rw [h1], h2, fun j => (h3 j).trans ?_⟩
  simp only [List.length_zipWith, accOf_length, Arith.olaBlock_length, min_self]
  split
  · rename_i h
    simp [List.getD_eq_getElem?_getD, h, accOf]
  · rfl

/-- EMIT writes the first B accumulator entries to the output block and shifts the accumulator left by B, with +0
behind (R215). -/
theorem emit_spec {s : State} {c : Nat} (hc : c < s.ctxs.length) (ob oo : Nat) (hb : (s.ctx c).blk ≤ 2 ^ (s.ctx c).lgfft) :
    (emit c ob oo s).mem = (s.setBlock ob oo ((accOf s c).take (s.ctx c).blk)).mem ∧
    (emit c ob oo s).ctx c = { s.ctx c with acc := ((emit c ob oo s).ctx c).acc } ∧
    (∀ d, d ≠ c → (emit c ob oo s).ctx d = s.ctx d) ∧
    ∀ j, (emit c ob oo s).accAt c j =
      if j < 2 ^ (s.ctx c).lgfft then
        if j < 2 ^ (s.ctx c).lgfft - (s.ctx c).blk then s.accAt c (j + (s.ctx c).blk) else plusZero
      else s.accAt c j := by
  have hx : ∀ d, (s.setBlock ob oo ((accOf s c).take (s.ctx c).blk)).ctx d = s.ctx d := fun d => ctx_congr (by simp) d
  have hc' : c < (s.setBlock ob oo ((accOf s c).take (s.ctx c).blk)).ctxs.length := by simpa using hc
  obtain ⟨h1, h2, h3⟩ := setAcc_spec hc' ((accOf s c).drop (s.ctx c).blk ++ List.replicate (s.ctx c).blk plusZero)
  refine ⟨rfl, ?_, ?_, ?_⟩
  · unfold emit
    dsimp only
    rw [h1, hx]
  · intro d hd
    exact (h2 d hd).trans (hx d)
  · intro j
    refine (h3 j).trans ?_
    have hl : ((accOf s c).drop (s.ctx c).blk ++ List.replicate (s.ctx c).blk plusZero).length = 2 ^ (s.ctx c).lgfft := by
      simp [accOf_length]; omega
    rw [hl]
    split
    · rename_i hj
      simp only [List.getD_eq_getElem?_getD]
      split
      · rename_i hk
        rw [List.getElem?_append_left (by simp [accOf_length]; omega), List.getElem?_drop, Nat.add_comm]
        rw [← List.getD_eq_getElem?_getD, accOf_getD]
        omega
      · rename_i hk
        rw [List.getElem?_append_right (by simp [accOf_length]; omega)]
        simp only [List.length_drop, accOf_length, List.getElem?_replicate]
        split <;> rfl
    · unfold State.accAt
      rw [hx, unwrittenEntry_congr (s := s) (by simp) (by simp)]

/-! ## The kernel spectrum -/

/-- KSPEC sets the first entries of KR and KI to the kernel spectrum (R212). -/
theorem kspec_spec {s : State} {c : Nat} (hc : c < s.ctxs.length) (kb : Nat) :
    (kspec c kb s).ctx c = { s.ctx c with kr := ((kspec c kb s).ctx c).kr, ki := ((kspec c kb s).ctx c).ki } ∧
    (∀ d, d ≠ c → (kspec c kb s).ctx d = s.ctx d) ∧
    (∀ k < 2 ^ (s.ctx c).lgfft, (⟨(kspec c kb s).krAt c k, (kspec c kb s).kiAt c k⟩ : Cpx Sample) =
      (arithOf s.build).at ((arithOf s.build).kernelSpectrum (s.ctx c).lgfft (s.block kb 0 (s.ctx c).klen)) k) ∧
    ∀ k, 2 ^ (s.ctx c).lgfft ≤ k →
      (kspec c kb s).krAt c k = s.krAt c k ∧ (kspec c kb s).kiAt c k = s.kiAt c k := by
  have h1 : (kspec c kb s).ctx c = _ := State.ctx_setCtx_same _ _ _ hc
  refine ⟨by rw [h1], fun d hd => State.ctx_setCtx_ne _ _ hd, ?_, ?_⟩
  · intro k hk
    unfold State.krAt State.kiAt Arith.at
    rw [h1]
    dsimp only
    rw [getD_overwrite, getD_overwrite]
    simp [hk]
  · intro k hk
    unfold State.krAt State.kiAt
    rw [h1]
    dsimp only
    rw [getD_overwrite, getD_overwrite]
    simp [Nat.not_lt.2 hk, unwrittenEntry_congr (s := s) (t := kspec c kb s) rfl rfl]

/-! ## The destination banks -/

/-- A W-bit pattern is stored whole (R9, R54). -/
theorem ofNat_toNat_mod {b : Build} {v : Sample} (h : v.toNat < 2 ^ b.prec.width) :
    BitVec.ofNat 64 (v.toNat % 256 ^ b.wb) = v := by
  have h2 : 256 ^ b.wb = 2 ^ b.prec.width := by
    unfold Build.wb Prec.width
    cases b.prec <;> rfl
  rw [h2, Nat.mod_eq_of_lt h]
  exact BitVec.ofNat_toNat .. |>.trans (BitVec.setWidth_eq v)

/-- Storing a result into two distinct banks stores every element whole, where it consists of W-bit patterns, and leaves
every other byte (R150). -/
theorem storeDest_spec {s : State} {ys : List (Cpx Sample)} (hd : s.facade.yr ≠ s.facade.yi)
    (hn : ys.length ≤ s.build.nmax)
    (hf : ∀ z ∈ ys, z.re.toNat < 2 ^ s.build.prec.width ∧ z.im.toNat < 2 ^ s.build.prec.width) :
    StoresPair s (storeDest ys s) s.facade.yr s.facade.yi ys.length
      (fun k => ((arithOf s.build).at ys k).re) (fun k => ((arithOf s.build).at ys k).im) := by
  have hat : ∀ k (h : k < ys.length), (arithOf s.build).at ys k = ys[k] := by
    intro k h
    simp [Arith.at, h]
  constructor
  · intro k hk
    have hz := hf _ (List.getElem_mem hk)
    unfold storeDest
    constructor
    · rw [State.sample_setBlock_out _ _ _ _ (by simpa using hn) (by simp; omega) (.inl (by simpa using hd))]
      have := State.sample_setBlock_in s s.facade.yr 0 (ys.map Cpx.re) k (by simpa using hk) (by simpa using hn)
      rw [Nat.zero_add] at this
      rw [this]
      simp only [List.getElem_map]
      rw [ofNat_toNat_mod hz.1, hat k hk]
    · have := State.sample_setBlock_in (s.setBlock s.facade.yr 0 (ys.map Cpx.re)) s.facade.yi 0 (ys.map Cpx.im) k
        (by simpa using hk) (by simpa using hn)
      rw [Nat.zero_add] at this
      rw [this]
      simp only [List.getElem_map, State.setBlock_build]
      rw [ofNat_toNat_mod hz.2, hat k hk]
  · intro a h1 h2
    unfold storeDest
    rw [State.byte_setBlock_out _ _ _ _ (by simpa [OutsideSpan] using h2), State.byte_setBlock_out _ _ _ _ (by simpa [OutsideSpan] using h1)]

end Sys2Proof.Machine
end

