-- ==== Sys2Proof/Laws/Decode.lean ====
section
/-!
SUPPORT. How the match and mask table of spec/30_encoding.md rule R116 relates to the fields of rules R112 to R114: a
word matches a row exactly when the fixed bit ranges of the row's format hold the row's values.
-/
namespace Sys2Proof

/-- Two words agree on a field exactly when they agree on its bits (R11). -/
theorem bits_eq_iff (v w : Word) (hi lo : Nat) :
    bits v hi lo = bits w hi lo ↔ ∀ i, lo ≤ i → i ≤ hi → v.getLsbD i = w.getLsbD i := by
  have key : ∀ (u : Word) (j : Nat), (bits u hi lo).testBit j = (decide (j < hi + 1 - lo) && u.getLsbD (lo + j)) := by
    intro u j
    unfold bits
    rw [← Nat.shiftRight_eq_div_pow, Nat.testBit_mod_two_pow, Nat.testBit_shiftRight, BitVec.testBit_toNat]
  constructor
  · intro h i h1 h2
    have := congrArg (fun n => n.testBit (i - lo)) h
    simpa [key, show lo + (i - lo) = i by omega, show i - lo < hi + 1 - lo by omega] using this
  · intro h
    apply Nat.eq_of_testBit_eq
    intro j
    rw [key, key]
    by_cases hj : j < hi + 1 - lo
    · simp [hj, h (lo + j) (by omega) (by omega)]
    · simp [hj]

/-- A word matches a mask and a pattern exactly when it agrees with the pattern on the ranges the mask covers. -/
theorem and_eq_iff_ranges {m p : Word} (rs : List (Nat × Nat))
    (hm : ∀ i < 32, m.getLsbD i = rs.any (fun r => decide (r.2 ≤ i) && decide (i ≤ r.1)))
    (hr : ∀ r ∈ rs, r.1 < 32) (hp : p &&& m = p) (w : Word) :
    w &&& m = p ↔ ∀ r ∈ rs, bits w r.1 r.2 = bits p r.1 r.2 := by
  simp only [bits_eq_iff]
  constructor
  · intro h r hrs i h1 h2
    have hmi : m.getLsbD i = true := by
      rw [hm i (lt_of_le_of_lt h2 (hr r hrs)), List.any_eq_true]
      exact ⟨r, hrs, by simp [h1, h2]⟩
    rw [← h]
    simp [hmi]
  · intro h
    apply BitVec.eq_of_getLsbD_eq
    intro i hi
    rw [← hp]
    simp only [BitVec.getLsbD_and]
    cases hmi : m.getLsbD i with
    | false => simp
    | true =>
      rw [hm i hi, List.any_eq_true] at hmi
      obtain ⟨r, hrs, hb⟩ := hmi
      simp only [Bool.and_eq_true, decide_eq_true_eq] at hb
      rw [h r hrs i hb.1 hb.2]

theorem matches_nop (w : Word) : w &&& 0xFFFFFFFF = 0x00000000 ↔ bits w 31 0 = 0 := by
  rw [and_eq_iff_ranges [(31, 0)] (by decide) (by decide) (by decide)]
  simp only [List.forall_mem_cons, List.not_mem_nil, false_imp_iff, implies_true, and_true]
  exact Iff.rfl

theorem matches_fwd (w : Word) : w &&& 0xFFFFFFFF = 0x00000004 ↔ bits w 31 0 = 4 := by
  rw [and_eq_iff_ranges [(31, 0)] (by decide) (by decide) (by decide)]
  simp only [List.forall_mem_cons, List.not_mem_nil, false_imp_iff, implies_true, and_true]
  exact Iff.rfl

theorem matches_inv (w : Word) : w &&& 0xFFFFFFFF = 0x00000005 ↔ bits w 31 0 = 5 := by
  rw [and_eq_iff_ranges [(31, 0)] (by decide) (by decide) (by decide)]
  simp only [List.forall_mem_cons, List.not_mem_nil, false_imp_iff, implies_true, and_true]
  exact Iff.rfl

theorem matches_cfg (w : Word) :
    w &&& 0xE0FFFFFF = 0x00000001 ↔ bits w 7 0 = 1 ∧ bits w 23 8 = 0 ∧ bits w 31 29 = 0 := by
  rw [and_eq_iff_ranges [(7, 0), (23, 8), (31, 29)] (by decide) (by decide) (by decide)]
  simp only [List.forall_mem_cons, List.not_mem_nil, false_imp_iff, implies_true, and_true]
  exact Iff.rfl

theorem matches_link (w : Word) : w &&& 0xFF0000FF = 0x00000002 ↔ bits w 7 0 = 2 ∧ bits w 31 24 = 0 := by
  rw [and_eq_iff_ranges [(7, 0), (31, 24)] (by decide) (by decide) (by decide)]
  simp only [List.forall_mem_cons, List.not_mem_nil, false_imp_iff, implies_true, and_true]
  exact Iff.rfl

theorem matches_cfgl (w : Word) : w &&& 0xE00000FF = 0x00000003 ↔ bits w 7 0 = 3 ∧ bits w 31 29 = 0 := by
  rw [and_eq_iff_ranges [(7, 0), (31, 29)] (by decide) (by decide) (by decide)]
  simp only [List.forall_mem_cons, List.not_mem_nil, false_imp_iff, implies_true, and_true]
  exact Iff.rfl

theorem matches_fwdl (w : Word) : w &&& 0xFF0000FF = 0x00000006 ↔ bits w 7 0 = 6 ∧ bits w 31 24 = 0 := by
  rw [and_eq_iff_ranges [(7, 0), (31, 24)] (by decide) (by decide) (by decide)]
  simp only [List.forall_mem_cons, List.not_mem_nil, false_imp_iff, implies_true, and_true]
  exact Iff.rfl

theorem matches_invl (w : Word) : w &&& 0xFF0000FF = 0x00000007 ↔ bits w 7 0 = 7 ∧ bits w 31 24 = 0 := by
  rw [and_eq_iff_ranges [(7, 0), (31, 24)] (by decide) (by decide) (by decide)]
  simp only [List.forall_mem_cons, List.not_mem_nil, false_imp_iff, implies_true, and_true]
  exact Iff.rfl

theorem matches_prod (w : Word) :
    w &&& 0xDF0000FF = 0x00000008 ↔ bits w 7 0 = 8 ∧ bits w 28 24 = 0 ∧ bits w 31 30 = 0 := by
  rw [and_eq_iff_ranges [(7, 0), (28, 24), (31, 30)] (by decide) (by decide) (by decide)]
  simp only [List.forall_mem_cons, List.not_mem_nil, false_imp_iff, implies_true, and_true]
  exact Iff.rfl

theorem matches_ocfg (w : Word) :
    w &&& 0xFFF0F8FF = 0x00000010 ↔ bits w 7 0 = 16 ∧ bits w 15 11 = 0 ∧ bits w 31 20 = 0 := by
  rw [and_eq_iff_ranges [(7, 0), (15, 11), (31, 20)] (by decide) (by decide) (by decide)]
  simp only [List.forall_mem_cons, List.not_mem_nil, false_imp_iff, implies_true, and_true]
  exact Iff.rfl

theorem matches_ocfgs (w : Word) :
    w &&& 0xFFF088FF = 0x00000011 ↔
      bits w 7 0 = 17 ∧ bits w 11 11 = 0 ∧ bits w 15 15 = 0 ∧ bits w 31 20 = 0 := by
  rw [and_eq_iff_ranges [(7, 0), (11, 11), (15, 15), (31, 20)] (by decide) (by decide) (by decide)]
  simp only [List.forall_mem_cons, List.not_mem_nil, false_imp_iff, implies_true, and_true]
  exact Iff.rfl

theorem matches_oflt (w : Word) :
    w &&& 0xFF00F8FF = 0x00000012 ↔ bits w 7 0 = 18 ∧ bits w 15 11 = 0 ∧ bits w 31 24 = 0 := by
  rw [and_eq_iff_ranges [(7, 0), (15, 11), (31, 24)] (by decide) (by decide) (by decide)]
  simp only [List.forall_mem_cons, List.not_mem_nil, false_imp_iff, implies_true, and_true]
  exact Iff.rfl

theorem matches_ofls (w : Word) :
    w &&& 0xFF0FF8FF = 0x00000013 ↔ bits w 7 0 = 19 ∧ bits w 19 11 = 0 ∧ bits w 31 24 = 0 := by
  rw [and_eq_iff_ranges [(7, 0), (19, 11), (31, 24)] (by decide) (by decide) (by decide)]
  simp only [List.forall_mem_cons, List.not_mem_nil, false_imp_iff, implies_true, and_true]
  exact Iff.rfl

theorem matches_oini (w : Word) : w &&& 0xFFFFF8FF = 0x00000014 ↔ bits w 7 0 = 20 ∧ bits w 31 11 = 0 := by
  rw [and_eq_iff_ranges [(7, 0), (31, 11)] (by decide) (by decide) (by decide)]
  simp only [List.forall_mem_cons, List.not_mem_nil, false_imp_iff, implies_true, and_true]
  exact Iff.rfl

theorem matches_oclr (w : Word) : w &&& 0xFFFFF8FF = 0x00000015 ↔ bits w 7 0 = 21 ∧ bits w 31 11 = 0 := by
  rw [and_eq_iff_ranges [(7, 0), (31, 11)] (by decide) (by decide) (by decide)]
  simp only [List.forall_mem_cons, List.not_mem_nil, false_imp_iff, implies_true, and_true]
  exact Iff.rfl

/-! ## The fields of an encoded word -/

/-- The value of a word of format T whose operands fit their fields. -/
theorem formatT_toNat {op a b c d lg s : Nat} (ho : op < 256) (ha : a < 16) (hb : b < 16) (hc : c < 16) (hd : d < 16)
    (hl : lg < 32) (hs : s < 2) :
    (formatT op a b c d lg s).toNat =
      op + a * 256 + b * 4096 + c * 65536 + d * 1048576 + lg * 16777216 + s * 536870912 := by
  simp only [formatT, BitVec.toNat_ofNat]
  omega

/-- The value of a word of format O whose operands fit their fields. -/
theorem formatO_toNat {op c m x y : Nat} (ho : op < 256) (hc : c < 8) (hm : m < 8) (hx : x < 16) (hy : y < 16) :
    (formatO op c m x y).toNat = op + c * 256 + m * 4096 + x * 65536 + y * 1048576 := by
  simp only [formatO, BitVec.toNat_ofNat]
  omega

end Sys2Proof
end

