-- ==== Sys2Proof/Laws/PerInstr.lean ====
section
/-!
SUPPORT. Statements about every command, made constructor by constructor.
-/
namespace Sys2Proof

/-- The mnemonic of a command in the opcode map (spec/30_encoding.md rule R116). -/
def Instr.mnemonic : Instr → String
  | .nop => "NOP"
  | .cfg _ => "CFG"
  | .link _ _ _ _ => "LINK"
  | .cfgl _ _ _ _ _ => "CFGL"
  | .fwd => "FWD"
  | .inv => "INV"
  | .fwdl _ _ _ _ => "FWDL"
  | .invl _ _ _ _ => "INVL"
  | .prod _ _ _ _ _ => "PROD"
  | .ocfg _ _ => "OCFG"
  | .ocfgs _ _ _ => "OCFGS"
  | .oflt _ _ _ => "OFLT"
  | .ofls _ _ => "OFLS"
  | .oini _ => "OINI"
  | .oclr _ => "OCLR"

/-- The word of a well-formed command satisfies the match and mask of the row that bears its mnemonic, and that row's
operand assembly gives the command back (spec/30_encoding.md rules R112 to R116). -/
def Laws.EncodesRow.Statement (i : Instr) : Prop :=
  i.wf = true → ∃ r ∈ opcodeRows, r.mnemonic = i.mnemonic ∧ r.matches (encode i) = true ∧ r.build (encode i) = i

/-- The n-th row of the opcode map settles the statement for a command, given its match and its assembly. -/
theorem encodesRow_of_row {i : Instr} (n : Nat) {r : Row} (hr : opcodeRows[n]? = some r) (hm : r.mnemonic = i.mnemonic)
    (hw : encode i &&& r.mask = r.pattern) (hb : r.build (encode i) = i) :
    ∃ r ∈ opcodeRows, r.mnemonic = i.mnemonic ∧ r.matches (encode i) = true ∧ r.build (encode i) = i :=
  ⟨r, List.mem_of_getElem? hr, hm, by simp [Row.matches, hw], hb⟩

theorem Laws.EncodesRow.nop : Laws.EncodesRow.Statement .nop := fun _ =>
  encodesRow_of_row 0 rfl rfl (by decide) rfl

theorem Laws.EncodesRow.cfg (lg : Nat) : Laws.EncodesRow.Statement (.cfg lg) := by
  intro h
  simp only [Instr.wf, exponentFits, decide_eq_true_eq] at h
  have hn : (encode (.cfg lg)).toNat = _ :=
    formatT_toNat (op := 0x01) (a := 0) (b := 0) (c := 0) (d := 0) (lg := lg) (s := 0)
      (by omega) (by omega) (by omega) (by omega) (by omega) (by omega) (by omega)
  refine encodesRow_of_row 1 rfl rfl ((matches_cfg _).2 ?_) ?_
  · simp only [bits, hn]
    omega
  · simp only [fieldLG, bits, hn, Instr.cfg.injEq]
    omega

theorem Laws.EncodesRow.link (xr xi yr yi : Nat) : Laws.EncodesRow.Statement (.link xr xi yr yi) := by
  intro h
  simp only [Instr.wf, bankFits, Bool.and_eq_true, decide_eq_true_eq] at h
  have hn : (encode (.link xr xi yr yi)).toNat = _ :=
    formatT_toNat (op := 0x02) (a := xr) (b := xi) (c := yr) (d := yi) (lg := 0) (s := 0)
      (by omega) (by omega) (by omega) (by omega) (by omega) (by omega) (by omega)
  refine encodesRow_of_row 2 rfl rfl ((matches_link _).2 ?_) ?_
  · simp only [bits, hn]
    omega
  · simp only [fieldA, fieldB, fieldC, fieldD, bits, hn, Instr.link.injEq]
    omega

theorem Laws.EncodesRow.cfgl (xr xi yr yi lg : Nat) : Laws.EncodesRow.Statement (.cfgl xr xi yr yi lg) := by
  intro h
  simp only [Instr.wf, bankFits, exponentFits, Bool.and_eq_true, decide_eq_true_eq] at h
  have hn : (encode (.cfgl xr xi yr yi lg)).toNat = _ :=
    formatT_toNat (op := 0x03) (a := xr) (b := xi) (c := yr) (d := yi) (lg := lg) (s := 0)
      (by omega) (by omega) (by omega) (by omega) (by omega) (by omega) (by omega)
  refine encodesRow_of_row 3 rfl rfl ((matches_cfgl _).2 ?_) ?_
  · simp only [bits, hn]
    omega
  · simp only [fieldA, fieldB, fieldC, fieldD, fieldLG, bits, hn, Instr.cfgl.injEq]
    omega

theorem Laws.EncodesRow.fwd : Laws.EncodesRow.Statement .fwd := fun _ =>
  encodesRow_of_row 4 rfl rfl (by decide) rfl

theorem Laws.EncodesRow.inv : Laws.EncodesRow.Statement .inv := fun _ =>
  encodesRow_of_row 5 rfl rfl (by decide) rfl

theorem Laws.EncodesRow.fwdl (xr xi yr yi : Nat) : Laws.EncodesRow.Statement (.fwdl xr xi yr yi) := by
  intro h
  simp only [Instr.wf, bankFits, Bool.and_eq_true, decide_eq_true_eq] at h
  have hn : (encode (.fwdl xr xi yr yi)).toNat = _ :=
    formatT_toNat (op := 0x06) (a := xr) (b := xi) (c := yr) (d := yi) (lg := 0) (s := 0)
      (by omega) (by omega) (by omega) (by omega) (by omega) (by omega) (by omega)
  refine encodesRow_of_row 6 rfl rfl ((matches_fwdl _).2 ?_) ?_
  · simp only [bits, hn]
    omega
  · simp only [fieldA, fieldB, fieldC, fieldD, bits, hn, Instr.fwdl.injEq]
    omega

theorem Laws.EncodesRow.invl (xr xi yr yi : Nat) : Laws.EncodesRow.Statement (.invl xr xi yr yi) := by
  intro h
  simp only [Instr.wf, bankFits, Bool.and_eq_true, decide_eq_true_eq] at h
  have hn : (encode (.invl xr xi yr yi)).toNat = _ :=
    formatT_toNat (op := 0x07) (a := xr) (b := xi) (c := yr) (d := yi) (lg := 0) (s := 0)
      (by omega) (by omega) (by omega) (by omega) (by omega) (by omega) (by omega)
  refine encodesRow_of_row 7 rfl rfl ((matches_invl _).2 ?_) ?_
  · simp only [bits, hn]
    omega
  · simp only [fieldA, fieldB, fieldC, fieldD, bits, hn, Instr.invl.injEq]
    omega

theorem Laws.EncodesRow.prod (xr xi yr yi : Nat) (sign : Sign) : Laws.EncodesRow.Statement (.prod xr xi yr yi sign) := by
  intro h
  have hs : signBit sign < 2 := by cases sign <;> decide
  simp only [Instr.wf, bankFits, Bool.and_eq_true, decide_eq_true_eq] at h
  have hn : (encode (.prod xr xi yr yi sign)).toNat = _ :=
    formatT_toNat (op := 0x08) (a := xr) (b := xi) (c := yr) (d := yi) (lg := 0) (s := signBit sign)
      (by omega) (by omega) (by omega) (by omega) (by omega) (by omega) (by omega)
  refine encodesRow_of_row 8 rfl rfl ((matches_prod _).2 ?_) ?_
  · simp only [bits, hn]
    omega
  · have h29 : bits (encode (.prod xr xi yr yi sign)) 29 29 = signBit sign := by
      simp only [bits, hn]
      omega
    have hf : fieldS (encode (.prod xr xi yr yi sign)) = sign := by
      cases sign <;> simp [fieldS, h29, signBit]
    simp only [hf, fieldA, fieldB, fieldC, fieldD, bits, hn, Instr.prod.injEq, and_true]
    omega

theorem Laws.EncodesRow.ocfg (c kb : Nat) : Laws.EncodesRow.Statement (.ocfg c kb) := by
  intro h
  simp only [Instr.wf, bankFits, contextFits, Bool.and_eq_true, decide_eq_true_eq] at h
  have hn : (encode (.ocfg c kb)).toNat = _ :=
    formatO_toNat (op := 0x10) (c := c) (m := 0) (x := kb) (y := 0)
      (by omega) (by omega) (by omega) (by omega) (by omega)
  refine encodesRow_of_row 9 rfl rfl ((matches_ocfg _).2 ?_) ?_
  · simp only [bits, hn]
    omega
  · simp only [fieldCTX, fieldBK1, bits, hn, Instr.ocfg.injEq]
    omega

theorem Laws.EncodesRow.ocfgs (c m kb : Nat) : Laws.EncodesRow.Statement (.ocfgs c m kb) := by
  intro h
  simp only [Instr.wf, bankFits, contextFits, Bool.and_eq_true, decide_eq_true_eq] at h
  have hn : (encode (.ocfgs c m kb)).toNat = _ :=
    formatO_toNat (op := 0x11) (c := c) (m := m) (x := kb) (y := 0)
      (by omega) (by omega) (by omega) (by omega) (by omega)
  refine encodesRow_of_row 10 rfl rfl ((matches_ocfgs _).2 ?_) ?_
  · simp only [bits, hn]
    omega
  · simp only [fieldCTX, fieldMCTX, fieldBK1, bits, hn, Instr.ocfgs.injEq]
    omega

theorem Laws.EncodesRow.oflt (c ib ob : Nat) : Laws.EncodesRow.Statement (.oflt c ib ob) := by
  intro h
  simp only [Instr.wf, bankFits, contextFits, Bool.and_eq_true, decide_eq_true_eq] at h
  have hn : (encode (.oflt c ib ob)).toNat = _ :=
    formatO_toNat (op := 0x12) (c := c) (m := 0) (x := ib) (y := ob)
      (by omega) (by omega) (by omega) (by omega) (by omega)
  refine encodesRow_of_row 11 rfl rfl ((matches_oflt _).2 ?_) ?_
  · simp only [bits, hn]
    omega
  · simp only [fieldCTX, fieldBK1, fieldBK2, bits, hn, Instr.oflt.injEq]
    omega

theorem Laws.EncodesRow.ofls (c ob : Nat) : Laws.EncodesRow.Statement (.ofls c ob) := by
  intro h
  simp only [Instr.wf, bankFits, contextFits, Bool.and_eq_true, decide_eq_true_eq] at h
  have hn : (encode (.ofls c ob)).toNat = _ :=
    formatO_toNat (op := 0x13) (c := c) (m := 0) (x := 0) (y := ob)
      (by omega) (by omega) (by omega) (by omega) (by omega)
  refine encodesRow_of_row 12 rfl rfl ((matches_ofls _).2 ?_) ?_
  · simp only [bits, hn]
    omega
  · simp only [fieldCTX, fieldBK2, bits, hn, Instr.ofls.injEq]
    omega

theorem Laws.EncodesRow.oini (c : Nat) : Laws.EncodesRow.Statement (.oini c) := by
  intro h
  simp only [Instr.wf, contextFits, decide_eq_true_eq] at h
  have hn : (encode (.oini c)).toNat = _ :=
    formatO_toNat (op := 0x14) (c := c) (m := 0) (x := 0) (y := 0)
      (by omega) (by omega) (by omega) (by omega) (by omega)
  refine encodesRow_of_row 13 rfl rfl ((matches_oini _).2 ?_) ?_
  · simp only [bits, hn]
    omega
  · simp only [fieldCTX, bits, hn, Instr.oini.injEq]
    omega

theorem Laws.EncodesRow.oclr (c : Nat) : Laws.EncodesRow.Statement (.oclr c) := by
  intro h
  simp only [Instr.wf, contextFits, decide_eq_true_eq] at h
  have hn : (encode (.oclr c)).toNat = _ :=
    formatO_toNat (op := 0x15) (c := c) (m := 0) (x := 0) (y := 0)
      (by omega) (by omega) (by omega) (by omega) (by omega)
  refine encodesRow_of_row 14 rfl rfl ((matches_oclr _).2 ?_) ?_
  · simp only [bits, hn]
    omega
  · simp only [fieldCTX, bits, hn, Instr.oclr.injEq]
    omega

end Sys2Proof
end

