-- ==== Sys2Proof/Laws/Twiddle.lean ====
section
/-!
SUPPORT. How near the fixed-point evaluation of the twiddle ROM comes to the exact cosine and sine: within 2^-245 for
an angle of at most an eighth of a turn, the value of 2*pi included (notes/assumptions/6.md).
-/
namespace Sys2Proof.Machine

/-! ## The Taylor sum -/

/-- What `taylor` computes, in real numbers. -/
noncomputable def taylorReal : Nat → Nat → ℝ → ℝ → ℝ
  | 0, _, _, _ => 0
  | n + 1, i, u, y => u - taylorReal n (i + 2) (u * y / ((i + 1) * (i + 2))) y

/-- No subtraction of the evaluation is cut off at 0. -/
theorem taylor_le (n i t x2 : Nat) : taylor n i t x2 ≤ t := by
  cases n <;> simp [taylor]

/-- The fixed-point sum stays within three units of the last place per term. -/
theorem taylor_error (n i t x2 : Nat) (u y : ℝ) (h2 : x2 ≤ 2 ^ fixBits) (ht : t ≤ 2 ^ fixBits)
    (hu : |(t : ℝ) / 2 ^ fixBits - u| ≤ 3 / 2 ^ fixBits) (hy : |(x2 : ℝ) / 2 ^ fixBits - y| ≤ 1 / 2 ^ fixBits)
    (hy1 : |y| ≤ 1) : |(taylor n i t x2 : ℝ) / 2 ^ fixBits - taylorReal n i u y| ≤ 3 * n / 2 ^ fixBits := by
  induction n generalizing i t u with
  | zero => simp [taylor, taylorReal]
  | succ n ih =>
    have hd : 2 ≤ (i + 1) * (i + 2) := by nlinarith
    have hF : (0 : ℝ) < 2 ^ fixBits := by positivity
    generalize hFd : (2 : ℝ) ^ fixBits = F at *
    have hFn : ((2 ^ fixBits : Nat) : ℝ) = F := by push_cast; exact hFd
    have ht' : t * x2 / 2 ^ fixBits / ((i + 1) * (i + 2)) ≤ t := by
      refine (Nat.div_le_self _ _).trans (Nat.div_le_of_le_mul ?_)
      rw [Nat.mul_comm]
      exact Nat.mul_le_mul_right _ h2
    have key := ih (i + 2) _ (u * y / ((i + 1) * (i + 2))) (ht'.trans ht) ?_
    · have hle := (taylor_le n (i + 2) _ x2).trans ht'
      rw [taylor, taylorReal, Nat.cast_sub hle]
      rw [sub_div, sub_sub_sub_comm]
      refine (abs_sub _ _).trans ?_
      calc _ ≤ 3 / F + 3 * n / F := add_le_add hu key
        _ = 3 * ((n + 1 : Nat) : ℝ) / F := by push_cast; ring
    · rw [Nat.div_div_eq_div_mul]
      set d := (i + 1) * (i + 2)
      have hdr : ((i : ℝ) + 1) * (i + 2) = (d : ℝ) := by simp [d]
      have hd2 : (2 : ℝ) ≤ d := by exact_mod_cast hd
      have h1 : |((t * x2 / (2 ^ fixBits * d) : Nat) : ℝ) - (t * x2) / (F * d)| ≤ 1 := by
        have hb : ((t * x2 : Nat) : ℝ) / ((2 ^ fixBits * d : Nat) : ℝ) = t * x2 / (F * d) := by
          rw [← hFn]; push_cast; rfl
        have ha := Nat.floor_div_eq_div (K := ℝ) (t * x2) (2 ^ fixBits * d)
        rw [hb] at ha
        have hp : (0 : ℝ) ≤ t * x2 / (F * d) := by positivity
        rw [← ha, abs_le]
        constructor <;> linarith [Nat.floor_le hp, Nat.lt_floor_add_one ((t : ℝ) * x2 / (F * d))]
      have h3 : (t : ℝ) / F ≤ 1 := by
        rw [div_le_one hF, ← hFn]; exact_mod_cast ht
      have h4 : |(t : ℝ) / F * (x2 / F) - u * y| ≤ 4 / F := by
        have : (t : ℝ) / F * (x2 / F) - u * y = t / F * (x2 / F - y) + (t / F - u) * y := by ring
        rw [this]
        refine (abs_add_le _ _).trans ?_
        rw [abs_mul, abs_mul, abs_of_nonneg (show (0 : ℝ) ≤ t / F by positivity)]
        have e1 := mul_le_mul h3 hy (abs_nonneg _) zero_le_one
        have e2 := mul_le_mul hu hy1 (abs_nonneg _) (by positivity)
        calc _ ≤ 1 * (1 / F) + 3 / F * 1 := add_le_add e1 e2
          _ = 4 / F := by ring
      rw [hdr]
      have h5 : ((t * x2 / (2 ^ fixBits * d) : Nat) : ℝ) / F - u * y / d =
          (((t * x2 / (2 ^ fixBits * d) : Nat) : ℝ) - (t * x2) / (F * d)) / F + (t / F * (x2 / F) - u * y) / d := by
        field_simp
        ring
      rw [h5]
      refine (abs_add_le _ _).trans ?_
      rw [abs_div, abs_div, abs_of_pos hF, abs_of_pos (by linarith : (0 : ℝ) < d)]
      have e1 := div_le_div_of_nonneg_right h1 hF.le
      have e2 : |(t : ℝ) / F * (x2 / F) - u * y| / d ≤ (4 / F) / 2 :=
        div_le_div₀ (by positivity) h4 (by norm_num) hd2
      calc _ ≤ 1 / F + 4 / F / 2 := add_le_add e1 e2
        _ = 3 / F := by ring

/-- The sum in closed form. -/
theorem taylorReal_eq (n i : Nat) (u y : ℝ) :
    taylorReal n i u y = ∑ k ∈ Finset.range n, (-1) ^ k * u * y ^ k * (i.factorial / (i + 2 * k).factorial) := by
  induction n generalizing i u with
  | zero => simp [taylorReal]
  | succ n ih =>
    rw [taylorReal, ih, Finset.sum_range_succ', sub_eq_neg_add, ← Finset.sum_neg_distrib]
    congr 1
    · refine Finset.sum_congr rfl fun k _ => ?_
      have h1 : ((i + 2).factorial : ℝ) = (i + 2) * ((i + 1) * i.factorial) := by
        rw [Nat.factorial_succ, Nat.factorial_succ]; push_cast; ring
      have h2 : i + 2 + 2 * k = i + 2 * (k + 1) := by ring
      rw [h1, h2]
      field_simp
      ring
    · simp [div_self, Nat.factorial_ne_zero]

/-! ## The tail of the series -/

theorem factorial_bound (k : Nat) : 2 ^ (9 * k) ≤ 2 ^ 30 * (2 * k).factorial := by
  rcases Nat.lt_or_ge k 12 with h | h
  · interval_cases k <;> decide +kernel
  · induction k, h using Nat.le_induction with
    | base => decide +kernel
    | succ k hk ih =>
      have h1 : (2 * (k + 1)).factorial = (2 * k + 2) * ((2 * k + 1) * (2 * k).factorial) := by
        rw [show 2 * (k + 1) = 2 * k + 1 + 1 by ring, Nat.factorial_succ, Nat.factorial_succ]
      have h2 : 2 ^ 9 ≤ (2 * k + 2) * (2 * k + 1) := by nlinarith
      rw [h1, show 9 * (k + 1) = 9 * k + 9 by ring, pow_add]
      calc 2 ^ (9 * k) * 2 ^ 9 ≤ 2 ^ 30 * (2 * k).factorial * ((2 * k + 2) * (2 * k + 1)) := Nat.mul_le_mul ih h2
        _ = _ := by ring

/-- A series whose terms are bounded by 1/(2k)! is its first `taylorTerms` terms, to within a unit of the last place. -/
theorem series_tail (f : Nat → ℝ) (a : ℝ) (h : HasSum f a) (hf : ∀ k, |f k| ≤ 1 / (2 * k).factorial) :
    |∑ k ∈ Finset.range taylorTerms, f k - a| ≤ 1 / 2 ^ fixBits := by
  have hb : ∀ k, ‖f k‖ ≤ 2 ^ 30 * (1 / 2 ^ 9 : ℝ) ^ k := fun k => by
    refine (hf k).trans ?_
    rw [div_pow, one_pow, ← pow_mul, mul_one_div, div_le_div_iff₀ (by positivity) (by positivity), one_mul]
    exact_mod_cast factorial_bound k
  refine (norm_sub_le_of_geometric_bound_of_hasSum (by norm_num) hb h taylorTerms).trans ?_
  norm_num [taylorTerms, fixBits]

theorem taylorReal_cos (x : ℝ) (hx : |x| ≤ 1) : |taylorReal taylorTerms 0 1 (x ^ 2) - Real.cos x| ≤ 1 / 2 ^ fixBits := by
  rw [taylorReal_eq]
  refine series_tail (fun k => (-1) ^ k * 1 * (x ^ 2) ^ k * ((0 : Nat).factorial / (0 + 2 * k).factorial)) _ ?_ fun k => ?_
  · convert Real.hasSum_cos x using 2 with k
    simp [pow_mul]
    ring
  · have h1 : |x ^ 2| ^ k ≤ 1 := pow_le_one₀ (abs_nonneg _) (by rw [abs_pow]; exact pow_le_one₀ (abs_nonneg _) hx)
    simp only [abs_mul, abs_pow, abs_neg, abs_one, one_pow, one_mul, zero_add, abs_div, Nat.abs_cast,
      Nat.factorial_zero, Nat.cast_one] at h1 ⊢
    exact mul_le_of_le_one_left (by positivity) h1

theorem taylorReal_sin (x : ℝ) (hx : |x| ≤ 1) : |taylorReal taylorTerms 1 x (x ^ 2) - Real.sin x| ≤ 1 / 2 ^ fixBits := by
  rw [taylorReal_eq]
  refine series_tail (fun k => (-1) ^ k * x * (x ^ 2) ^ k * ((1 : Nat).factorial / (1 + 2 * k).factorial)) _ ?_ fun k => ?_
  · convert Real.hasSum_sin x using 2 with k
    simp [pow_mul, pow_add, add_comm]
    ring
  · have h1 : |x ^ 2| ^ k ≤ 1 := pow_le_one₀ (abs_nonneg _) (by rw [abs_pow]; exact pow_le_one₀ (abs_nonneg _) hx)
    have h2 : (1 : ℝ) / (1 + 2 * k).factorial ≤ 1 / (2 * k).factorial :=
      one_div_le_one_div_of_le (by positivity) (by exact_mod_cast Nat.factorial_le (by omega))
    simp only [abs_mul, abs_pow, abs_neg, abs_one, one_pow, one_mul, abs_div, Nat.abs_cast, Nat.factorial_one, Nat.cast_one] at h1 ⊢
    calc _ ≤ 1 * (1 / ((2 * k).factorial : ℝ)) := mul_le_mul (mul_le_one₀ hx (by positivity) h1) h2 (by positivity) zero_le_one
      _ = _ := one_mul _


/-! ## The sum at a fixed-point angle -/

theorem square_error (a : Nat) :
    |((a * a / 2 ^ fixBits : Nat) : ℝ) / 2 ^ fixBits - ((a : ℝ) / 2 ^ fixBits) ^ 2| ≤ 1 / 2 ^ fixBits := by
  have hF : (0 : ℝ) < 2 ^ fixBits := by positivity
  have ha := Nat.floor_div_eq_div (K := ℝ) (a * a) (2 ^ fixBits)
  push_cast at ha
  have hp : (0 : ℝ) ≤ (a : ℝ) * a / 2 ^ fixBits := by positivity
  have h1 := Nat.floor_le hp
  have h2 := Nat.lt_floor_add_one ((a : ℝ) * a / 2 ^ fixBits)
  rw [ha] at h1 h2
  generalize (2 : ℝ) ^ fixBits = F at *
  have h3 : ((a * a / 2 ^ fixBits : Nat) : ℝ) / F - ((a : ℝ) / F) ^ 2 =
      (((a * a / 2 ^ fixBits : Nat) : ℝ) - a * a / F) / F := by field_simp
  rw [h3, abs_div, abs_of_pos hF]
  refine div_le_div_of_nonneg_right ?_ hF.le
  rw [abs_le]
  constructor <;> linarith

theorem angle_square_le (a : Nat) (ha : a ≤ 2 ^ fixBits) : a * a / 2 ^ fixBits ≤ 2 ^ fixBits :=
  Nat.div_le_of_le_mul (Nat.mul_le_mul ha ha)

theorem fix_le_one (a : Nat) (ha : a ≤ 2 ^ fixBits) : |(a : ℝ) / 2 ^ fixBits| ≤ 1 := by
  rw [abs_of_nonneg (by positivity), div_le_one (by positivity)]
  exact_mod_cast ha

/-- The fixed-point cosine of a fixed-point angle of at most 1. -/
theorem taylor_cos_error (a : Nat) (ha : a ≤ 2 ^ fixBits) :
    |(taylor taylorTerms 0 (2 ^ fixBits) (a * a / 2 ^ fixBits) : ℝ) / 2 ^ fixBits - Real.cos (a / 2 ^ fixBits)| ≤
      97 / 2 ^ fixBits := by
  have hx := fix_le_one a ha
  have h1 := taylor_error taylorTerms 0 (2 ^ fixBits) _ 1 _ (angle_square_le a ha) le_rfl
    (by push_cast; rw [div_self (by positivity), sub_self, abs_zero]; positivity) (square_error a)
    (by rw [abs_pow]; exact pow_le_one₀ (abs_nonneg _) hx)
  have h2 := taylorReal_cos _ hx
  refine (abs_sub_le _ _ _).trans ((add_le_add h1 h2).trans (le_of_eq ?_))
  rw [← add_div]
  norm_num [taylorTerms]

/-- The fixed-point sine of a fixed-point angle of at most 1. -/
theorem taylor_sin_error (a : Nat) (ha : a ≤ 2 ^ fixBits) :
    |(taylor taylorTerms 1 a (a * a / 2 ^ fixBits) : ℝ) / 2 ^ fixBits - Real.sin (a / 2 ^ fixBits)| ≤
      97 / 2 ^ fixBits := by
  have hx := fix_le_one a ha
  have h1 := taylor_error taylorTerms 1 a _ _ _ (angle_square_le a ha) ha
    (by rw [sub_self, abs_zero]; positivity) (square_error a)
    (by rw [abs_pow]; exact pow_le_one₀ (abs_nonneg _) hx)
  have h2 := taylorReal_sin _ hx
  refine (abs_sub_le _ _ _).trans ((add_le_add h1 h2).trans (le_of_eq ?_))
  rw [← add_div]
  norm_num [taylorTerms]

/-! ## The constant 2*pi -/

/-- An angle whose cosine is above its sine lies below pi/4. -/
theorem lt_quarter_pi (a : Nat) (ha : a ≤ 2 ^ fixBits)
    (h : taylor taylorTerms 1 a (a * a / 2 ^ fixBits) + 194 < taylor taylorTerms 0 (2 ^ fixBits) (a * a / 2 ^ fixBits)) :
    (a : ℝ) / 2 ^ fixBits < Real.pi / 4 := by
  have hc := taylor_cos_error a ha
  have hs := taylor_sin_error a ha
  have h1 := fix_le_one a ha
  have hF : (0 : ℝ) < 2 ^ fixBits := by positivity
  have h' : (taylor taylorTerms 1 a (a * a / 2 ^ fixBits) : ℝ) / 2 ^ fixBits + 97 / 2 ^ fixBits + 97 / 2 ^ fixBits <
      (taylor taylorTerms 0 (2 ^ fixBits) (a * a / 2 ^ fixBits) : ℝ) / 2 ^ fixBits := by
    rw [← add_div, ← add_div, div_lt_div_iff_of_pos_right hF]
    have : ((taylor taylorTerms 1 a (a * a / 2 ^ fixBits) + 194 : Nat) : ℝ) < _ := Nat.cast_lt.2 h
    push_cast at this
    linarith
  by_contra hn
  rw [not_lt] at hn
  rw [abs_le] at hc hs h1
  have hpi := Real.pi_gt_three
  have e1 := Real.cos_le_cos_of_nonneg_of_le_pi (by linarith) (by linarith) hn
  have e2 := Real.sin_le_sin_of_le_of_le_pi_div_two (by linarith) (by linarith) hn
  rw [Real.cos_pi_div_four] at e1
  rw [Real.sin_pi_div_four] at e2
  linarith

/-- An angle whose sine is above its cosine lies above pi/4. -/
theorem quarter_pi_lt (a : Nat) (ha : a ≤ 2 ^ fixBits)
    (h : taylor taylorTerms 0 (2 ^ fixBits) (a * a / 2 ^ fixBits) + 194 < taylor taylorTerms 1 a (a * a / 2 ^ fixBits)) :
    Real.pi / 4 < (a : ℝ) / 2 ^ fixBits := by
  have hc := taylor_cos_error a ha
  have hs := taylor_sin_error a ha
  have hF : (0 : ℝ) < 2 ^ fixBits := by positivity
  have h' : (taylor taylorTerms 0 (2 ^ fixBits) (a * a / 2 ^ fixBits) : ℝ) / 2 ^ fixBits + 97 / 2 ^ fixBits +
      97 / 2 ^ fixBits < (taylor taylorTerms 1 a (a * a / 2 ^ fixBits) : ℝ) / 2 ^ fixBits := by
    rw [← add_div, ← add_div, div_lt_div_iff_of_pos_right hF]
    have : ((taylor taylorTerms 0 (2 ^ fixBits) (a * a / 2 ^ fixBits) + 194 : Nat) : ℝ) < _ := Nat.cast_lt.2 h
    push_cast at this
    linarith
  by_contra hn
  rw [not_lt] at hn
  rw [abs_le] at hc hs
  have hpi := Real.pi_gt_three
  have h0 : (0 : ℝ) ≤ a / 2 ^ fixBits := div_nonneg (Nat.cast_nonneg a) hF.le
  have e1 := Real.cos_le_cos_of_nonneg_of_le_pi h0 (by linarith) hn
  have e2 := Real.sin_le_sin_of_le_of_le_pi_div_two (by linarith) (by linarith) hn
  rw [Real.cos_pi_div_four] at e1
  rw [Real.sin_pi_div_four] at e2
  linarith

/-- twoPiFix is 2*pi, to within 2^-243. -/
theorem twoPiFix_error : |(twoPiFix : ℝ) / 2 ^ fixBits - 2 * Real.pi| ≤ 2 ^ 13 / 2 ^ fixBits := by
  have h1 := lt_quarter_pi (twoPiFix / 8 - 512) (by decide +kernel) (by decide +kernel)
  have h2 := quarter_pi_lt (twoPiFix / 8 + 512) (by decide +kernel) (by decide +kernel)
  have hF : (0 : ℝ) < 2 ^ fixBits := by positivity
  have e1 : (twoPiFix : ℝ) ≤ 8 * ((twoPiFix / 8 - 512 : Nat) : ℝ) + 2 ^ 13 := by
    exact_mod_cast (by decide +kernel : twoPiFix ≤ 8 * (twoPiFix / 8 - 512) + 2 ^ 13)
  have e2 : 8 * ((twoPiFix / 8 + 512 : Nat) : ℝ) ≤ twoPiFix + 2 ^ 13 := by
    exact_mod_cast (by decide +kernel : 8 * (twoPiFix / 8 + 512) ≤ twoPiFix + 2 ^ 13)
  have f1 := div_le_div_of_nonneg_right e1 hF.le
  have f2 := div_le_div_of_nonneg_right e2 hF.le
  rw [add_div, mul_div_assoc] at f1
  rw [add_div, mul_div_assoc] at f2
  rw [abs_le]
  constructor <;> linarith

/-! ## The angles of the ROM -/

/-- The fixed-point angle of r/2^l of a turn, for at most an eighth of a turn. -/
theorem angleFix_error (l r : Nat) (h : 8 * r ≤ 2 ^ l) :
    |(angleFix l r : ℝ) / 2 ^ fixBits - 2 * Real.pi * r / 2 ^ l| ≤ 1025 / 2 ^ fixBits := by
  have hF : (0 : ℝ) < 2 ^ fixBits := by positivity
  have hl : (0 : ℝ) < 2 ^ l := by positivity
  have ha := Nat.floor_div_eq_div (K := ℝ) (twoPiFix * r) (2 ^ l)
  push_cast at ha
  have hp : (0 : ℝ) ≤ (twoPiFix : ℝ) * r / 2 ^ l := by positivity
  have h1 := Nat.floor_le hp
  have h2 := Nat.lt_floor_add_one ((twoPiFix : ℝ) * r / 2 ^ l)
  rw [ha] at h1 h2
  have hr : (r : ℝ) / 2 ^ l ≤ 1 / 8 := by
    rw [div_le_div_iff₀ hl (by norm_num)]
    have : ((8 * r : Nat) : ℝ) ≤ ((2 ^ l : Nat) : ℝ) := Nat.cast_le.2 h
    push_cast at this
    linarith
  have h0 : (0 : ℝ) ≤ r / 2 ^ l := by positivity
  have e : (angleFix l r : ℝ) / 2 ^ fixBits - 2 * Real.pi * r / 2 ^ l =
      ((angleFix l r : ℝ) - twoPiFix * r / 2 ^ l) / 2 ^ fixBits +
        ((twoPiFix : ℝ) / 2 ^ fixBits - 2 * Real.pi) * (r / 2 ^ l) := by
    field_simp
    ring
  rw [e]
  refine (abs_add_le _ _).trans ?_
  rw [abs_div, abs_of_pos hF, abs_mul, abs_of_nonneg h0]
  have g1 : |(angleFix l r : ℝ) - twoPiFix * r / 2 ^ l| ≤ 1 := by
    rw [abs_le]
    constructor <;> simp only [angleFix] <;> linarith
  have g2 := mul_le_mul twoPiFix_error hr h0 (by positivity)
  have g3 := div_le_div_of_nonneg_right g1 hF.le
  calc _ ≤ 1 / 2 ^ fixBits + 2 ^ 13 / 2 ^ fixBits * (1 / 8) := add_le_add g3 g2
    _ = 1025 / 2 ^ fixBits := by ring

theorem angleFix_le (l r : Nat) (h : 8 * r ≤ 2 ^ l) : angleFix l r ≤ 2 ^ fixBits := by
  refine Nat.div_le_of_le_mul ?_
  have : twoPiFix ≤ 8 * 2 ^ fixBits := by decide +kernel
  calc twoPiFix * r ≤ 8 * 2 ^ fixBits * r := Nat.mul_le_mul_right _ this
    _ = 8 * r * 2 ^ fixBits := by ring
    _ ≤ 2 ^ l * 2 ^ fixBits := Nat.mul_le_mul_right _ h

theorem abs_cos_sub_cos_le (a b : ℝ) : |Real.cos a - Real.cos b| ≤ |a - b| := by
  simpa [Real.dist_eq] using Real.lipschitzWith_cos.dist_le_mul a b

theorem abs_sin_sub_sin_le (a b : ℝ) : |Real.sin a - Real.sin b| ≤ |a - b| := by
  simpa [Real.dist_eq] using Real.lipschitzWith_sin.dist_le_mul a b

/-- cosFix is the cosine of r/2^l of a turn to within 2^-245, for at most an eighth of a turn. -/
theorem cosFix_error (l r : Nat) (h : 8 * r ≤ 2 ^ l) :
    |(cosFix l r : ℝ) / 2 ^ fixBits - Real.cos (2 * Real.pi * r / 2 ^ l)| ≤ 2 ^ 11 / 2 ^ fixBits := by
  refine (abs_sub_le _ _ _).trans ((add_le_add (taylor_cos_error _ (angleFix_le l r h))
    ((abs_cos_sub_cos_le _ _).trans (angleFix_error l r h))).trans ?_)
  rw [← add_div]
  exact div_le_div_of_nonneg_right (by norm_num) (by positivity)

/-- sinFix is the sine of r/2^l of a turn to within 2^-245, for at most an eighth of a turn. -/
theorem sinFix_error (l r : Nat) (h : 8 * r ≤ 2 ^ l) :
    |(sinFix l r : ℝ) / 2 ^ fixBits - Real.sin (2 * Real.pi * r / 2 ^ l)| ≤ 2 ^ 11 / 2 ^ fixBits := by
  refine (abs_sub_le _ _ _).trans ((add_le_add (taylor_sin_error _ (angleFix_le l r h))
    ((abs_sin_sub_sin_le _ _).trans (angleFix_error l r h))).trans ?_)
  rw [← add_div]
  exact div_le_div_of_nonneg_right (by norm_num) (by positivity)

end Sys2Proof.Machine
end

