-- ==== Sys2Proof/Tests/Slice0.lean ====
section
/-!
SUPPORT. The model's own tests. Expected values are those of spec/95_test_vectors.md or of the examples in the rules named
beside them. The theorems whose names begin with `witness` show a state and operands that meet the hypotheses of an
obligation.
-/
namespace Sys2Proof.Tests
open Sys2Proof Sys2Proof.Machine

/-! ## Small states -/

/-- Reset, with the facade configured for size 8 and linked to banks 0, 1, 2, 3. -/
def linked8 : State :=
  { State.reset with facade := ⟨true, 3, true, 0, 1, 2, 3⟩, nodes := buildTable 3 0 1 0 }

/-- Eight samples written from index 0 of a bank on. -/
def withBank (bank : Nat) (vs : List Sample) (s : State) : State := s.setBlock bank 0 vs

/-- 1.0, 2.0 and 3.0 in binary64. -/
def one : Sample := 0x3FF0000000000000
def two : Sample := 0x4000000000000000
def three : Sample := 0x4008000000000000

/-- The impulse at index 1 in bank 0, and zeros in bank 1 (vector 3.2). -/
def impulse : State := withBank 0 [0, one, 0, 0, 0, 0, 0, 0] (withBank 1 (List.replicate 8 0) linked8)

/-- Context 0 configured by OCFG.lb c0, b6, 3, 4 with the kernel 1, 2, 3 (vector 6.2). -/
def kernelState : State := { withBank 6 [one, two, three] State.reset with arg0 := 3, arg1 := 4 }

/-- An owner in context 0 with slave context 1, as in vector 6.5, with nothing in their memories. -/
def group : State :=
  { State.reset with ctxs := [⟨.owner, 0, 3, 4, 3, [], [], []⟩, ⟨.slave, 0, 3, 6, 3, [], [], []⟩], arg0 := 3, arg1 := 6 }

/-- An owner in context 0 alone, with an accumulator of 1, 2, 3 and the offsets 1020 and 1020. -/
def owner : State :=
  { State.reset with
    ctxs := [⟨.owner, 0, 3, 4, 3, [], [], [one, two, three]⟩, Context.fresh], arg0 := 1020, arg1 := 1020 }

/-- LINK b4, b5, b6, b7 running on the facade of `linked8`, two host transactions before its completion. -/
def busy2 : State := { linked8 with seq := .busy (.link 4 5 6 7) 7 8 2 }

/-- A sample of the next state, if there is one. -/
def sampleAfter (o : Host.Outcome State Fault Refusal) (bank j : Nat) : Option Sample :=
  (nextState o).map (fun t => t.sample bank j)

/-- STATUS of the next state, if there is one. -/
def statusAfter (o : Host.Outcome State Fault Refusal) : Option Word := (nextState o).map statusWord

/-- The step that a full write at an address makes. -/
def stepWrite (addr v : Word) (s : State) : Host.Outcome State Fault Refusal :=
  step { s with bus := [.write addr v 0b1111] }

/-! ## Well-formedness refuses ill-formed terms -/

theorem test_wf_refuses_source_bank : Instr.wf (.link 16 0 1 2) = false := by decide
theorem test_wf_refuses_destination_bank : Instr.wf (.fwdl 0 1 2 16) = false := by decide
theorem test_wf_refuses_product_bank : Instr.wf (.prod 0 16 2 3 .plus) = false := by decide
theorem test_wf_refuses_exponent : Instr.wf (.cfg 32) = false := by decide
theorem test_wf_refuses_exponent_of_cfgl : Instr.wf (.cfgl 0 1 2 3 32) = false := by decide
theorem test_wf_refuses_context : Instr.wf (.oini 8) = false := by decide
theorem test_wf_refuses_master : Instr.wf (.ocfgs 1 8 7) = false := by decide
theorem test_wf_refuses_kernel_bank : Instr.wf (.ocfg 0 16) = false := by decide
theorem test_wf_refuses_output_bank : Instr.wf (.ofls 0 16) = false := by decide
theorem test_wf_accepts_the_largest_operands : Instr.wf (.cfgl 15 15 15 15 31) = true := by decide

/-! ## Decoding: the words of section 8, bit by bit (D C B A fields before OP) -/

theorem test_decode_nop : decode 0b00000000000000000000000000000000 = .ok .nop := by decide
theorem test_decode_cfg : decode 0b00000101000000000000000000000001 = .ok (.cfg 5) := by decide
theorem test_decode_link : decode 0b00000000001100100001000000000010 = .ok (.link 0 1 2 3) := by decide
theorem test_decode_cfgl : decode 0b00000011001100100001000000000011 = .ok (.cfgl 0 1 2 3 3) := by decide
theorem test_decode_fwd : decode 0b00000000000000000000000000000100 = .ok .fwd := by decide
theorem test_decode_inv : decode 0b00000000000000000000000000000101 = .ok .inv := by decide
theorem test_decode_fwdl : decode 0b00000000000100000011001000000110 = .ok (.fwdl 2 3 0 1) := by decide
theorem test_decode_invl : decode 0b00000000001100100001000000000111 = .ok (.invl 0 1 2 3) := by decide
theorem test_decode_prod_minus : decode 0b00100000010101000011001000001000 = .ok (.prod 2 3 4 5 .minus) := by decide
theorem test_decode_prod_plus : decode 0b00000000010101000011001000001000 = .ok (.prod 2 3 4 5 .plus) := by decide
theorem test_decode_ocfg : decode 0b00000000000001100000000000010000 = .ok (.ocfg 0 6) := by decide
theorem test_decode_ocfgs : decode 0b00000000000001110000000100010001 = .ok (.ocfgs 1 0 7) := by decide
theorem test_decode_ocfgs_master : decode 0b00000000000001110001000000010001 = .ok (.ocfgs 0 1 7) := by decide
theorem test_decode_oflt : decode 0b00000000010101000000000000010010 = .ok (.oflt 0 4 5) := by decide
theorem test_decode_ofls : decode 0b00000000010100000000000000010011 = .ok (.ofls 0 5) := by decide
theorem test_decode_oini : decode 0b00000000000000000000000000010100 = .ok (.oini 0) := by decide
theorem test_decode_oclr : decode 0b00000000000000000000000100010101 = .ok (.oclr 1) := by decide

theorem test_decode_unassigned : [0x09, 0x16].map (fun w => decode (BitVec.ofNat 32 w)) =
    [.error .unassignedOp, .error .unassignedOp] := by decide
theorem test_decode_reserved_op : decode 0x000000F0 = .error .reservedOp := by decide
theorem test_decode_reserved_bits :
    ([0x00000100, 0x40000001, 0x00321001, 0x23000003, 0x40000008, 0x01000008, 0x00000810, 0x00001010, 0x00008011,
      0x01000012, 0x00010013, 0x00100014].all
        (fun w => decide (decode (BitVec.ofNat 32 w) = .error .reservedBits))) = true := by decide

theorem test_tableWord_numbering : decodeTableWord 32 0x00321002 = some (.link 0 1 2 3) := by decide

/-! ## Arithmetic (R13, R15) and the twiddle ROM (section 2) -/

theorem test_add_exact : fadd .binary64 one two = three := by decide +kernel
theorem test_add_tie_to_even : fadd .binary64 0x3FF0000000000001 0x3CA0000000000000 = 0x3FF0000000000002 := by
  decide +kernel
theorem test_add_opposite_is_plus_zero : fadd .binary64 one 0xBFF0000000000000 = 0 := by decide +kernel
theorem test_add_infinities : fadd .binary64 0x7FF0000000000000 0xFFF0000000000000 = 0x7FF8000000000000 := by
  decide +kernel
theorem test_mul_subnormal_tie : fmul .binary64 0x000000000000000C (scale .binary64 3) = 0x0000000000000002 := by
  decide +kernel
theorem test_mul_subnormal_tie_binary32 : fmul .binary32 0x0000000C (scale .binary32 3) = 0x00000002 := by
  decide +kernel
theorem test_mul_overflow : fmul .binary32 0x7F7FFFFF 0x40000000 = 0x7F800000 := by decide +kernel
theorem test_add_infinity_finite : fadd .binary64 0xFFEFFFFFFFFFFFFF 0x7FF0000000000000 = 0x7FF0000000000000 := by decide +kernel
/-- fmul(H, +inf) = +inf (vector 3.10 c). -/
theorem test_mul_infinity : fmul .binary64 0x3FE6A09E667F3BCD 0x7FF0000000000000 = 0x7FF0000000000000 := by decide +kernel
theorem test_mul_zero_infinity : fmul .binary32 0x00000000 0x7F800000 = 0x7FC00000 := by decide +kernel
theorem test_neg_of_nan : fneg .binary64 0x7FF8000000000000 = 0xFFF8000000000000 := by decide +kernel
theorem test_scale : scale .binary64 3 = 0x3FC0000000000000 ∧ scale .binary32 3 = 0x3E000000 := by decide

theorem test_rom_binary32 : (List.range 4).map (fun t => rom ⟨3, 4, 1, .binary32⟩ t 0) = [0x3F800000, 0x3F800000, 0, 0] := by
  decide +kernel
theorem test_rom_cosine : rom Build.reference 0 64 = 0x3FED906BCF328D46 := by decide +kernel
theorem test_rom_triple_cosine_negative : rom Build.reference 1 127 = 0xBFE63503A31C1BE9 := by decide +kernel
theorem test_rom_negative_sine : rom Build.reference 2 1 = 0xBF7921F0FE670071 := by decide +kernel
theorem test_rom_triple_sine_binary32 : rom ⟨10, 8, 2, .binary32⟩ 3 127 = 0xBF385216 := by decide +kernel
theorem test_rom_first_entries : (List.range 4).map (fun t => rom Build.reference t 0) = [one, one, 0, 0] := by
  decide +kernel
theorem test_tab_size16 : tab Build.reference 1 4 1 = 0x3FD87DE2A6AEA963 ∧ tab Build.reference 3 4 1 =
    0xBFED906BCF328D46 := by decide +kernel

/-! ## One step of each command -/

theorem test_nop_sets_done : statusAfter (step (State.reset.withFetchWord 32 0x00000000)) = some 0x00000002 := by decide
theorem test_cfg_example : (nextState (step (State.reset.withFetchWord 32 0x05000001))).map
    (fun t => (tcfgWord t, nodecntWord t)) = some (0x105, 4) := by decide
theorem test_cfg_too_large : statusAfter (exec (.cfg 11) linked8) = some 0x104 := by decide
theorem test_cfgl_example : (nextState (exec (.cfgl 0 1 2 3 3) State.reset)).map (fun t => (tcfgWord t, tlinkWord t)) =
    some (0x303, 0x3210) := by decide
theorem test_cfgl_size_before_aliasing : (nextState (exec (.cfgl 0 0 0 0 2) State.reset)).map
    (fun t => (statusWord t, t.errcmd)) = some (0x104, 0x02000003) := by decide
theorem test_link_same_source : (nextState (exec (.link 4 4 5 6) linked8)).map tlinkWord = some 0x6544 := by decide
theorem test_link_aliased : statusAfter (exec (.link 0 1 1 2) linked8) = some 0x104 := by decide
theorem test_fwd_impulse : sampleAfter (exec .fwd impulse) 3 1 = some 0xBFE6A09E667F3BCD := by decide +kernel
theorem test_fwd_unlinked : statusAfter (exec .fwd { linked8 with facade := ⟨true, 3, false, 0, 0, 0, 0⟩ }) = some 0x204 := by
  decide
theorem test_fwdl_links : (nextState (exec (.fwdl 0 1 4 5) impulse)).map (fun t => (tlinkWord t, t.sample 4 1)) =
    some (0x5410, 0x3FE6A09E667F3BCD) := by decide +kernel
theorem test_inv_direction : sampleAfter (exec .inv impulse) 3 1 = some 0x3FB6A09E667F3BCD := by decide +kernel
theorem test_inv_unconfigured : statusAfter (exec .inv State.reset) = some 0x204 := by decide
theorem test_invl_links : (nextState (exec (.invl 0 1 6 7) impulse)).map (fun t => (tlinkWord t, t.sample 7 7)) =
    some (0x7610, 0xBFB6A09E667F3BCD) := by decide +kernel

/-- X = (1, 2) in banks 0 and 1, Y = (3, 4) in banks 2 and 3, count 1 (the example of R189). -/
def products : State :=
  { withBank 0 [one] (withBank 1 [two] (withBank 2 [three] (withBank 3 [0x4010000000000000] State.reset))) with arg0 := 1 }

theorem test_prod_plus : (nextState (exec (.prod 0 1 2 3 .plus) products)).map (fun t => (t.sample 2 0, t.sample 3 0)) =
    some (0xC014000000000000, 0x4024000000000000) := by decide +kernel
theorem test_prod_minus : (nextState (exec (.prod 0 1 2 3 .minus) products)).map (fun t => (t.sample 2 0, t.sample 3 0)) =
    some (0x4026000000000000, 0xC000000000000000) := by decide +kernel

theorem test_ocfg_spectrum : (nextState (exec (.ocfg 0 6) kernelState)).map (fun t => (cstateWord t 0, t.krAt 0 1, t.kiAt 0 1)) =
    some (0x1, 0x4003504F333F9DE6, 0xC011A827999FCEF3) := by decide +kernel
theorem test_ocfg_of_a_master : statusAfter (exec (.ocfg 0 6) group) = some 0x204 := by decide
theorem test_ocfgs_counts_the_slave :
    (nextState (exec (.ocfgs 1 0 7) { owner with arg0 := 3, arg1 := 6 })).map (fun t => (cstateWord t 0, cstateWord t 1)) =
      some (0x101, 0x2) := by decide +kernel
theorem test_ocfgs_kernel_length : statusAfter (exec (.ocfgs 1 0 7) { owner with arg0 := 4, arg1 := 4 }) = some 0x104 := by
  decide
/-- The second block of vector 6.2: the impulse at position 1 of the block. -/
theorem test_oflt_second_block :
    ((nextState (exec (.ocfg 0 6) kernelState)).bind (fun t =>
        nextState (exec (.oflt 0 4 5) { withBank 4 [0, one, 0, 0] t with arg0 := 0, arg1 := 0 }))).map
      (fun t => (t.sample 5 0, t.sample 5 1, t.accAt 0 0)) =
    some (0xBC90000000000000, 0x3FEFFFFFFFFFFFFE, 0x3C90000000000000) := by decide +kernel
theorem test_oflt_offset : statusAfter (exec (.oflt 0 4 5) { owner with arg0 := 1021 }) = some 0x104 := by decide
theorem test_ofls_emits_and_shifts :
    (nextState (exec (.ofls 0 5) owner)).map (fun t => (t.sample 5 1022, t.accAt 0 5)) = some (three, 0) := by
  decide +kernel
theorem test_ofls_of_a_free_context : statusAfter (exec (.ofls 1 5) owner) = some 0x204 := by decide
theorem test_oini_clears : (nextState (exec (.oini 0) owner)).map (fun t => (t.accAt 0 0, (t.ctx 0).klen)) = some (0, 3) := by
  decide +kernel
theorem test_oini_of_a_free_context : statusAfter (exec (.oini 1) owner) = some 0x204 := by decide
theorem test_oclr_of_a_slave : (nextState (exec (.oclr 1) group)).map (fun t => (cstateWord t 0, cstateWord t 1)) =
    some (0x1, 0) := by decide
theorem test_oclr_of_a_master : (nextState (exec (.oclr 0) group)).map (fun t => (statusWord t, t.errcmd)) =
    some (0x204, 0x15) := by decide

/-! ## Host transactions and events -/

theorem test_read_param : readBack (step { State.reset with bus := [.read 0x00000008] }) = some 0x0001710A := by decide
theorem test_read_rom_high_word : hostRead 0x00400004 State.reset = 0x3FF00000 := by decide +kernel
theorem test_read_beyond_the_rom : hostRead 0x00401000 State.reset = 0 := by decide
theorem test_node_window : [0x00200020, 0x00200024, 0x00200028, 0x0020002C, 0x00200040].map
    (fun a => hostRead (BitVec.ofNat 32 a) { State.reset with nodes := buildTable 5 0 1 0 }) =
      [0x301, 1, 4, 16, 0] := by decide
/-- Bank[2][5] = 1.0 (vector 7.4), read at a misaligned address as well. -/
theorem test_byte_order :
    (hostRead 0x0800402C (State.reset.setSample 2 5 one), hostRead 0x0800402E (State.reset.setSample 2 5 one),
      (State.reset.setSample 2 5 one).byte 0x0800402E) = (0x3FF00000, 0x3FF00000, 0xF0) := by decide
theorem test_half_write :
    sampleAfter (stepWrite 0x0800402C 0x40000000 (State.reset.setSample 2 5 one)) 2 5 = some two := by decide
theorem test_misaligned_write : (nextState (stepWrite 0x00000016 3 State.reset)).map irqenWord = some 3 := by decide
theorem test_partial_write_of_cmd :
    statusAfter (step { State.reset with bus := [.write 0x0000000C 0x00000004 0b0001] }) = some 0 := by decide
theorem test_illegal_command : (nextState (stepWrite 0x0000000C 0x00000804 State.reset)).map
    (fun t => (statusWord t, t.errcmd)) = some (0x304, 0x804) := by decide
/-- Row 3 of vector 7.5. -/
theorem test_second_error : statusAfter (exec (.cfg 2) { State.reset with err := true, errcode := .invalidState }) =
    some 0x20C := by decide
theorem test_clrerr : statusAfter (stepWrite 0x00000010 0x0000000C
    { State.reset with err := true, errcode := .illegalCmd, errcmd := 9, errovf := true, done := true }) = some 2 := by decide
/-- Case A of row 11 of vector 7.5, with DONE clear. -/
theorem test_busy_rejection : statusAfter (stepWrite 0x0000000C 0 busy2) = some 0x405 := by decide
theorem test_stall : (nextState (step { busy2 with bus := [.read 0x08000000] })).map
    (fun t => (tlinkWord t, t.done, t.bus)) = some (0x7654, true, [.read 0x08000000]) := by decide
theorem test_no_stall_of_csr : readBack (step { busy2 with bus := [.read 0x00000010] }) = some 1 := by decide
theorem test_completion_when_the_host_is_silent : statusAfter (step busy2) = some 2 := by decide
theorem test_reset_while_busy : (nextState (step { busy2 with bus := [.reset] })).map
    (fun t => (t.seq, t.facade, statusWord t)) = some (.idle, Facade.fresh, 0) := by decide
theorem test_idle_waits : nextState (step State.reset) = some State.reset := by decide

/-! ## Witnesses -/

theorem witness_DecodeOfEncode : Instr.wf (.ocfgs 7 7 15) = true := by decide
theorem witness_EncodeOfDecode : decode 0x3FFFFF08 = .error .reservedBits ∧ decode 0x20FFFF08 = .ok (.prod 15 15 15 15 .minus) := by
  decide
theorem witness_DecodingIsTheUniqueRow : ∃ r ∈ opcodeRows, r.matches 0x00321002 = true := by
  exact ⟨_, List.mem_of_getElem? (show opcodeRows[2]? = some _ from rfl), by decide⟩
theorem witness_StepRunsTheCommand :
    State.reset.seq = .idle ∧ alignedAddr 0x0000000F = 0x00C ∧
    ({ State.reset with bus := [.write 0x0000000F 4 0b1111] } : State).bus = .write 0x0000000F 4 0b1111 :: [] ∧
    decode 4 = .ok .fwd := by decide
theorem witness_IllegalWordsAreRejected :
    (∀ r ∈ opcodeRows, bits r.pattern 7 0 ≠ bits 0x00000009 7 0) ∧
    (∃ r ∈ opcodeRows, bits r.pattern 7 0 = bits 0x00000804 7 0 ∧ 0x00000804 &&& r.mask ≠ r.pattern) ∧
    alignedAddr 0x0000000C = 0x00C ∧ decode 0x000000FF = .error .reservedOp := by
  refine ⟨by decide, ⟨_, List.mem_of_getElem? (show opcodeRows[4]? = some _ from rfl), by decide⟩, by decide, by decide⟩
theorem witness_BusyRejects : busy2.seq = .busy (.link 4 5 6 7) 7 8 2 ∧ alignedAddr 0x0000000F = 0x00C ∧
    alignedAddr 0x00000018 = 0x018 ∧ alignedAddr 0x0000001F = 0x01C := by decide
theorem witness_RejectionIsRecorded : State.reset.err = false ∧ ({ State.reset with err := true } : State).err = true ∧
    (0x00000004 : Word).getLsbD 2 = true := by decide
theorem witness_ChecksNameTwoCodes : checkOf (.link 0 1 2 3) 0 0 State.reset = some .invalidState := by decide
theorem witness_FacadeCommandsRejected :
    State.reset.seq = .idle ∧ ¬ (3 ≤ 2 ∧ 2 ≤ State.reset.build.log2nMax) ∧ ¬ (3 ≤ 11 ∧ 11 ≤ State.reset.build.log2nMax) ∧
    ¬ LinkLegal linked8.build 0 1 2 8 ∧ linked8.facade.configured = true ∧ State.reset.facade.configured = false ∧
    ({ linked8 with facade := ⟨true, 3, false, 0, 0, 0, 0⟩ } : State).facade.linked = false ∧
    ¬ (((0 < linked8.build.nbank ∧ 1 < linked8.build.nbank ∧ 2 < linked8.build.nbank ∧ 3 < linked8.build.nbank) ∧ 2 ≠ 3) ∧
        ({ linked8 with arg0 := 1025 } : State).arg0.toNat ≤ linked8.build.nmax) := by decide
theorem witness_ContextCommandsRejected_range : State.reset.seq = .idle ∧ State.reset.build.nctx ≤ 2 := by decide
theorem witness_ContextCommandsRejected_free : 1 < owner.build.nctx ∧ (owner.ctx 1).st = .free := by decide
theorem witness_ContextCommandsRejected_used : 0 < owner.build.nctx ∧ (owner.ctx 0).st ≠ .free ∧ owner.build.nbank ≤ 8 ∧
    owner.build.nmax - (owner.ctx 0).blk < ({ owner with arg0 := 1021, arg1 := 1021 } : State).arg0.toNat := by decide
theorem witness_ContextCommandsRejected_ocfg : (∀ d, ¬ SlaveOf owner 0 d) ∧ owner.build.nbank ≤ 8 ∧
    nfftLg owner.build 1024 2 = none ∧ nfftLg owner.build 0 4 = none := by
  exact ⟨(nslaves_eq_zero_iff _ _).1 (by decide), by decide, by decide, by decide⟩
theorem witness_ContextCommandsRejected_ocfgs : (∀ d, ¬ SlaveOf group 1 d) ∧ 0 < group.build.nctx ∧ (0 : Nat) ≠ 1 ∧
    (State.reset.ctx 0).st = .free ∧ (group.ctx 1).st = .slave ∧ (group.ctx 0).st = .owner ∧ (4 : Nat) ≠ (group.ctx 0).klen ∧
    2 ^ (group.ctx 0).lgfft < 3 + 7 - 1 := by
  exact ⟨(nslaves_eq_zero_iff _ _).1 (by decide), by decide⟩

/-- An idle state whose next command completes after two host transactions. -/
def delayed : State := { linked8 with delays := [2, 0] }

theorem witness_AcceptanceLatches : delayed.seq = .idle ∧ delayed.nextDelay = 1 + 1 ∧
    checkOf .fwd delayed.arg0 delayed.arg1 delayed = none := by decide
theorem witness_CompletionEvent : busy2.seq = .busy (.link 4 5 6 7) 7 8 2 ∧ completionDue busy2 = true := by decide
theorem witness_LatencyDoesNotMatter : ∃ t u, delayed.seq = .idle ∧
    checkOf .fwd delayed.arg0 delayed.arg1 delayed = none ∧
    exec .fwd { delayed with delays := (1 + 1) :: [0] } = .next t ∧ exec .fwd { delayed with delays := 0 :: [0] } = .next u :=
  ⟨_, _, by decide, by decide, rfl, rfl⟩
theorem witness_HostEventsDoNotDisturb : ∃ t, busy2.seq = .busy (.link 4 5 6 7) 7 8 (1 + 1) ∧
    (HostOp.write 0x00000018 5 0b1111) ≠ .reset ∧ (HostOp.write 0x00000018 5 0b1111).stalls = false ∧
    step { busy2 with bus := .write 0x00000018 5 0b1111 :: [] } = .next t :=
  ⟨_, by decide, by decide, by decide, rfl⟩
theorem witness_EveryCommandEnds : busy2.seq = .busy (.link 4 5 6 7) 7 8 2 := by decide
theorem witness_NopResult : ReadyAtOnce State.reset := by decide
theorem witness_ConfigureResult : ReadyAtOnce State.reset ∧ 3 ≤ State.reset.build.log2nMax ∧
    10 ≤ State.reset.build.log2nMax ∧ LinkLegal State.reset.build 0 0 6 7 := by decide
theorem witness_LinkResult : ReadyAtOnce linked8 ∧ linked8.facade.configured = true ∧ LinkLegal linked8.build 4 4 5 6 := by
  decide
theorem witness_ForwardResult : ReadyAtOnce linked8 ∧ linked8.facade.configured = true ∧ linked8.facade.linked = true ∧
    FacadeOk linked8 ∧ LinkLegal linked8.build 2 3 0 1 := by decide
theorem witness_InverseResult : ReadyAtOnce impulse ∧ impulse.facade.configured = true ∧ impulse.facade.linked = true ∧
    FacadeOk impulse ∧ LinkLegal impulse.build 0 1 6 7 := by decide
theorem witness_ProductResult : ReadyAtOnce products ∧ 0 < products.build.nbank ∧ 7 < products.build.nbank ∧ (6 : Nat) ≠ 7 ∧
    products.arg0.toNat ≤ products.build.nmax ∧
    ({ products with arg0 := 1024 } : State).arg0.toNat ≤ products.build.nmax := by decide
theorem witness_ContextConfigurationResult_owner : ReadyAtOnce kernelState ∧
    kernelState.ctxs.length = kernelState.build.nctx ∧ 1 < kernelState.build.nctx ∧ (∀ d, ¬ SlaveOf kernelState 1 d) ∧
    7 < kernelState.build.nbank ∧ nfftLg kernelState.build kernelState.arg0.toNat kernelState.arg1.toNat = some 3 := by
  exact ⟨by decide, by decide, by decide, (nslaves_eq_zero_iff _ _).1 (by decide), by decide⟩
theorem witness_ContextConfigurationResult_slave : ReadyAtOnce group ∧ group.ctxs.length = group.build.nctx ∧
    1 < group.build.nctx ∧ (∀ d, ¬ SlaveOf group 1 d) ∧ 0 < group.build.nctx ∧ (0 : Nat) ≠ 1 ∧ (group.ctx 0).st = .owner ∧
    (group.ctx 0).klen = group.arg0.toNat ∧ (group.ctx 0).lgfft = 3 ∧ 1 ≤ group.arg1.toNat ∧
    group.arg0.toNat + group.arg1.toNat - 1 ≤ 2 ^ 3 := by
  exact ⟨by decide, by decide, by decide, (nslaves_eq_zero_iff _ _).1 (by decide), by decide⟩
theorem owner_contextsOk : ContextsOk owner := by
  refine ⟨by decide, fun c hc => ?_⟩
  replace hc : c < 2 := hc
  interval_cases c
  · exact ⟨by decide, fun _ => ⟨by decide, by decide⟩, by decide, by decide⟩
  · exact ⟨by decide, by decide, by decide, by decide⟩
theorem owner_entriesFit : EntriesFit owner := fun _ _ v _ => v.isLt
theorem witness_FilterResult : ReadyAtOnce owner ∧ ContextsOk owner ∧ 0 < owner.build.nctx ∧ (owner.ctx 0).st ≠ .free ∧
    7 < owner.build.nbank ∧ owner.arg0.toNat ≤ owner.build.nmax - (owner.ctx 0).blk ∧
    owner.arg1.toNat ≤ owner.build.nmax - (owner.ctx 0).blk := ⟨by decide, owner_contextsOk, by decide⟩
theorem witness_FlushResult : ReadyAtOnce owner ∧ ContextsOk owner ∧ EntriesFit owner ∧ 0 < owner.build.nctx ∧
    (owner.ctx 0).st ≠ .free ∧ 7 < owner.build.nbank ∧ owner.arg1.toNat ≤ owner.build.nmax - (owner.ctx 0).blk :=
  ⟨by decide, owner_contextsOk, owner_entriesFit, by decide⟩
theorem witness_InitialiseResult : ReadyAtOnce owner ∧ owner.ctxs.length = owner.build.nctx ∧ 0 < owner.build.nctx ∧
    (owner.ctx 0).st ≠ .free := by decide
theorem witness_ReleaseResult : ReadyAtOnce group ∧ group.ctxs.length = group.build.nctx ∧ 1 < group.build.nctx ∧
    (∀ d, ¬ SlaveOf group 1 d) ∧ (group.ctx 1).st = .slave := by
  exact ⟨by decide, by decide, by decide, (nslaves_eq_zero_iff _ _).1 (by decide), by decide⟩
theorem witness_InvariantAtReset : Build.reference.valid ∧ (⟨20, 16, 8, .binary32⟩ : Build).valid ∧
    (⟨3, 4, 1, .binary64⟩ : Build).valid := by decide
theorem group_contextsOk : ContextsOk group := by
  refine ⟨by decide, fun c hc => ?_⟩
  replace hc : c < 2 := hc
  interval_cases c
  · exact ⟨by decide, fun _ => ⟨by decide, by decide⟩, by decide, by decide⟩
  · exact ⟨by decide, by decide, by decide, by decide⟩
theorem group_dataInv : group.build.valid ∧ MemoryOk group ∧ ErrorsOk group ∧ FacadeOk group ∧ NodesOk group :=
  ⟨by decide, ⟨by decide, by intro c hc; cases hc⟩, by decide, ⟨by decide, by decide, by decide, by decide⟩, by decide⟩
theorem group_inv (q : Sequencer) (h : pendingOk { group with seq := q } = true) : Inv { group with seq := q } :=
  ⟨group_dataInv.1, group_dataInv.2.1, group_dataInv.2.2.1, group_dataInv.2.2.2.1, group_dataInv.2.2.2.2,
    group_contextsOk, h⟩
theorem witness_StepKeepsInvariant : ∃ t, Inv { group with seq := .busy (.oclr 1) 3 6 0 } ∧
    step { group with seq := .busy (.oclr 1) 3 6 0 } = .next t := ⟨_, group_inv _ (by decide), rfl⟩
theorem witness_StepKeepsFormats : ∃ t, step owner = .next t ∧ EntriesFit owner := ⟨owner, rfl, owner_entriesFit⟩
theorem witness_OnlyTheHostWritesOperands : ∃ t, exec .fwd impulse = .next t := ⟨_, rfl⟩
theorem witness_CommandsWriteTheirSamplesOnly : ∀ w ∈ bankSpans linked8 0 0 .fwd,
    OutsideSpan linked8.build w.bank w.first w.count (sampleAddr linked8.build 2 8) := by decide
theorem witness_MasterLifetime : group.seq = .idle ∧ 0 < group.build.nctx ∧ SlaveOf group 0 1 ∧ 1 < group.build.nctx ∧
    (1 : Nat) ≠ 0 := by decide
theorem witness_ControlRegistersRead : State.reset.build.valid := by decide
theorem witness_ConfigurationRegistersRead : Inv group ∧ 1 < group.build.nctx ∧ group.build.nctx ≤ 7 :=
  ⟨group_inv .idle rfl, by decide⟩
theorem witness_RegisterWrites : alignedAddr 0x00000013 = 0x010 ∧ alignedAddr 0x00000016 = 0x014 ∧
    alignedAddr 0x00000018 = 0x018 ∧ alignedAddr 0x0000001C = 0x01C := by decide
theorem witness_InterruptLevel : busy2.busy = true ∧ ({ busy2 with doneie := true } : State).doneie = true ∧
    ({ busy2 with errie := true } : State).errie = true ∧ ({ linked8 with done := true } : State).done = true ∧
    (0x00000001 : Word).getLsbD 0 = true := by decide
theorem witness_UnpopulatedReadsZero :
    placeOf 0x00000030 = .csr 0x030 ∧ placeOf 0x000000C3 = .csr 0x0C0 ∧ placeOf 0x00001000 = .unmapped ∧
    placeOf 0x001FFFFF = .unmapped ∧ placeOf 0x00200010 = .node 16 ∧ linked8.nodes.length * 16 = 16 ∧
    placeOf 0x00401000 = .twiddle 0x1000 ∧ 4 * (linked8.build.nmax / 8) * linked8.build.wb = 0x1000 ∧
    placeOf 0x08010000 = .data 0x10000 ∧ linked8.build.nbank * linked8.build.nmax * linked8.build.wb = 0x10000 ∧
    0x000 ∉ [0x00C, 0x010, 0x014, 0x018, 0x01C] ∧ placeOf 0xFFFFFFFF = .unmapped := by decide
theorem witness_TransactionForm : (0x0000002C : Word).toNat / 4 = (0x0000002F : Word).toNat / 4 ∧ (0b0111 : BitVec 4) ≠ 0b1111 := by
  decide
theorem witness_DataWordsReadBack : placeOf 0x08000000 = .data 0 ∧ placeOf 0x0800FFFC = .data 0xFFFC ∧
    0xFFFC < State.reset.build.nbank * State.reset.build.nmax * State.reset.build.wb ∧
    alignedAddr 0x08000004 ≠ alignedAddr 0x08000000 := by decide
theorem witness_SamplesInTheDataWindow : State.reset.build.valid ∧ 7 < State.reset.build.nbank ∧
    1023 < State.reset.build.nmax ∧ State.reset.build.prec = .binary64 ∧
    (State.resetOf ⟨3, 4, 1, .binary32⟩).build.valid ∧ (State.resetOf ⟨3, 4, 1, .binary32⟩).build.prec = .binary32 := by decide
theorem witness_NodeWindow : (buildTable 5 0 1 0)[3]? = some ⟨.base8, 3, 3, 4, 24⟩ ∧ 3 < 131072 := by decide
theorem witness_TwiddleWindow : State.reset.build.valid ∧ 3 < 4 ∧ 127 < State.reset.build.nmax / 8 ∧
    State.reset.build.prec = .binary64 ∧ (State.resetOf ⟨3, 4, 1, .binary32⟩).build.prec = .binary32 := by decide
theorem witness_StallRule : busy2.seq = .busy (.link 4 5 6 7) 7 8 2 ∧ (HostOp.read 0x00200000).stalls = true ∧
    (HostOp.read 0x0FFFFFFF).stalls = true ∧ (HostOp.read 0x001FFFFF).stalls = false ∧
    (HostOp.read 0x00400000).stalls = false ∧ (HostOp.read 0x10000000).stalls = false ∧ 2 ≠ 0 := by decide
theorem witness_ResetWhileBusyKeeps : ({ linked8 with seq := .busy .fwd 0 0 1 } : State).seq = .busy .fwd 0 0 1 ∧
    (∀ w ∈ bankSpans linked8 0 0 .fwd, OutsideSpan linked8.build w.bank w.first w.count (sampleAddr linked8.build 4 0)) ∧
    contextSpan group 0 0 (.oini 0) = some (0, false, 8) := by decide
theorem witness_TreeShape : ∃ d post, buildTable 5 0 1 0 = [] ++ d :: post ∧ d.kind = .generic := ⟨_, _, rfl, rfl⟩
theorem witness_TableDrivenEvaluation : (List.replicate 8 (⟨0, 0⟩ : Cpx Sample)).length = 2 ^ 3 := by decide
theorem witness_ForwardDependsOnItsInput : 2 ^ 3 ≤ (List.replicate 9 (⟨0, 0⟩ : Cpx Sample)).length ∧
    ∀ j < 2 ^ 3, (arithOf Build.reference).at (List.replicate 8 ⟨one, one⟩) j =
      (arithOf Build.reference).at (List.replicate 9 ⟨one, one⟩) j := by decide
theorem witness_TransformSizeRule : nfftLg Build.reference 100 29 = some 7 ∧ nfftLg Build.reference 100 30 = some 8 ∧
    nfftLg Build.reference 1 1 = some 3 ∧ nfftLg Build.reference 1024 1 = some 10 := by decide
theorem witness_TwiddleTables_values : Build.reference.valid ∧ Build.reference.log2nMax ≤ 10 ∧ 3 < 4 ∧
    127 < Build.reference.nmax / 8 ∧ (⟨20, 16, 8, .binary32⟩ : Build).valid ∧
    131071 < (⟨20, 16, 8, .binary32⟩ : Build).nmax / 8 ∧
    fbits .binary64 one < infBits .binary64 ∧ fbits .binary64 0xFFEFFFFFFFFFFFFF < infBits .binary64 := by decide +kernel
theorem witness_TwiddleTables_other :
    valueOf Build.reference.prec one ≠ valueOf Build.reference.prec (rom Build.reference 3 127) := by
  have h : quanta .binary64 one ≠ quanta .binary64 (rom Build.reference 3 127) := by decide +kernel
  intro e
  exact h (Int.cast_injective (α := ℝ) ((div_left_inj' (pow_ne_zero _ two_ne_zero)).1 e))
theorem witness_TwiddleTables_build : (⟨4, 4, 1, .binary64⟩ : Build).prec = Build.reference.prec ∧
    4 ≤ (⟨4, 4, 1, .binary64⟩ : Build).log2nMax ∧ 4 ≤ Build.reference.log2nMax ∧ 1 < 2 ^ 4 / 8 := by decide
theorem witness_PrimitivesRound : fbits .binary64 one < infBits .binary64 ∧
    fbits .binary64 0xFFEFFFFFFFFFFFFF < infBits .binary64 ∧ quanta .binary32 0x00000001 + quanta .binary32 0x00000002 ≠ 0 ∧
    quanta .binary32 0x00000001 + quanta .binary32 0x80000001 = 0 := by decide +kernel
theorem witness_PrimitivesAndNaN : isNaN .binary64 (fadd .binary64 0x7FF0000000000000 0xFFF0000000000000) = true ∧
    isNaN .binary32 (fmul .binary32 0x7F800000 0x80000000) = true ∧ isInf .binary32 0xFF800000 = true ∧
    fbits .binary32 0x7F7FFFFF < infBits .binary32 ∧ fsign .binary32 0xFF800000 = fsign .binary32 0xFF800000 ∧
    isNaN .binary32 0x00000001 = false ∧ isZero .binary32 0x00000001 = false := by decide +kernel
/-- Exact arithmetic exists: the real numbers with the tables as R140 writes them. -/
noncomputable def exactReals : Arith ℝ where
  add := (· + ·)
  sub := (· - ·)
  mul := (· * ·)
  neg := fun a => -a
  zero := 0
  h := √2 / 2
  tab t lg i :=
    match t with
    | 0 => Real.cos (2 * Real.pi * i / 2 ^ lg)
    | 1 => Real.cos (6 * Real.pi * i / 2 ^ lg)
    | 2 => -Real.sin (2 * Real.pi * i / 2 ^ lg)
    | _ => -Real.sin (6 * Real.pi * i / 2 ^ lg)
  scale lg := (2 ^ lg : ℝ)⁻¹

theorem exactReals_exact : ExactArith exactReals :=
  ⟨fun _ _ => rfl, fun _ _ => rfl, fun _ _ => rfl, fun _ => rfl, rfl, rfl, fun _ _ _ => rfl, fun _ _ _ => rfl,
    fun _ _ _ => rfl, fun _ _ _ => rfl, fun _ => rfl⟩

theorem witness_ForwardIsTheDft : ExactArith exactReals ∧ 3 ≤ 3 ∧ 7 < 2 ^ 3 := ⟨exactReals_exact, by decide, by decide⟩
theorem witness_InverseUndoesForward : ExactArith exactReals ∧ 3 ≤ 20 ∧ 0 < 2 ^ 20 :=
  ⟨exactReals_exact, by decide, by decide⟩
theorem witness_OverlapAddConvolves : ExactArith exactReals ∧ ([1, 2, 3] : List ℝ).length + ([1, 2, 3, 4, 5, 6] : List ℝ).length - 1 ≤ 2 ^ 3 ∧
    1 ≤ ([1, 2, 3] : List ℝ).length ∧ 1 ≤ ([1, 2, 3, 4, 5, 6] : List ℝ).length ∧ 7 < 2 ^ 3 :=
  ⟨exactReals_exact, by simp, by simp, by simp, by decide⟩

end Sys2Proof.Tests
end

section
/-!
PROOF. The arithmetic primitives (spec/00_scope.md rule R13): the sign and the magnitude of a packed value, the two values
of the format next to an exact magnitude, and the branches of `fadd` and `fmul`.
-/
namespace Sys2Proof.Machine

/-! ## The sign and the magnitude bits of a value -/

theorem fsign_eq_testBit (p : Prec) (x : Sample) : fsign p x = x.toNat.testBit (p.width - 1) := by
  rw [Nat.testBit_eq_decide_div_mod_eq]
  rfl

theorem pack_toNat (p : Prec) (g : Bool) {n : Nat} (h : n < signWeight p) :
    (pack p g n).toNat = if g then signWeight p + n else n := by
  have hw : 2 * signWeight p ≤ 2 ^ 64 := by cases p <;> decide
  rw [pack, BitVec.toNat_ofNat]
  apply Nat.mod_eq_of_lt
  split <;> omega

@[simp] theorem fbits_pack (p : Prec) (g : Bool) {n : Nat} (h : n < signWeight p) : fbits p (pack p g n) = n := by
  rw [fbits, pack_toNat p g h]
  cases g
  · exact Nat.mod_eq_of_lt h
  · exact (Nat.add_mod_left _ _).trans (Nat.mod_eq_of_lt h)

@[simp] theorem fsign_pack (p : Prec) (g : Bool) {n : Nat} (h : n < signWeight p) : fsign p (pack p g n) = g := by
  rw [fsign, pack_toNat p g h]
  cases g
  · simp [Nat.div_eq_of_lt h]
  · have hd : (signWeight p + n) / signWeight p = 1 :=
      Nat.div_eq_of_lt_le (by omega) (by omega)
    simp [hd]

theorem isNaN_eq_false_of_lt {p : Prec} {x : Sample} (h : fbits p x < infBits p) : isNaN p x = false := by
  simp only [isNaN, decide_eq_false_iff_not]
  omega

theorem isInf_eq_false_of_lt {p : Prec} {x : Sample} (h : fbits p x < infBits p) : isInf p x = false := by
  simp only [isInf, decide_eq_false_iff_not]
  omega

theorem isNaN_of_isInf {p : Prec} {x : Sample} (h : isInf p x = true) : isNaN p x = false := by
  simp only [isInf, isNaN, decide_eq_true_eq, decide_eq_false_iff_not] at *
  omega

theorem infBits_pos (p : Prec) : 0 < infBits p := by cases p <;> decide

theorem isZero_of_isInf {p : Prec} {x : Sample} (h : isInf p x = true) : isZero p x = false := by
  have := infBits_pos p
  simp only [isZero, isInf, decide_eq_true_eq, decide_eq_false_iff_not] at *
  omega

theorem isNaN_qNaN (p : Prec) : isNaN p (qNaN p) = true := by cases p <;> decide

/-- A packed magnitude of at most infinity is no NaN. -/
theorem isNaN_pack (p : Prec) (g : Bool) {n : Nat} (h : n ≤ infBits p) : isNaN p (pack p g n) = false := by
  rw [isNaN, fbits_pack p g (h.trans_lt (infBits_lt p))]
  simpa using h

/-! ## The sign change -/

theorem fsign_fneg (p : Prec) (a : Sample) : fsign p (fneg p a) = !fsign p a := by
  have hs : (BitVec.ofNat 64 (signWeight p)).toNat = 2 ^ (p.width - 1) := by cases p <;> rfl
  rw [fsign_eq_testBit, fsign_eq_testBit, fneg, BitVec.toNat_xor, hs, Nat.testBit_xor, Nat.testBit_two_pow_self,
    Bool.xor_true]

theorem fbits_fneg (p : Prec) (a : Sample) : fbits p (fneg p a) = fbits p a := by
  have hs : (BitVec.ofNat 64 (signWeight p)).toNat = 2 ^ (p.width - 1) := by cases p <;> rfl
  apply Nat.eq_of_testBit_eq
  intro i
  rw [fbits, fbits, fneg, BitVec.toNat_xor, hs, signWeight, Nat.testBit_mod_two_pow, Nat.testBit_mod_two_pow,
    Nat.testBit_xor, Nat.testBit_two_pow]
  by_cases h : i < p.width - 1
  · simp [h, h.ne']
  · simp [h]

/-! ## The branches of the sum -/

theorem fadd_of_isNaN {p : Prec} {a b : Sample} (h : isNaN p a = true ∨ isNaN p b = true) :
    fadd p a b = qNaN p := by
  simp [fadd, h]

theorem fadd_opposite_infinities {p : Prec} {a b : Sample} (ha : isInf p a = true) (hb : isInf p b = true)
    (hs : fsign p a ≠ fsign p b) : fadd p a b = qNaN p := by
  simp [fadd, ha, hb, hs]

theorem fadd_infinity_left {p : Prec} {a b : Sample} (ha : isInf p a = true) (hb : isNaN p b = false)
    (hs : isInf p b = true → fsign p a = fsign p b) : fadd p a b = pack p (fsign p a) (infBits p) := by
  cases hi : isInf p b
  · simp [fadd, isNaN_of_isInf ha, hb, ha, hi]
  · simp [fadd, isNaN_of_isInf ha, hb, ha, hi, hs hi]

theorem fadd_infinity_right {p : Prec} {a b : Sample} (hb : isInf p b = true) (ha : isNaN p a = false)
    (hs : isInf p a = true → fsign p a = fsign p b) : fadd p a b = pack p (fsign p b) (infBits p) := by
  cases hi : isInf p a
  · simp [fadd, isNaN_of_isInf hb, ha, hb, hi]
  · simp [fadd, isNaN_of_isInf hb, ha, hb, hi, hs hi]

theorem fadd_of_finite {p : Prec} {a b : Sample} (ha : fbits p a < infBits p) (hb : fbits p b < infBits p) :
    fadd p a b = faddFinite p a b := by
  simp [fadd, isNaN_eq_false_of_lt ha, isNaN_eq_false_of_lt hb, isInf_eq_false_of_lt ha, isInf_eq_false_of_lt hb]

/-- The finite sum is a packed magnitude of at most infinity. -/
theorem faddFinite_eq_pack (p : Prec) (a b : Sample) : ∃ g n, n ≤ infBits p ∧ faddFinite p a b = pack p g n := by
  unfold faddFinite
  dsimp only
  split
  · exact ⟨_, 0, Nat.zero_le _, rfl⟩
  · exact ⟨_, _, roundMag_le p _ _, rfl⟩

/-- The operands whose sum is a NaN (R13). -/
abbrev SumInvalid (p : Prec) (a b : Sample) : Prop :=
  isNaN p a = true ∨ isNaN p b = true ∨ (isInf p a = true ∧ isInf p b = true ∧ fsign p a ≠ fsign p b)

theorem not_nan_cases {p : Prec} {a : Sample} (h : isNaN p a = false) : isInf p a = true ∨ fbits p a < infBits p := by
  simp only [isNaN, isInf, decide_eq_true_eq, decide_eq_false_iff_not] at *
  omega

theorem fadd_of_invalid {p : Prec} {a b : Sample} (h : SumInvalid p a b) : fadd p a b = qNaN p := by
  obtain ha | hb | ⟨ha, hb, hs⟩ := h
  · exact fadd_of_isNaN (.inl ha)
  · exact fadd_of_isNaN (.inr hb)
  · exact fadd_opposite_infinities ha hb hs

theorem fadd_of_valid {p : Prec} {a b : Sample} (h : ¬ SumInvalid p a b) :
    ∃ g n, n ≤ infBits p ∧ fadd p a b = pack p g n := by
  simp only [SumInvalid, not_or, not_and, ne_eq, not_not, Bool.not_eq_true] at h
  obtain ⟨ha, hb, hs⟩ := h
  obtain ia | fa := not_nan_cases ha
  · exact ⟨_, _, le_rfl, fadd_infinity_left ia hb (hs ia)⟩
  · obtain ib | fb := not_nan_cases hb
    · exact ⟨_, _, le_rfl, fadd_infinity_right ib ha fun ia => hs ia ib⟩
    · rw [fadd_of_finite fa fb]
      exact faddFinite_eq_pack p a b

theorem isNaN_fadd_iff (p : Prec) (a b : Sample) : isNaN p (fadd p a b) = true ↔ SumInvalid p a b := by
  refine ⟨fun h => ?_, fun h => by rw [fadd_of_invalid h, isNaN_qNaN]⟩
  by_contra hv
  obtain ⟨g, n, hn, he⟩ := fadd_of_valid hv
  rw [he, isNaN_pack p g hn] at h
  exact Bool.false_ne_true h

/-! ## The branches of the product -/

/-- The operands whose product is a NaN (R13). -/
abbrev ProductInvalid (p : Prec) (a b : Sample) : Prop :=
  isNaN p a = true ∨ isNaN p b = true ∨ (isInf p a = true ∧ isZero p b = true) ∨
    (isZero p a = true ∧ isInf p b = true)

theorem fmul_of_isNaN {p : Prec} {a b : Sample} (h : isNaN p a = true ∨ isNaN p b = true) :
    fmul p a b = qNaN p := by
  simp [fmul, h]

theorem fmul_infinity_zero {p : Prec} {a b : Sample} (hi : isInf p a = true ∨ isInf p b = true)
    (hz : isZero p a = true ∨ isZero p b = true) : fmul p a b = qNaN p := by
  simp [fmul, hi, hz]

theorem fmul_infinity {p : Prec} {a b : Sample} (ha : isNaN p a = false) (hb : isNaN p b = false)
    (hi : isInf p a = true ∨ isInf p b = true) (za : isZero p a = false) (zb : isZero p b = false) :
    fmul p a b = pack p (fsign p a != fsign p b) (infBits p) := by
  simp [fmul, ha, hb, hi, za, zb]

theorem fmul_of_finite {p : Prec} {a b : Sample} (ha : fbits p a < infBits p) (hb : fbits p b < infBits p) :
    fmul p a b = pack p (fsign p a != fsign p b) (roundMag p (mag p a * mag p b) (quantumExp p)) := by
  simp [fmul, isNaN_eq_false_of_lt ha, isNaN_eq_false_of_lt hb, isInf_eq_false_of_lt ha, isInf_eq_false_of_lt hb]

theorem fmul_of_invalid {p : Prec} {a b : Sample} (h : ProductInvalid p a b) : fmul p a b = qNaN p := by
  obtain ha | hb | ⟨ha, hb⟩ | ⟨ha, hb⟩ := h
  · exact fmul_of_isNaN (.inl ha)
  · exact fmul_of_isNaN (.inr hb)
  · exact fmul_infinity_zero (.inl ha) (.inr hb)
  · exact fmul_infinity_zero (.inr hb) (.inl ha)

theorem fmul_of_valid {p : Prec} {a b : Sample} (h : ¬ ProductInvalid p a b) :
    ∃ g n, n ≤ infBits p ∧ fmul p a b = pack p g n := by
  simp only [ProductInvalid, not_or, not_and, Bool.not_eq_true] at h
  obtain ⟨ha, hb, hab, hba⟩ := h
  obtain ia | fa := not_nan_cases ha
  · exact ⟨_, _, le_rfl, fmul_infinity ha hb (.inl ia) (isZero_of_isInf ia) (hab ia)⟩
  · obtain ib | fb := not_nan_cases hb
    · have za : isZero p a = false := Bool.eq_false_iff.2 fun hz => Bool.eq_false_iff.1 (hba hz) ib
      exact ⟨_, _, le_rfl, fmul_infinity ha hb (.inr ib) za (isZero_of_isInf ib)⟩
    · exact ⟨_, _, roundMag_le p _ _, fmul_of_finite fa fb⟩

theorem isNaN_fmul_iff (p : Prec) (a b : Sample) : isNaN p (fmul p a b) = true ↔ ProductInvalid p a b := by
  refine ⟨fun h => ?_, fun h => by rw [fmul_of_invalid h, isNaN_qNaN]⟩
  by_contra hv
  obtain ⟨g, n, hn, he⟩ := fmul_of_valid hv
  rw [he, isNaN_pack p g hn] at h
  exact Bool.false_ne_true h

/-! ## Infinite operands -/

/-- The sum of an infinity with a finite value, or with an infinity of its own sign, is that infinity (R13). -/
theorem fadd_infinity {p : Prec} {a b : Sample} (ha : isInf p a = true)
    (hb : fbits p b < infBits p ∨ (isInf p b = true ∧ fsign p a = fsign p b)) :
    fadd p a b = pack p (fsign p a) (infBits p) ∧ fadd p b a = pack p (fsign p a) (infBits p) := by
  obtain hb | ⟨hb, hs⟩ := hb
  · have hi := isInf_eq_false_of_lt hb
    exact ⟨fadd_infinity_left ha (isNaN_eq_false_of_lt hb) (by simp [hi]),
      fadd_infinity_right ha (isNaN_eq_false_of_lt hb) (by simp [hi])⟩
  · exact ⟨fadd_infinity_left ha (isNaN_of_isInf hb) fun _ => hs,
      fadd_infinity_right ha (isNaN_of_isInf hb) fun _ => hs.symm⟩

/-- The product of an infinity with a nonzero value that is no NaN is an infinity (R13). -/
theorem fmul_infinity_both {p : Prec} {a b : Sample} (ha : isInf p a = true) (hb : isNaN p b = false)
    (zb : isZero p b = false) :
    fmul p a b = pack p (fsign p a != fsign p b) (infBits p) ∧
      fmul p b a = pack p (fsign p a != fsign p b) (infBits p) := by
  have na := isNaN_of_isInf ha
  have za := isZero_of_isInf ha
  refine ⟨fmul_infinity na hb (.inl ha) za zb, ?_⟩
  rw [fmul_infinity hb na (.inr ha) zb za, bne_comm]

/-- Settles O60, from the four lemmas that say where a sum and a product are NaN and what they are elsewhere. -/
theorem primitivesAndNaN : Obligations.PrimitivesAndNaN := by
  intro p a b
  have hinf (g : Bool) : fbits p (pack p g (infBits p)) = infBits p ∧ fsign p (pack p g (infBits p)) = g :=
    ⟨fbits_pack p g (infBits_lt p), fsign_pack p g (infBits_lt p)⟩
  refine ⟨fun h => fadd_of_invalid ((isNaN_fadd_iff p a b).1 h), fun h => fmul_of_invalid ((isNaN_fmul_iff p a b).1 h),
    isNaN_fadd_iff p a b, isNaN_fmul_iff p a b, fun ha hb => ?_, fun ha hb zb => ?_,
    rfl, fsign_fneg p a, fbits_fneg p a, rfl, rfl⟩
  · obtain ⟨hab, hba⟩ := fadd_infinity ha hb
    rw [hab, hba]
    exact ⟨(hinf _).1, (hinf _).2, hinf _⟩
  · obtain ⟨hab, hba⟩ := fmul_infinity_both ha hb zb
    rw [hab, hba]
    exact ⟨(hinf _).1, (hinf _).2, hinf _⟩

end Sys2Proof.Machine
end

section
/-!
PROOF. Rounding to nearest, ties to even (spec/00_scope.md rule R13). The values of the format next to a magnitude of
n * 2^-k quanta are `dropBits`-many bits apart: the bits `floorBits` and the bits after them. The magnitudes of the
format rise strictly with their bits, so no other value comes nearer.
-/
namespace Sys2Proof.Machine

/-! ## The magnitudes of the format -/

/-- The bits e * 2^fracBits + q hold the magnitude q * 2^e, where q has at most one bit more than the fraction and
fewer bits only at e = 0. -/
theorem magOfBits_add (p : Prec) {e q : Nat} (hq : q ≤ 2 * 2 ^ fracBits p) (he : e = 0 ∨ 2 ^ fracBits p ≤ q) :
    magOfBits p (e * 2 ^ fracBits p + q) = q * 2 ^ e := by
  have hF : 0 < 2 ^ fracBits p := Nat.two_pow_pos _
  unfold magOfBits
  generalize 2 ^ fracBits p = F at *
  obtain hlt | hle := Nat.lt_or_ge q F
  · obtain rfl : e = 0 := by omega
    simp [hlt]
  · obtain ⟨r, rfl⟩ := Nat.exists_eq_add_of_le hle
    have hb : e * F + (F + r) = r + F * (e + 1) := by ring
    have hn : ¬ r + F * (e + 1) < F := by nlinarith
    rw [hb, if_neg hn, Nat.add_mul_mod_self_left, Nat.add_mul_div_left _ _ hF]
    obtain hr | rfl : r < F ∨ r = F := by omega
    · rw [Nat.mod_eq_of_lt hr, Nat.div_eq_of_lt hr]
      simp
    · rw [Nat.mod_self, Nat.div_self hF, show 1 + (e + 1) - 1 = e + 1 by omega, pow_succ]
      ring

/-- Every number is the bits of a magnitude as `magOfBits_add` takes it, with room for the next one. -/
theorem exists_exponent (p : Prec) (n : Nat) :
    ∃ e q, n = e * 2 ^ fracBits p + q ∧ q < 2 * 2 ^ fracBits p ∧ (e = 0 ∨ 2 ^ fracBits p ≤ q) := by
  have hF : 0 < 2 ^ fracBits p := Nat.two_pow_pos _
  generalize 2 ^ fracBits p = F at *
  have hm := Nat.mod_lt n hF
  have hd := Nat.div_add_mod' n F
  cases hq : n / F with
  | zero => exact ⟨0, n, by omega, by rw [hq] at hd; omega, .inl rfl⟩
  | succ e =>
    rw [hq, Nat.succ_mul] at hd
    exact ⟨e, F + n % F, by omega, by omega, .inr (by omega)⟩

theorem magOfBits_strictMono (p : Prec) : StrictMono (magOfBits p) := by
  refine strictMono_nat_of_lt_succ fun n => ?_
  obtain ⟨e, q, rfl, hq, he⟩ := exists_exponent p n
  have hs : magOfBits p (e * 2 ^ fracBits p + q + 1) = (q + 1) * 2 ^ e := by
    rw [Nat.add_assoc]
    exact magOfBits_add p (by omega) (he.imp_right fun h => by omega)
  rw [magOfBits_add p hq.le he, hs]
  exact Nat.mul_lt_mul_of_pos_right (Nat.lt_succ_self q) (Nat.two_pow_pos e)

/-! ## The neighbours of a magnitude -/

/-- The quotient that `roundMag` rounds. -/
def floorQuotient (p : Prec) (n k : Nat) : Nat := n / 2 ^ dropBits p n k

/-- The bits of the largest magnitude of at most n * 2^-k quanta. -/
def floorBits (p : Prec) (n k : Nat) : Nat := (dropBits p n k - k) * 2 ^ fracBits p + floorQuotient p n k

theorem le_dropBits (p : Prec) (n k : Nat) : k ≤ dropBits p n k := Nat.le_max_left _ _

/-- The quotient fits the precision of the format, and fills it above the quantum. -/
theorem floorQuotient_bounds (p : Prec) (n k : Nat) :
    floorQuotient p n k < 2 * 2 ^ fracBits p ∧ (dropBits p n k - k = 0 ∨ 2 ^ fracBits p ≤ floorQuotient p n k) := by
  have hlog : n.log2 ≤ dropBits p n k + fracBits p := by unfold dropBits; omega
  constructor
  · apply Nat.div_lt_of_lt_mul
    calc n < 2 ^ (n.log2 + 1) := Nat.lt_log2_self
      _ ≤ 2 ^ (dropBits p n k + fracBits p + 1) := Nat.pow_le_pow_right two_pos (by omega)
      _ = 2 ^ dropBits p n k * (2 * 2 ^ fracBits p) := by ring
  · by_cases hk : dropBits p n k - k = 0
    · exact .inl hk
    · have hd : n.log2 = fracBits p + dropBits p n k := by unfold dropBits at *; omega
      have hn : n ≠ 0 := by
        rintro rfl
        rw [Nat.log2_zero] at hd
        have := le_dropBits p 0 k
        omega
      refine .inr ((Nat.le_div_iff_mul_le (Nat.two_pow_pos _)).2 ?_)
      rw [← pow_add, ← hd]
      exact Nat.log2_self_le hn

/-- The magnitude of bits from `floorBits` on up to the next ones, in units of 2^-k quanta. -/
theorem magOfBits_floorBits_add (p : Prec) (n k : Nat) {i : Nat} (hi : i ≤ 1) :
    magOfBits p (floorBits p n k + i) * 2 ^ k = (floorQuotient p n k + i) * 2 ^ dropBits p n k := by
  obtain ⟨hq, he⟩ := floorQuotient_bounds p n k
  rw [floorBits, Nat.add_assoc, magOfBits_add p (by omega) (he.imp_right fun h => by omega), Nat.mul_assoc, ← pow_add,
    Nat.sub_add_cancel (le_dropBits p n k)]

/-- The magnitude is that of `floorBits` and the remainder. -/
theorem eq_floor_add_mod (p : Prec) (n k : Nat) :
    n = magOfBits p (floorBits p n k) * 2 ^ k + n % 2 ^ dropBits p n k := by
  have h := magOfBits_floorBits_add p n k (Nat.zero_le 1)
  rw [Nat.add_zero, Nat.add_zero] at h
  rw [h]
  exact (Nat.div_add_mod' n _).symm

theorem magOfBits_ceil (p : Prec) (n k : Nat) :
    magOfBits p (floorBits p n k + 1) * 2 ^ k = magOfBits p (floorBits p n k) * 2 ^ k + 2 ^ dropBits p n k := by
  have h0 := magOfBits_floorBits_add p n k (Nat.zero_le 1)
  have h1 := magOfBits_floorBits_add p n k le_rfl
  rw [Nat.add_zero, Nat.add_zero] at h0
  rw [h0, h1, Nat.succ_mul]

/-- The remainder is rounded up: it is above one half, or one half with an odd quotient. -/
def RoundsUp (p : Prec) (n k : Nat) : Prop :=
  2 ^ dropBits p n k < 2 * (n % 2 ^ dropBits p n k) ∨
    (2 ^ dropBits p n k = 2 * (n % 2 ^ dropBits p n k) ∧ floorQuotient p n k % 2 = 1)

theorem roundMag_of_roundsUp {p : Prec} {n k : Nat} (h : RoundsUp p n k) :
    roundMag p n k = min (infBits p) (floorBits p n k + 1) := by
  have hr : rneShift n (dropBits p n k) = floorQuotient p n k + 1 := by unfold RoundsUp at h; exact if_pos h
  rw [roundMag, hr]
  rfl

theorem roundMag_of_not_roundsUp {p : Prec} {n k : Nat} (h : ¬ RoundsUp p n k) :
    roundMag p n k = min (infBits p) (floorBits p n k) := by
  have hr : rneShift n (dropBits p n k) = floorQuotient p n k := by unfold RoundsUp at h; exact if_neg h
  rw [roundMag, hr]
  rfl

theorem even_fracPow (p : Prec) : 2 ^ fracBits p % 2 = 0 := by cases p <;> rfl

/-- The bits of the floor are even exactly where the quotient is. -/
theorem floorBits_mod_two (p : Prec) (n k : Nat) : floorBits p n k % 2 = floorQuotient p n k % 2 := by
  rw [floorBits, Nat.add_mod, Nat.mul_mod, even_fracPow, Nat.mul_zero, Nat.zero_mod, Nat.zero_add, Nat.mod_mod]

/-! ## Nearness -/

theorem scaledMag_le (p : Prec) {c d : Nat} (k : Nat) (h : c ≤ d) : magOfBits p c * 2 ^ k ≤ magOfBits p d * 2 ^ k :=
  Nat.mul_le_mul_right _ ((magOfBits_strictMono p).monotone h)

theorem scaledMag_lt (p : Prec) {c d : Nat} (k : Nat) (h : c < d) : magOfBits p c * 2 ^ k < magOfBits p d * 2 ^ k :=
  Nat.mul_lt_mul_of_pos_right (magOfBits_strictMono p h) (Nat.two_pow_pos k)

/-- A value at or below the floor is as far away as the remainder, and farther unless it is the floor. -/
theorem distance_below (p : Prec) {n k c : Nat} (hc : c ≤ floorBits p n k) :
    n % 2 ^ dropBits p n k ≤ distance p n k c ∧
      (c ≠ floorBits p n k → n % 2 ^ dropBits p n k < distance p n k c) := by
  have hn := eq_floor_add_mod p n k
  have hle := scaledMag_le p k hc
  have hd : distance p n k c = n - magOfBits p c * 2 ^ k := by unfold distance; omega
  refine ⟨by omega, fun hne => ?_⟩
  have hlt := scaledMag_lt p k (lt_of_le_of_ne hc hne)
  omega

/-- A value above the floor is as far away as the rest of the gap, and farther unless it is the next one. -/
theorem distance_above (p : Prec) {n k c : Nat} (hc : floorBits p n k + 1 ≤ c) :
    2 ^ dropBits p n k - n % 2 ^ dropBits p n k ≤ distance p n k c ∧
      (c ≠ floorBits p n k + 1 → 2 ^ dropBits p n k - n % 2 ^ dropBits p n k < distance p n k c) := by
  have hn := eq_floor_add_mod p n k
  have hm := Nat.mod_lt n (Nat.two_pow_pos (dropBits p n k))
  have hu := magOfBits_ceil p n k
  have hle := scaledMag_le p k hc
  have hd : distance p n k c = magOfBits p c * 2 ^ k - n := by unfold distance; omega
  refine ⟨by omega, fun hne => ?_⟩
  have hlt := scaledMag_lt p k (lt_of_le_of_ne hc (Ne.symm hne))
  omega

theorem distance_floor (p : Prec) (n k : Nat) : distance p n k (floorBits p n k) = n % 2 ^ dropBits p n k := by
  have hn := eq_floor_add_mod p n k
  unfold distance
  omega

theorem distance_ceil (p : Prec) (n k : Nat) :
    distance p n k (floorBits p n k + 1) = 2 ^ dropBits p n k - n % 2 ^ dropBits p n k := by
  have hn := eq_floor_add_mod p n k
  have hm := Nat.mod_lt n (Nat.two_pow_pos (dropBits p n k))
  have hu := magOfBits_ceil p n k
  unfold distance
  omega

/-- No value is nearer than the floor where the remainder is rounded down, and one as near leaves an even floor. -/
theorem floor_nearest {p : Prec} {n k : Nat} (h : ¬ RoundsUp p n k) (c : Nat) :
    distance p n k (floorBits p n k) ≤ distance p n k c ∧
      (c ≠ floorBits p n k → distance p n k (floorBits p n k) = distance p n k c → floorBits p n k % 2 = 0) := by
  simp only [RoundsUp, not_or, not_and, Nat.not_lt] at h
  obtain ⟨hhalf, htie⟩ := h
  rw [distance_floor, floorBits_mod_two]
  obtain hc | hc := Nat.lt_or_ge (floorBits p n k) c
  · have ha := (distance_above p (n := n) (k := k) hc).1
    exact ⟨by omega, fun _ he => by have := htie (by omega); omega⟩
  · have hb := distance_below p (n := n) (k := k) hc
    exact ⟨hb.1, fun hne he => absurd he (hb.2 hne).ne⟩

/-- No value is nearer than the one after the floor where the remainder is rounded up, and one as near leaves it even. -/
theorem ceil_nearest {p : Prec} {n k : Nat} (h : RoundsUp p n k) (c : Nat) :
    distance p n k (floorBits p n k + 1) ≤ distance p n k c ∧
      (c ≠ floorBits p n k + 1 → distance p n k (floorBits p n k + 1) = distance p n k c →
        (floorBits p n k + 1) % 2 = 0) := by
  have hpar := floorBits_mod_two p n k
  rw [distance_ceil]
  unfold RoundsUp at h
  obtain hc | hc := Nat.lt_or_ge (floorBits p n k) c
  · have ha := distance_above p (n := n) (k := k) hc
    exact ⟨ha.1, fun hne he => absurd he (ha.2 hne).ne⟩
  · have hb := (distance_below p (n := n) (k := k) hc).1
    exact ⟨by omega, fun _ he => by omega⟩

/-! ## Overflow -/

/-- The threshold lies in the middle between the largest finite magnitude and the one the bits of infinity stand for. -/
theorem overflowAt_eq (p : Prec) :
    2 * overflowAt p = magOfBits p (infBits p - 1) + magOfBits p (infBits p) := by cases p <;> decide +kernel

theorem overflowAt_le (p : Prec) : overflowAt p ≤ magOfBits p (infBits p) := by
  have h := overflowAt_eq p
  have hlt := magOfBits_strictMono p (Nat.sub_one_lt (infBits_pos p).ne')
  omega

theorem lt_overflowAt (p : Prec) : magOfBits p (infBits p - 1) < overflowAt p := by
  have h := overflowAt_eq p
  have hlt := magOfBits_strictMono p (Nat.sub_one_lt (infBits_pos p).ne')
  omega

theorem infBits_mod_two (p : Prec) : infBits p % 2 = 0 := by cases p <;> rfl

/-- The rounded magnitude is infinite exactly from the overflow threshold on. -/
theorem roundMag_eq_infBits_iff (p : Prec) (n k : Nat) :
    roundMag p n k = infBits p ↔ overflowAt p * 2 ^ k ≤ n := by
  have hn := eq_floor_add_mod p n k
  have hm := Nat.mod_lt n (Nat.two_pow_pos (dropBits p n k))
  have hu := magOfBits_ceil p n k
  have hr : roundMag p n k = min (infBits p) (floorBits p n k) ∨
      roundMag p n k = min (infBits p) (floorBits p n k + 1) := by
    by_cases h : RoundsUp p n k
    · exact .inr (roundMag_of_roundsUp h)
    · exact .inl (roundMag_of_not_roundsUp h)
  obtain hlt | heq | hgt : floorBits p n k + 1 < infBits p ∨ floorBits p n k + 1 = infBits p ∨
      infBits p ≤ floorBits p n k := by omega
  case inl =>
    have h1 := scaledMag_le p k (show floorBits p n k + 1 ≤ infBits p - 1 by omega)
    have h2 := Nat.mul_lt_mul_of_pos_right (lt_overflowAt p) (Nat.two_pow_pos k)
    omega
  case inr.inr =>
    have h1 := scaledMag_le p k hgt
    have h2 := Nat.mul_le_mul_right (2 ^ k) (overflowAt_le p)
    omega
  case inr.inl =>
    have hodd : floorQuotient p n k % 2 = 1 := by
      have := floorBits_mod_two p n k
      have := infBits_mod_two p
      omega
    have hup : RoundsUp p n k ↔ 2 ^ dropBits p n k ≤ 2 * (n % 2 ^ dropBits p n k) := by
      unfold RoundsUp
      omega
    have hmid : 2 * (overflowAt p * 2 ^ k) =
        2 * (magOfBits p (floorBits p n k) * 2 ^ k) + 2 ^ dropBits p n k := by
      have h := overflowAt_eq p
      rw [← heq, Nat.add_sub_cancel] at h
      calc 2 * (overflowAt p * 2 ^ k) = (2 * overflowAt p) * 2 ^ k := by ring
        _ = magOfBits p (floorBits p n k) * 2 ^ k + magOfBits p (floorBits p n k + 1) * 2 ^ k := by rw [h]; ring
        _ = _ := by rw [hu]; ring
    by_cases h : RoundsUp p n k
    · have := hup.1 h
      rw [roundMag_of_roundsUp h, heq, Nat.min_self]
      simp only [true_iff]
      omega
    · have := mt hup.2 h
      rw [roundMag_of_not_roundsUp h]
      omega

/-- `roundMag` rounds to nearest, ties to even (R13). -/
theorem roundMag_roundsTo (p : Prec) (n k : Nat) : RoundsTo p n k (roundMag p n k) := by
  refine ⟨roundMag_le p n k, roundMag_eq_infBits_iff p n k, fun hfin c _ => ?_⟩
  by_cases h : RoundsUp p n k
  · have he : roundMag p n k = floorBits p n k + 1 := by
      rw [roundMag_of_roundsUp h] at hfin ⊢
      omega
    rw [he]
    exact ceil_nearest h c
  · have he : roundMag p n k = floorBits p n k := by
      rw [roundMag_of_not_roundsUp h] at hfin ⊢
      omega
    rw [he]
    exact floor_nearest h c

theorem roundMag_lt_signWeight (p : Prec) (n k : Nat) : roundMag p n k < signWeight p :=
  (roundMag_le p n k).trans_lt (infBits_lt p)

/-- Settles O59: the finite sum and product are packed from a sign and a magnitude that `roundMag` rounds. -/
theorem primitivesRound : Obligations.PrimitivesRound := by
  intro p a b ha hb
  rw [fadd_of_finite ha hb, fmul_of_finite ha hb]
  refine ⟨fun hs => ?_, fun hs => ?_, ?_, fsign_pack p _ (roundMag_lt_signWeight p _ _)⟩
  · rw [faddFinite, if_neg hs, fbits_pack p _ (roundMag_lt_signWeight p _ _)]
    exact ⟨roundMag_roundsTo p _ 0, fsign_pack p _ (roundMag_lt_signWeight p _ _)⟩
  · rw [faddFinite, if_pos hs]
    exact ⟨fbits_pack p _ (Nat.two_pow_pos _), fsign_pack p _ (Nat.two_pow_pos _)⟩
  · rw [fbits_pack p _ (roundMag_lt_signWeight p _ _)]
    exact roundMag_roundsTo p _ _

end Sys2Proof.Machine
end

section
/-!
PROOF. Every step keeps the build and the width of the context entries (spec/10_state.md rule R52, spec/00_scope.md
rules R6 and R9): the entries that operations write are W-bit patterns, because the primitives keep to them
(`arithOf_closed`) and the banks hold nothing else.
-/
namespace Sys2Proof.Machine

/-- Every element is a W-bit pattern. -/
abbrev AllFit (p : Prec) (vs : List Sample) : Prop := ∀ v ∈ vs, Fits p v

/-- The three memories of a context hold W-bit patterns (R52). -/
structure Context.Fit (p : Prec) (x : Context) : Prop where
  kr : AllFit p x.kr
  ki : AllFit p x.ki
  acc : AllFit p x.acc

theorem entriesFit_iff (s : State) : EntriesFit s ↔ ∀ x ∈ s.ctxs, x.Fit s.build.prec := by
  refine forall₂_congr fun x _ => ⟨fun h => ⟨fun v hv => ?_, fun v hv => ?_, fun v hv => ?_⟩, fun h v hv => ?_⟩
  · exact h v (by simp [hv])
  · exact h v (by simp [hv])
  · exact h v (by simp [hv])
  · obtain hv | hv := List.mem_append.1 hv
    · exact (List.mem_append.1 hv).elim (h.kr v) (h.ki v)
    · exact h.acc v hv

theorem Context.fresh_fit (p : Prec) : Context.fresh.Fit p := ⟨nofun, nofun, nofun⟩

theorem EntriesFit.ctx {s : State} (h : EntriesFit s) (c : Nat) : (s.ctx c).Fit s.build.prec := by
  unfold State.ctx
  rw [List.getD_eq_getElem?_getD]
  cases hc : s.ctxs[c]? with
  | none => exact Context.fresh_fit _
  | some x => exact (entriesFit_iff s).1 h x (List.mem_of_getElem? hc)

/-! ## Lists of W-bit patterns -/

theorem AllFit.overwrite {p : Prec} {old vs : List Sample} (ho : AllFit p old) (hv : AllFit p vs) :
    AllFit p (overwrite old vs) := fun v h => (mem_overwrite h).elim (hv v) (ho v)

theorem AllFit.map_range {p : Prec} {f : Nat → Sample} (hf : ∀ j, Fits p (f j)) (n : Nat) :
    AllFit p ((List.range n).map f) := by
  intro v hv
  obtain ⟨j, _, rfl⟩ := List.mem_map.1 hv
  exact hf j

theorem AllFit.getD {p : Prec} {vs : List Sample} (h : AllFit p vs) {d : Sample} (hd : Fits p d) (j : Nat) :
    Fits p (vs.getD j d) := by
  rw [List.getD_eq_getElem?_getD]
  cases hj : vs[j]? with
  | none => exact hd
  | some v => exact h v (List.mem_of_getElem? hj)

theorem plusZero_fits (p : Prec) : Fits p plusZero := by cases p <;> decide

theorem AllFit.zeros (p : Prec) (n : Nat) : AllFit p (List.replicate n plusZero) := fun v hv => by
  rw [List.eq_of_mem_replicate hv]
  exact plusZero_fits p

theorem AllBoth.map_re {p : Prec} {y : List (Cpx Sample)} (h : AllBoth (Fits p) y) : AllFit p (y.map Cpx.re) := by
  intro v hv
  obtain ⟨z, hz, rfl⟩ := List.mem_map.1 hv
  exact (h z hz).1

theorem AllBoth.map_im {p : Prec} {y : List (Cpx Sample)} (h : AllBoth (Fits p) y) : AllFit p (y.map Cpx.im) := by
  intro v hv
  obtain ⟨z, hz, rfl⟩ := List.mem_map.1 hv
  exact (h z hz).2

/-! ## What the machine reads is a W-bit pattern -/

theorem ofNat_fits {p : Prec} {n : Nat} (h : n < 2 ^ p.width) : Fits p (BitVec.ofNat 64 n) :=
  (Nat.mod_le _ _).trans_lt h

theorem State.sample_fits_prec (s : State) (bank j : Nat) : Fits s.build.prec (s.sample bank j) := by
  refine (s.sample_fits bank j).trans_eq ?_
  unfold Build.wb
  cases s.build.prec <;> rfl

theorem State.block_fits (s : State) (bank j0 n : Nat) : AllFit s.build.prec (s.block bank j0 n) :=
  AllFit.map_range (fun _ => s.sample_fits_prec bank _) n

theorem asSample_fits (b : Build) (v : Sample) : Fits b.prec (asSample b v) :=
  ofNat_fits (Nat.mod_lt _ (Nat.two_pow_pos _))

theorem State.unwrittenEntry_fits (s : State) (c which j : Nat) : Fits s.build.prec (s.unwrittenEntry c which j) :=
  ofNat_fits (Nat.mod_lt _ (Nat.two_pow_pos _))

theorem accOf_fits {s : State} (h : EntriesFit s) (c : Nat) : AllFit s.build.prec (accOf s c) :=
  AllFit.map_range (fun j => (h.ctx c).acc.getD (s.unwrittenEntry_fits c 2 j) j) _

/-! ## What the pipeline computes is made of W-bit patterns -/

theorem padded_fits (b : Build) {vs : List Sample} (h : AllFit b.prec vs) (n : Nat) :
    AllBoth (Fits b.prec) ((arithOf b).padded n vs) := by
  intro z hz
  obtain ⟨j, _, rfl⟩ := List.mem_map.1 hz
  exact ⟨h.getD (plusZero_fits _) j, plusZero_fits _⟩

theorem kernelSpectrum_fits (b : Build) (lg : Nat) {vs : List Sample} (h : AllFit b.prec vs) :
    AllBoth (Fits b.prec) ((arithOf b).kernelSpectrum lg vs) :=
  (arithOf_closed b).fwd lg (padded_fits b h _)

/-! ## The operations -/

/-- From s to t the build is the same, and the context entries stay W-bit patterns. -/
def KeepsFormats (s t : State) : Prop := t.build = s.build ∧ (EntriesFit s → EntriesFit t)

theorem KeepsFormats.trans {s t u : State} (h1 : KeepsFormats s t) (h2 : KeepsFormats t u) : KeepsFormats s u :=
  ⟨h2.1.trans h1.1, fun h => h2.2 (h1.2 h)⟩

/-- What leaves the build and the contexts alone keeps the formats. -/
theorem KeepsFormats.of_ctxs {s t : State} (hb : t.build = s.build) (hc : t.ctxs = s.ctxs) : KeepsFormats s t :=
  ⟨hb, fun h => by unfold EntriesFit; rwa [hb, hc]⟩

/-- Setting a context to memories that fit keeps the formats. -/
theorem KeepsFormats.setCtx (s : State) (c : Nat) {x : Context} (hx : EntriesFit s → x.Fit s.build.prec) :
    KeepsFormats s (s.setCtx c x) := by
  refine ⟨rfl, fun h => (entriesFit_iff _).2 fun y hy => ?_⟩
  obtain hy | rfl := List.mem_or_eq_of_mem_set hy
  · exact (entriesFit_iff s).1 h y hy
  · exact hx h

theorem KeepsFormats.setAcc (s : State) (c : Nat) {vs : List Sample} (hv : EntriesFit s → AllFit s.build.prec vs) :
    KeepsFormats s (setAcc c vs s) :=
  .setCtx s c fun h => { h.ctx c with acc := (h.ctx c).acc.overwrite (hv h) }

theorem KeepsFormats.clearAcc (s : State) (c : Nat) : KeepsFormats s (clearAcc c s) :=
  .setAcc s c fun _ => AllFit.zeros _ _

theorem KeepsFormats.kspec (s : State) (c kb : Nat) : KeepsFormats s (kspec c kb s) :=
  .setCtx s c fun h =>
    have hq := kernelSpectrum_fits s.build (s.ctx c).lgfft (s.block_fits kb 0 (s.ctx c).klen)
    { h.ctx c with
      kr := (h.ctx c).kr.overwrite hq.map_re
      ki := (h.ctx c).ki.overwrite hq.map_im }

theorem KeepsFormats.configureContext (s : State) (c kb : Nat) (st : ContextKind) (m l b lg : Nat) :
    KeepsFormats s (configureContext c kb st m l b lg s) :=
  (KeepsFormats.setCtx s c (x := { s.ctx c with st := st, master := m, klen := l, blk := b, lgfft := lg })
    fun h => ⟨(h.ctx c).kr, (h.ctx c).ki, (h.ctx c).acc⟩).trans
    ((KeepsFormats.kspec _ c kb).trans (.clearAcc _ c))

theorem KeepsFormats.olaStep (s : State) (c ib io : Nat) : KeepsFormats s (olaStep c ib io s) :=
  .setAcc s c fun _ v hv => by
    obtain ⟨a, b, rfl⟩ : ∃ a b, v = fadd s.build.prec a b := by
      rw [← List.map_uncurry_zip_eq_zipWith] at hv
      obtain ⟨⟨a, b⟩, _, rfl⟩ := List.mem_map.1 hv
      exact ⟨a, b, rfl⟩
    exact fadd_fits _ a b

theorem KeepsFormats.emit (s : State) (c ob oo : Nat) : KeepsFormats s (emit c ob oo s) := by
  refine (KeepsFormats.of_ctxs (t := s.setBlock ob oo ((accOf s c).take (s.ctx c).blk)) (by simp) (by simp)).trans
    (.setAcc _ c fun h v hv => ?_)
  have hs : EntriesFit s := by simpa [EntriesFit] using h
  rw [State.setBlock_build]
  obtain hv | hv := List.mem_append.1 hv
  · exact accOf_fits hs c v (List.mem_of_mem_drop hv)
  · exact AllFit.zeros _ _ v hv

theorem product_ctxs (xr xi yr yi : Nat) (g : Sign) (l : List Nat) (s : State) :
    (l.foldl (productAt xr xi yr yi g) s).ctxs = s.ctxs := by
  induction l generalizing s with
  | nil => rfl
  | cons k l ih => exact ih (productAt xr xi yr yi g s k)

theorem effectOf_build (i : Instr) (a0 a1 : Word) (s : State) : (effectOf i a0 a1 s).build = s.build := by
  rw [effectOf_sameControl i a0 a1 s]

/-- The effect of a command keeps the formats: only the overlap-add commands write context entries. -/
theorem KeepsFormats.effectOf (i : Instr) (a0 a1 : Word) (s : State) : KeepsFormats s (effectOf i a0 a1 s) := by
  have hb := effectOf_build i a0 a1 s
  cases i with
  | nop => exact .of_ctxs hb rfl
  | cfg lg => exact .of_ctxs hb rfl
  | link xr xi yr yi => exact .of_ctxs hb rfl
  | cfgl xr xi yr yi lg => exact .of_ctxs hb rfl
  | fwd => exact .of_ctxs hb (storeDest_ctxs _ _)
  | inv => exact .of_ctxs hb (storeDest_ctxs _ _)
  | fwdl xr xi yr yi => exact .of_ctxs hb (storeDest_ctxs _ _)
  | invl xr xi yr yi => exact .of_ctxs hb (storeDest_ctxs _ _)
  | prod xr xi yr yi g => exact .of_ctxs hb (product_ctxs xr xi yr yi g _ s)
  | ocfg c kb => exact .configureContext s c kb ..
  | ocfgs c m kb => exact .configureContext s c kb ..
  | oflt c ib ob => exact (KeepsFormats.olaStep s c ib _).trans (.emit _ c ob _)
  | ofls c ob => exact .emit s c ob _
  | oini c => exact .clearAcc s c
  | oclr c => exact .setCtx s c fun h => ⟨(h.ctx c).kr, (h.ctx c).ki, (h.ctx c).acc⟩

/-! ## The events -/

theorem KeepsFormats.reject (w : Word) (e : ErrCode) (s : State) : KeepsFormats s (reject w e s) :=
  .of_ctxs (reject_build w e s) (reject_ctxs w e s)

theorem KeepsFormats.finish (i : Instr) (a0 a1 : Word) (s : State) : KeepsFormats s (finish (Machine.effectOf i) a0 a1 s) :=
  (KeepsFormats.effectOf i a0 a1 s).trans (.of_ctxs rfl rfl)

theorem KeepsFormats.complete (s : State) : KeepsFormats s (complete s) := by
  cases h : s.seq with
  | idle => rw [complete_idle h]; exact .of_ctxs rfl rfl
  | busy i a0 a1 left => rw [complete_busy h]; exact .finish i a0 a1 s

theorem KeepsFormats.issue (i : Instr) (s : State) : KeepsFormats s (issue i (checkOf i) (Machine.effectOf i) s) := by
  obtain ⟨_, h⟩ | ⟨_, e, _, h⟩ | ⟨_, _, _, h⟩ | ⟨_, _, _, h⟩ := issue_cases i (checkOf i) (Machine.effectOf i) s <;> rw [h]
  · exact .reject _ _ s
  · exact .reject _ _ s
  · exact (KeepsFormats.of_ctxs (accept_build i s) (accept_ctxs i s)).trans (.finish i _ _ _)
  · exact .of_ctxs (accept_build i s) (accept_ctxs i s)

theorem KeepsFormats.present {w : Word} {s t : State} (h : present w s = .next t) : KeepsFormats s t := by
  obtain ⟨_, e⟩ | ⟨_, _, e⟩ | ⟨i, _, _, e⟩ := present_cases w s <;> rw [e] at h <;> cases h
  · exact .reject _ _ s
  · exact .reject _ _ s
  · exact .issue i s

theorem KeepsFormats.dataWrite (off : Nat) (v : Word) (s : State) : KeepsFormats s (dataWrite off v s) := by
  by_cases h : off < dataPopulated s.build
  · rw [dataWrite_in h]; exact .of_ctxs (s.storeBytes_build ..) (s.storeBytes_ctxs ..)
  · rw [dataWrite_out h]; exact .of_ctxs rfl rfl

theorem KeepsFormats.hostWrite {addr v : Word} {be : BitVec 4} {s t : State} (h : hostWrite addr v be s = .next t) :
    KeepsFormats s t := by
  obtain e | e | e | e | e | ⟨off, _, e⟩ | e := hostWrite_cases addr v be s <;> rw [e] at h
  case inl => exact .present h
  all_goals cases h
  · exact .of_ctxs (writeStatus_build v s) (writeStatus_ctxs v s)
  · exact .of_ctxs rfl rfl
  · exact .of_ctxs rfl rfl
  · exact .of_ctxs rfl rfl
  · exact .dataWrite off v s
  · exact .of_ctxs rfl rfl

/-! ## The reset -/

theorem KeepsFormats.resetIdle (s : State) : KeepsFormats s (resetIdle s) := by
  refine ⟨rfl, fun _ => (entriesFit_iff _).2 fun x hx => ?_⟩
  rw [List.eq_of_mem_replicate hx]
  exact Context.fresh_fit _

theorem KeepsFormats.resetControl (s : State) : KeepsFormats s (resetControl s) := by
  refine ⟨rfl, fun h => (entriesFit_iff _).2 fun x hx => ?_⟩
  obtain ⟨y, hy, rfl⟩ := List.mem_map.1 hx
  have hf := (entriesFit_iff s).1 h y hy
  exact ⟨hf.kr, hf.ki, hf.acc⟩

theorem KeepsFormats.forgetSpans (ws : List BankSpan) (s : State) : KeepsFormats s (ws.foldl forgetSpan s) := by
  induction ws generalizing s with
  | nil => exact .of_ctxs rfl rfl
  | cons w ws ih =>
    exact (KeepsFormats.of_ctxs (forgetSpan_build s w) (s.setBlock_ctxs ..)).trans (ih (forgetSpan s w))

theorem forgottenEntries_fits (s : State) (c which n : Nat) {old : List Sample} (h : AllFit s.build.prec old) :
    AllFit s.build.prec (forgottenEntries s c which n old) :=
  h.overwrite (AllFit.map_range (fun _ => asSample_fits _ _) n)

theorem KeepsFormats.forgetContext (s : State) (span : Option (Nat × Bool × Nat)) :
    KeepsFormats s (forgetContext s span) := by
  cases span with
  | none => exact .of_ctxs rfl rfl
  | some w =>
    obtain ⟨c, spectrumToo, n⟩ := w
    refine .setCtx s c fun h => ?_
    obtain ⟨hr, hi, ha⟩ := h.ctx c
    cases spectrumToo with
    | true => exact ⟨forgottenEntries_fits s c 0 n hr, forgottenEntries_fits s c 1 n hi, forgottenEntries_fits s c 2 n ha⟩
    | false => exact ⟨hr, hi, forgottenEntries_fits s c 2 n ha⟩

theorem KeepsFormats.resetEvent (s : State) : KeepsFormats s (resetEvent s) := by
  cases h : s.seq with
  | idle => rw [resetEvent_idle h]; exact .resetIdle s
  | busy i a0 a1 left =>
    rw [resetEvent_busy h]
    exact (KeepsFormats.forgetSpans (bankSpans s a0 a1 i) s).trans ((KeepsFormats.forgetContext _ _).trans
      ((KeepsFormats.resetControl _).trans (.of_ctxs rfl rfl)))

theorem KeepsFormats.perform {op : HostOp} {s t : State} (h : perform op s = .next t) : KeepsFormats s t := by
  cases op with
  | read addr => cases h; exact .of_ctxs rfl rfl
  | write addr v be => exact .hostWrite h
  | reset => cases h; exact .resetEvent s

/-- Settles O32, event by event. -/
theorem stepKeepsFormats : Obligations.StepKeepsFormats := by
  intro s t h
  show KeepsFormats s t
  obtain ⟨_, e⟩ | ⟨_, _, e⟩ | ⟨op, rest, _, _, e⟩ := step_cases s <;> rw [e] at h
  · cases h; exact .complete s
  · cases h; exact .of_ctxs rfl rfl
  · exact (KeepsFormats.of_ctxs (takeOp_build rest s) (takeOp_ctxs rest s)).trans (.perform h)

end Sys2Proof.Machine
end

section
/-!
PROOF. Where the kernels write, in any arithmetic (spec/41_kernels_and_nodes.md rules R151 to R162): each kernel leaves
the destination outside its output range alone, and COMBINE applies the split-radix butterfly to each quadruple of
positions independently of the others.
-/
namespace Sys2Proof.Machine

variable {α : Type}

/-! ## Positions -/

theorem Arith.at_set_same (A : Arith α) {y : List (Cpx α)} {j : Nat} (h : j < y.length) (z : Cpx α) :
    A.at (y.set j z) j = z := by
  simp [Arith.at, h]

theorem Arith.at_set_ne (A : Arith α) (y : List (Cpx α)) {i j : Nat} (h : i ≠ j) (z : Cpx α) :
    A.at (y.set i z) j = A.at y j := by
  simp [Arith.at, List.getD_eq_getElem?_getD, List.getElem?_set_ne h]

/-- y' agrees with y outside the positions t, ..., t+n-1, and is as long. -/
def Arith.Agrees (A : Arith α) (t n : Nat) (y y' : List (Cpx α)) : Prop :=
  y'.length = y.length ∧ ∀ j, j < t ∨ t + n ≤ j → A.at y' j = A.at y j

theorem Arith.Agrees.refl (A : Arith α) (t n : Nat) (y : List (Cpx α)) : A.Agrees t n y y := ⟨rfl, fun _ _ => rfl⟩

theorem Arith.Agrees.trans {A : Arith α} {t n : Nat} {y y' y'' : List (Cpx α)} (h : A.Agrees t n y y')
    (h' : A.Agrees t n y' y'') : A.Agrees t n y y'' :=
  ⟨h'.1.trans h.1, fun j hj => (h'.2 j hj).trans (h.2 j hj)⟩

/-- A smaller range of changes is a stronger agreement. -/
theorem Arith.Agrees.mono {A : Arith α} {t n t' n' : Nat} {y y' : List (Cpx α)} (h : A.Agrees t n y y') (ht : t' ≤ t)
    (hn : t + n ≤ t' + n') : A.Agrees t' n' y y' :=
  ⟨h.1, fun j hj => h.2 j (by omega)⟩

theorem Arith.Agrees.set {A : Arith α} {t n : Nat} {y y' : List (Cpx α)} (h : A.Agrees t n y y') {j : Nat}
    (ht : t ≤ j) (hn : j < t + n) (z : Cpx α) : A.Agrees t n y (y'.set j z) :=
  h.trans ⟨List.length_set, fun i hi => A.at_set_ne y' (by omega) z⟩

theorem Arith.Agrees.foldl {A : Arith α} {t n : Nat} {f : List (Cpx α) → Nat → List (Cpx α)} {l : List Nat}
    (hf : ∀ y, ∀ k ∈ l, A.Agrees t n y (f y k)) (y : List (Cpx α)) : A.Agrees t n y (l.foldl f y) := by
  induction l generalizing y with
  | nil => exact .refl A t n y
  | cons k l ih => exact (hf y k (by simp)).trans (ih (fun y k hk => hf y k (List.mem_cons_of_mem _ hk)) _)

/-! ## The output range of each kernel -/

theorem Arith.dft2_agrees (A : Arith α) (x : List (Cpx α)) (off st t : Nat) (y : List (Cpx α)) :
    A.Agrees t 2 y (A.dft2 x off st t y) :=
  ((Agrees.refl A t 2 y).set (by omega) (by omega) _).set (by omega) (by omega) _

theorem Arith.dft4_agrees (A : Arith α) (x : List (Cpx α)) (off st t : Nat) (y : List (Cpx α)) :
    A.Agrees t 4 y (A.dft4 x off st t y) :=
  ((((Agrees.refl A t 4 y).set (by omega) (by omega) _).set (by omega) (by omega) _).set (by omega) (by omega) _).set
    (by omega) (by omega) _

theorem Arith.butterfly_agrees (A : Arith α) (lg t : Nat) {q k : Nat} (hk : k < q) (y : List (Cpx α)) :
    A.Agrees t (4 * q) y (A.butterfly lg t q y k) :=
  ((((Agrees.refl A t (4 * q) y).set (by omega) (by omega) _).set (by omega) (by omega) _).set (by omega) (by omega)
    _).set (by omega) (by omega) _

theorem Arith.combine_agrees (A : Arith α) (lg t : Nat) (y : List (Cpx α)) :
    A.Agrees t (2 ^ lg) y (A.combine lg t y) :=
  (Agrees.foldl (fun y _ hk => A.butterfly_agrees lg t (List.mem_range.1 hk) y) y).mono le_rfl
    (by have := Nat.mul_div_le (2 ^ lg) 4; omega)

theorem Arith.base8_agrees (A : Arith α) (x : List (Cpx α)) (off st t : Nat) (y : List (Cpx α)) :
    A.Agrees t 8 y (A.base8 x off st t y) :=
  ((A.dft4_agrees x _ _ t y).mono le_rfl (by omega)).trans
    (((A.dft2_agrees x _ _ (t + 4) _).mono (by omega) (by omega)).trans
      (((A.dft2_agrees x _ _ (t + 6) _).mono (by omega) (by omega)).trans (A.combine_agrees 3 t _)))

theorem Arith.base16_agrees (A : Arith α) (x : List (Cpx α)) (off st t : Nat) (y : List (Cpx α)) :
    A.Agrees t 16 y (A.base16 x off st t y) :=
  ((A.base8_agrees x _ _ t y).mono le_rfl (by omega)).trans
    (((A.dft4_agrees x _ _ (t + 8) _).mono (by omega) (by omega)).trans
      (((A.dft4_agrees x _ _ (t + 12) _).mono (by omega) (by omega)).trans (A.combine_agrees 4 t _)))

/-- A node writes its output range only (R162, R163). -/
theorem Arith.node_agrees (A : Arith α) (x : List (Cpx α)) (lg off st t : Nat) (y : List (Cpx α)) :
    A.Agrees t (2 ^ lg) y (A.node x lg off st t y) := by
  induction lg, off, st, t, y using Arith.node.induct A x with
  | case1 lg off st t y y1 y2 ih1 ih2 ih3 =>
    have e5 : 2 ^ (lg + 5) = 32 * 2 ^ lg := by ring
    have e4 : 2 ^ (lg + 4) = 16 * 2 ^ lg := by ring
    have e3 : 2 ^ (lg + 3) = 8 * 2 ^ lg := by ring
    exact (ih1.mono le_rfl (by omega)).trans ((ih2.mono (by omega) (by omega)).trans
      ((ih3.mono (by omega) (by omega)).trans (A.combine_agrees (lg + 5) t _)))
  | case2 off st t y => exact A.base16_agrees x off st t y
  | case3 off st t y => exact A.base8_agrees x off st t y
  | case4 off st t y => exact .refl A t _ y
  | case5 off st t y => exact .refl A t _ y
  | case6 off st t y => exact .refl A t _ y

/-! ## What the small kernels write -/

/-- DFT2 writes the sum and the difference (R151). -/
theorem Arith.at_dft2 (A : Arith α) (x : List (Cpx α)) (off st t : Nat) {y : List (Cpx α)} (hy : t + 2 ≤ y.length) :
    A.at (A.dft2 x off st t y) t = A.cadd (A.at x off) (A.at x (off + st)) ∧
    A.at (A.dft2 x off st t y) (t + 1) = A.csub (A.at x off) (A.at x (off + st)) := by
  unfold Arith.dft2
  constructor
  · rw [A.at_set_ne _ (by omega), A.at_set_same (by omega)]
  · rw [A.at_set_same (by simp only [List.length_set]; omega)]

/-- DFT4 combines the sums and differences of the even and of the odd samples (R152). -/
theorem Arith.at_dft4 (A : Arith α) (x : List (Cpx α)) (off st t : Nat) {y : List (Cpx α)} (hy : t + 4 ≤ y.length) :
    let t0 := A.cadd (A.at x off) (A.at x (off + 2 * st))
    let t1 := A.csub (A.at x off) (A.at x (off + 2 * st))
    let t2 := A.cadd (A.at x (off + st)) (A.at x (off + 3 * st))
    let t3 := A.csub (A.at x (off + st)) (A.at x (off + 3 * st))
    A.at (A.dft4 x off st t y) t = A.cadd t0 t2 ∧ A.at (A.dft4 x off st t y) (t + 1) = A.csubI t1 t3 ∧
    A.at (A.dft4 x off st t y) (t + 2) = A.csub t0 t2 ∧ A.at (A.dft4 x off st t y) (t + 3) = A.caddI t1 t3 := by
  unfold Arith.dft4
  refine ⟨?_, ?_, ?_, ?_⟩
  · rw [A.at_set_ne _ (by omega), A.at_set_ne _ (by omega), A.at_set_ne _ (by omega), A.at_set_same (by omega)]
  · rw [A.at_set_ne _ (by omega), A.at_set_ne _ (by omega), A.at_set_same (by simp only [List.length_set]; omega)]
  · rw [A.at_set_ne _ (by omega), A.at_set_same (by simp only [List.length_set]; omega)]
  · rw [A.at_set_same (by simp only [List.length_set]; omega)]

/-! ## What COMBINE computes -/

/-- Four values that one butterfly works on. -/
structure Quad (α : Type) where
  u1 : Cpx α
  u2 : Cpx α
  z1 : Cpx α
  z3 : Cpx α

/-- The values at the positions of butterfly k (R156). -/
def Arith.quad (A : Arith α) (t q : Nat) (y : List (Cpx α)) (k : Nat) : Quad α :=
  ⟨A.at y (t + k), A.at y (t + k + q), A.at y (t + k + 2 * q), A.at y (t + k + 3 * q)⟩

/-- The split-radix butterfly k on four values (R156). -/
def Arith.mix (A : Arith α) (lg k : Nat) (v : Quad α) : Quad α :=
  let zz := A.rotate lg k v.z1 v.z3
  let s := A.cadd zz.1 zz.2
  let d := A.csub zz.1 zz.2
  ⟨A.cadd v.u1 s, A.csubI v.u2 d, A.csub v.u1 s, A.caddI v.u2 d⟩

/-- A butterfly is `mix` on its own positions. -/
theorem Arith.quad_butterfly_same (A : Arith α) (lg t : Nat) {q k : Nat} (hk : k < q) {y : List (Cpx α)}
    (hy : t + 4 * q ≤ y.length) : A.quad t q (A.butterfly lg t q y k) k = A.mix lg k (A.quad t q y k) := by
  have e2 : t + 2 * q + k = t + k + 2 * q := by omega
  have e3 : t + 3 * q + k = t + k + 3 * q := by omega
  simp only [Arith.quad, Arith.mix, Arith.butterfly, e2, e3, Quad.mk.injEq]
  refine ⟨?_, ?_, ?_, ?_⟩
  · rw [A.at_set_ne _ (by omega), A.at_set_ne _ (by omega), A.at_set_ne _ (by omega), A.at_set_same (by omega)]
  · rw [A.at_set_ne _ (by omega), A.at_set_same (by simp only [List.length_set]; omega)]
  · rw [A.at_set_ne _ (by omega), A.at_set_ne _ (by omega), A.at_set_same (by simp only [List.length_set]; omega)]
  · rw [A.at_set_same (by simp only [List.length_set]; omega)]

/-- A butterfly leaves the positions of every other one alone. -/
theorem Arith.quad_butterfly_ne (A : Arith α) (lg t : Nat) {q k k' : Nat} (hk : k < q) (hk' : k' < q) (h : k ≠ k')
    (y : List (Cpx α)) : A.quad t q (A.butterfly lg t q y k) k' = A.quad t q y k' := by
  have key : ∀ i < 4, A.at (A.butterfly lg t q y k) (t + k' + i * q) = A.at y (t + k' + i * q) := by
    intro i hi
    unfold Arith.butterfly
    dsimp only
    interval_cases i <;>
      rw [A.at_set_ne _ (by omega), A.at_set_ne _ (by omega), A.at_set_ne _ (by omega), A.at_set_ne _ (by omega)]
  have h0 := key 0 (by omega)
  have h1 := key 1 (by omega)
  rw [Nat.zero_mul, Nat.add_zero] at h0
  rw [Nat.one_mul] at h1
  rw [Arith.quad, Arith.quad, h0, h1, key 2 (by omega), key 3 (by omega)]

/-- The first n butterflies, on the positions of each butterfly. -/
theorem Arith.quad_butterflies (A : Arith α) (lg t : Nat) {q : Nat} {y : List (Cpx α)} (hy : t + 4 * q ≤ y.length)
    {k : Nat} (hk : k < q) (n : Nat) (hn : n ≤ q) :
    A.quad t q ((List.range n).foldl (A.butterfly lg t q) y) k =
      if k < n then A.mix lg k (A.quad t q y k) else A.quad t q y k := by
  induction n with
  | zero => rfl
  | succ n ih =>
    rw [List.range_succ, List.foldl_append, List.foldl_cons, List.foldl_nil]
    have ih := ih (by omega)
    by_cases hkn : k = n
    · subst hkn
      rw [A.quad_butterfly_same lg t hk (by rwa [foldl_length (by simp)]), ih, if_neg (lt_irrefl k),
        if_pos (Nat.lt_succ_self k)]
    · rw [A.quad_butterfly_ne lg t (by omega) hk (Ne.symm hkn), ih]
      exact if_congr (by omega) rfl rfl

/-- COMBINE is `mix` on the positions of every butterfly (R155, R156). -/
theorem Arith.quad_combine (A : Arith α) (lg t : Nat) {y : List (Cpx α)} (hy : t + 4 * 2 ^ lg ≤ y.length) {k : Nat}
    (hk : k < 2 ^ lg) :
    A.quad t (2 ^ lg) (A.combine (lg + 2) t y) k = A.mix (lg + 2) k (A.quad t (2 ^ lg) y k) := by
  have hq : 2 ^ (lg + 2) / 4 = 2 ^ lg := by rw [pow_add]; exact Nat.mul_div_cancel _ (by decide)
  rw [Arith.combine, hq, A.quad_butterflies _ t hy hk _ le_rfl, if_pos hk]

end Sys2Proof.Machine
end

section
/-!
PROOF. In exact arithmetic the forward transform is the DFT (spec/00_scope.md rule R16, spec/41_kernels_and_nodes.md rules
R151 to R163). The powers of one root of unity are the twiddle factors, the split-radix identity expresses a DFT of size
4q by one of size 2q and two of size q, and the recursion of NODE follows it.
-/
namespace Sys2Proof.Machine

/-! ## The root of unity -/

/-- W = exp(-2*pi*i/n) (R16). -/
noncomputable def unitRoot (n : Nat) : ℂ := Complex.exp (-(2 * Real.pi * Complex.I / n))

theorem unitRoot_pow_eq_exp (n j : Nat) : unitRoot n ^ j = Complex.exp (-(2 * Real.pi * Complex.I * j / n)) := by
  rw [unitRoot, ← Complex.exp_nat_mul]
  congr 1
  ring

/-- A power of W by its components (R140). -/
theorem unitRoot_pow (n j : Nat) :
    unitRoot n ^ j = (⟨Real.cos (2 * Real.pi * j / n), -Real.sin (2 * Real.pi * j / n)⟩ : Cpx ℝ).toComplex := by
  have he : -(2 * Real.pi * Complex.I * j / n) = ((-(2 * Real.pi * j / n) : ℝ) : ℂ) * Complex.I := by
    push_cast
    ring
  rw [unitRoot_pow_eq_exp, he]
  apply Complex.ext
  · rw [Complex.exp_ofReal_mul_I_re, Real.cos_neg]
    rfl
  · rw [Complex.exp_ofReal_mul_I_im, Real.sin_neg]
    rfl

/-- The d-th power of the root for d * n is the root for n. -/
theorem unitRoot_mul_pow {d : Nat} (hd : d ≠ 0) (n : Nat) : unitRoot (d * n) ^ d = unitRoot n := by
  have hd' : (d : ℂ) ≠ 0 := Nat.cast_ne_zero.2 hd
  rw [unitRoot_pow_eq_exp, unitRoot]
  push_cast
  rw [mul_comm (d : ℂ), mul_div_mul_right _ _ hd']

theorem unitRoot_one : unitRoot 1 = 1 := by
  rw [unitRoot, Nat.cast_one, div_one, Complex.exp_neg, Complex.exp_two_pi_mul_I, inv_one]

theorem unitRoot_two : unitRoot 2 = -1 := by
  rw [← pow_one (unitRoot 2), unitRoot_pow]
  apply Complex.ext <;> simp [Cpx.toComplex]

theorem unitRoot_four : unitRoot 4 = -Complex.I := by
  have h : 2 * Real.pi * (1 : Nat) / (4 : Nat) = Real.pi / 2 := by push_cast; ring
  rw [← pow_one (unitRoot 4), unitRoot_pow, h]
  apply Complex.ext <;> simp [Cpx.toComplex]

theorem unitRoot_pow_self {n : Nat} (hn : n ≠ 0) : unitRoot n ^ n = 1 := by
  simpa only [Nat.mul_one, unitRoot_one] using unitRoot_mul_pow hn 1

/-- A quarter turn. -/
theorem unitRoot_pow_quarter {q : Nat} (hq : q ≠ 0) : unitRoot (4 * q) ^ q = -Complex.I := by
  rw [Nat.mul_comm, unitRoot_mul_pow hq, unitRoot_four]

/-! ## The DFT -/

theorem referenceDft_eq (n : Nat) (x : Nat → ℂ) (k : Nat) :
    referenceDft n x k = ∑ m ∈ Finset.range n, x m * unitRoot n ^ (m * k) := by
  refine Finset.sum_congr rfl fun m _ => ?_
  rw [unitRoot_pow_eq_exp, Nat.cast_mul, mul_assoc _ (m : ℂ)]

theorem referenceDft_add_self {n : Nat} (hn : n ≠ 0) (x : Nat → ℂ) (k : Nat) :
    referenceDft n x (k + n) = referenceDft n x k := by
  simp only [referenceDft_eq]
  refine Finset.sum_congr rfl fun m _ => ?_
  rw [Nat.mul_add, pow_add, Nat.mul_comm m n, pow_mul _ n, unitRoot_pow_self hn, one_pow, mul_one]

theorem referenceDft_one (x : Nat → ℂ) : referenceDft 1 x 0 = x 0 := by simp [referenceDft_eq]

theorem referenceDft_two (x : Nat → ℂ) : referenceDft 2 x 0 = x 0 + x 1 ∧ referenceDft 2 x 1 = x 0 - x 1 := by
  simp [referenceDft_eq, unitRoot_two, Finset.sum_range_succ, sub_eq_add_neg]

/-- The even indices, and the two classes of odd ones. -/
theorem sum_range_splitRadix (f : Nat → ℂ) (q : Nat) :
    ∑ m ∈ Finset.range (4 * q), f m = ∑ m ∈ Finset.range (2 * q), f (2 * m) +
      ∑ m ∈ Finset.range q, f (4 * m + 1) + ∑ m ∈ Finset.range q, f (4 * m + 3) := by
  induction q with
  | zero => simp
  | succ q ih =>
    have e4 : 4 * (q + 1) = 4 * q + 1 + 1 + 1 + 1 := by ring
    have e2 : 2 * (q + 1) = 2 * q + 1 + 1 := by ring
    have e0 : 2 * (2 * q) = 4 * q := by ring
    have e1 : 2 * (2 * q + 1) = 4 * q + 2 := by ring
    rw [e4, e2]
    simp only [Finset.sum_range_succ, ih, e0, e1]
    ring

/-- The split-radix identity: a DFT of size 4q from one of size 2q over the even samples and two of size q over the odd
ones (R155). -/
theorem referenceDft_splitRadix (q : Nat) (x : Nat → ℂ) (k : Nat) :
    referenceDft (4 * q) x k = referenceDft (2 * q) (fun m => x (2 * m)) k +
      (unitRoot (4 * q) ^ k * referenceDft q (fun m => x (4 * m + 1)) k +
        unitRoot (4 * q) ^ (3 * k) * referenceDft q (fun m => x (4 * m + 3)) k) := by
  have h2 : unitRoot (2 * q) = unitRoot (4 * q) ^ 2 := by
    rw [← unitRoot_mul_pow two_ne_zero (2 * q), ← Nat.mul_assoc]
  have h4 : unitRoot q = unitRoot (4 * q) ^ 4 := (unitRoot_mul_pow four_ne_zero q).symm
  simp only [referenceDft_eq, h2, h4, sum_range_splitRadix, Finset.mul_sum, ← pow_mul]
  rw [add_assoc]
  congr 1
  · exact Finset.sum_congr rfl fun m _ => by ring
  · congr 1
    · exact Finset.sum_congr rfl fun m _ => by ring
    · exact Finset.sum_congr rfl fun m _ => by ring

/-- What the twiddled quarter-size values of butterfly k become in each quarter of the bins (R156). -/
theorem referenceDft_quarters {q : Nat} (hq : q ≠ 0) (x : Nat → ℂ) (k : Nat) :
    let u := referenceDft (2 * q) fun m => x (2 * m)
    let a := unitRoot (4 * q) ^ k * referenceDft q (fun m => x (4 * m + 1)) k
    let b := unitRoot (4 * q) ^ (3 * k) * referenceDft q (fun m => x (4 * m + 3)) k
    referenceDft (4 * q) x k = u k + (a + b) ∧
    referenceDft (4 * q) x (k + q) = u (k + q) - Complex.I * (a - b) ∧
    referenceDft (4 * q) x (k + 2 * q) = u k - (a + b) ∧
    referenceDft (4 * q) x (k + 3 * q) = u (k + q) + Complex.I * (a - b) := by
  have hw := unitRoot_pow_quarter hq
  have hI2 : (-Complex.I) ^ 2 = -1 := by rw [neg_sq, Complex.I_sq]
  have hI3 : (-Complex.I) ^ 3 = Complex.I := by rw [Odd.neg_pow (by decide), Complex.I_pow_three, neg_neg]
  have hp (y : Nat → ℂ) (j : Nat) : referenceDft q y (k + j * q) = referenceDft q y k := by
    induction j with
    | zero => rw [Nat.zero_mul, Nat.add_zero]
    | succ j ih => rw [Nat.succ_mul, ← Nat.add_assoc, referenceDft_add_self hq, ih]
  have hturn (i : Nat) : unitRoot (4 * q) ^ (k + i * q) = unitRoot (4 * q) ^ k * (-Complex.I) ^ i := by
    rw [pow_add, Nat.mul_comm i q, pow_mul _ q, hw]
  have hturn3 (i : Nat) :
      unitRoot (4 * q) ^ (3 * (k + i * q)) = unitRoot (4 * q) ^ (3 * k) * ((-Complex.I) ^ i) ^ 3 := by
    rw [Nat.mul_comm 3, pow_mul, hturn, mul_pow, ← pow_mul, Nat.mul_comm k 3]
  have key (i : Nat) := referenceDft_splitRadix q x (k + i * q)
  simp only [hp, hturn, hturn3] at key
  have hu2 := referenceDft_add_self (Nat.mul_ne_zero two_ne_zero hq) (fun m => x (2 * m)) k
  have hu3 := referenceDft_add_self (Nat.mul_ne_zero two_ne_zero hq) (fun m => x (2 * m)) (k + q)
  have e3 : k + q + 2 * q = k + 3 * q := by ring
  rw [e3] at hu3
  refine ⟨referenceDft_splitRadix q x k, ?_, ?_, ?_⟩
  · have key1 := key 1
    rw [Nat.one_mul, pow_one, hI3] at key1
    rw [key1]
    ring
  · rw [key 2, hu2, hI2]
    ring
  · rw [key 3, hu3, hI3, Complex.I_pow_three]
    ring

end Sys2Proof.Machine
end

section
/-!
PROOF. The kernels in exact arithmetic (spec/00_scope.md rule R16): ROTATE multiplies by powers of the root of unity
(spec/41_kernels_and_nodes.md rules R157 to R159), and every kernel leaves the DFT of its input sequence in its output
range.
-/
namespace Sys2Proof.Machine

/-! ## Complex values -/

theorem ExactArith.cadd {A : Arith ℝ} (hA : ExactArith A) (a b : Cpx ℝ) :
    (A.cadd a b).toComplex = a.toComplex + b.toComplex := by
  apply Complex.ext <;> simp [Arith.cadd, Cpx.toComplex, hA.add]

theorem ExactArith.csub {A : Arith ℝ} (hA : ExactArith A) (a b : Cpx ℝ) :
    (A.csub a b).toComplex = a.toComplex - b.toComplex := by
  apply Complex.ext <;> simp [Arith.csub, Cpx.toComplex, hA.sub]

theorem ExactArith.csubI {A : Arith ℝ} (hA : ExactArith A) (a b : Cpx ℝ) :
    (A.csubI a b).toComplex = a.toComplex - Complex.I * b.toComplex := by
  apply Complex.ext <;> simp [Arith.csubI, Cpx.toComplex, hA.add, hA.sub]

theorem ExactArith.caddI {A : Arith ℝ} (hA : ExactArith A) (a b : Cpx ℝ) :
    (A.caddI a b).toComplex = a.toComplex + Complex.I * b.toComplex := by
  apply Complex.ext <;> simp [Arith.caddI, Cpx.toComplex, hA.add, hA.sub, sub_eq_add_neg]

theorem ExactArith.cmul {A : Arith ℝ} (hA : ExactArith A) (a b : Cpx ℝ) :
    (A.cmul a b).toComplex = a.toComplex * b.toComplex := by
  apply Complex.ext <;> simp [Arith.cmul, Cpx.toComplex, hA.add, hA.sub, hA.mul]

/-! ## The rotations -/

/-- The closed-form rotation is the multiplication by an eighth of a turn (R159). -/
theorem ExactArith.rot1 {A : Arith ℝ} (hA : ExactArith A) {q : Nat} (hq : q ≠ 0) (z : Cpx ℝ) :
    (A.rot1 z).toComplex = unitRoot (8 * q) ^ q * z.toComplex := by
  have hq' : (q : ℝ) ≠ 0 := Nat.cast_ne_zero.2 hq
  have hθ : 2 * Real.pi * q / (8 * q : Nat) = Real.pi / 4 := by push_cast; field_simp; norm_num
  rw [unitRoot_pow, hθ, Real.cos_pi_div_four, Real.sin_pi_div_four]
  apply Complex.ext <;> simp [Arith.rot1, Cpx.toComplex, hA.add, hA.sub, hA.mul, hA.h] <;> ring

/-- And the other one by three eighths (R159). -/
theorem ExactArith.rot3 {A : Arith ℝ} (hA : ExactArith A) {q : Nat} (hq : q ≠ 0) (z : Cpx ℝ) :
    (A.rot3 z).toComplex = unitRoot (8 * q) ^ (3 * q) * z.toComplex := by
  have hq' : (q : ℝ) ≠ 0 := Nat.cast_ne_zero.2 hq
  have hθ : 2 * Real.pi * (3 * q : Nat) / (8 * q : Nat) = Real.pi - Real.pi / 4 := by push_cast; field_simp; norm_num
  rw [unitRoot_pow, hθ, Real.cos_pi_sub, Real.sin_pi_sub, Real.cos_pi_div_four, Real.sin_pi_div_four]
  apply Complex.ext <;> simp [Arith.rot3, Cpx.toComplex, hA.add, hA.sub, hA.mul, hA.neg, hA.h] <;> ring

/-- The twiddle pair is W^k and W^(3k), from the direct entries below N/8 (R146). -/
theorem ExactArith.twiddle_low {A : Arith ℝ} (hA : ExactArith A) {lg k : Nat} (hk : k < 2 ^ lg / 8) :
    (A.twiddle lg k).1.toComplex = unitRoot (2 ^ lg) ^ k ∧
      (A.twiddle lg k).2.toComplex = unitRoot (2 ^ lg) ^ (3 * k) := by
  have h3 : 2 * Real.pi * (3 * k : Nat) / (2 ^ lg : Nat) = 6 * Real.pi * k / 2 ^ lg := by push_cast; ring
  rw [unitRoot_pow, unitRoot_pow, h3, Arith.twiddle, if_pos hk, hA.tab0 lg k hk, hA.tab1 lg k hk, hA.tab2 lg k hk,
    hA.tab3 lg k hk]
  push_cast
  exact ⟨rfl, rfl⟩

/-- And from the symmetric entries above N/8 (R147). -/
theorem ExactArith.twiddle_high {A : Arith ℝ} (hA : ExactArith A) {q k : Nat} {lg : Nat} (hlg : 2 ^ lg = 8 * q)
    (hk : q < k) (hk2 : k < 2 * q) :
    (A.twiddle lg k).1.toComplex = unitRoot (2 ^ lg) ^ k ∧
      (A.twiddle lg k).2.toComplex = unitRoot (2 ^ lg) ^ (3 * k) := by
  have hi : 2 ^ lg / 4 - k < 2 ^ lg / 8 := by omega
  have hN : (2 : ℝ) ^ lg = 8 * q := by exact_mod_cast hlg
  have hq' : (q : ℝ) ≠ 0 := Nat.cast_ne_zero.2 (by omega)
  have hc : ((2 ^ lg / 4 - k : Nat) : ℝ) = 2 * q - k := by
    rw [show 2 ^ lg / 4 - k = 2 * q - k by omega, Nat.cast_sub hk2.le]
    push_cast
    rfl
  have h1 : 2 * Real.pi * (2 ^ lg / 4 - k : Nat) / 2 ^ lg = Real.pi / 2 - 2 * Real.pi * k / (2 ^ lg : Nat) := by
    rw [hc, hlg, hN]
    push_cast
    field_simp
    ring
  have h3 : 6 * Real.pi * (2 ^ lg / 4 - k : Nat) / 2 ^ lg =
      Real.pi / 2 - 2 * Real.pi * (3 * k : Nat) / (2 ^ lg : Nat) + Real.pi := by
    rw [hc, hlg, hN]
    push_cast
    field_simp
    ring
  rw [unitRoot_pow, unitRoot_pow, Arith.twiddle, if_neg (show ¬ k < 2 ^ lg / 8 by omega)]
  dsimp only
  rw [hA.tab0 lg _ hi, hA.tab1 lg _ hi, hA.tab2 lg _ hi, hA.tab3 lg _ hi, h1, h3, hA.neg, hA.neg, neg_neg,
    Real.cos_add_pi, Real.sin_add_pi, neg_neg, Real.sin_pi_div_two_sub, Real.sin_pi_div_two_sub,
    Real.cos_pi_div_two_sub, Real.cos_pi_div_two_sub]
  exact ⟨rfl, rfl⟩

/-- ROTATE multiplies by W^k and W^(3k), for every butterfly (R157). -/
theorem ExactArith.rotate {A : Arith ℝ} (hA : ExactArith A) (lg : Nat) {k : Nat} (hk : k < 2 ^ lg) (z1 z3 : Cpx ℝ) :
    (A.rotate (lg + 2) k z1 z3).1.toComplex = unitRoot (2 ^ (lg + 2)) ^ k * z1.toComplex ∧
      (A.rotate (lg + 2) k z1 z3).2.toComplex = unitRoot (2 ^ (lg + 2)) ^ (3 * k) * z3.toComplex := by
  by_cases h0 : k = 0
  · subst h0
    simp [Arith.rotate]
  obtain ⟨q, hq, hlg⟩ : ∃ q, 2 ^ lg = 2 * q ∧ 2 ^ (lg + 2) = 8 * q := by
    cases lg with
    | zero => omega
    | succ lg => exact ⟨2 ^ lg, by ring, by ring⟩
  rw [Arith.rotate, if_neg h0]
  by_cases he : k = 2 ^ (lg + 2) / 8
  · obtain rfl : k = q := by omega
    rw [if_pos he, hlg]
    exact ⟨hA.rot1 h0 z1, hA.rot3 h0 z3⟩
  · have htw : (A.twiddle (lg + 2) k).1.toComplex = unitRoot (2 ^ (lg + 2)) ^ k ∧
        (A.twiddle (lg + 2) k).2.toComplex = unitRoot (2 ^ (lg + 2)) ^ (3 * k) := by
      obtain hlow | hhigh := Nat.lt_or_ge k (2 ^ (lg + 2) / 8)
      · exact hA.twiddle_low hlow
      · exact hA.twiddle_high hlg (by omega) (by omega)
    rw [if_neg he, hA.cmul, hA.cmul, htw.1, htw.2]
    exact ⟨rfl, rfl⟩

/-! ## The DFT in the output range -/

/-- The positions t, ..., t+2^lg-1 of y hold the DFT of the samples off, off+st, off+2*st, ... of x (R150). -/
def HoldsDft (A : Arith ℝ) (x : List (Cpx ℝ)) (lg off st t : Nat) (y : List (Cpx ℝ)) : Prop :=
  ∀ k < 2 ^ lg, (A.at y (t + k)).toComplex = referenceDft (2 ^ lg) (fun m => (A.at x (off + m * st)).toComplex) k

/-- What a later kernel writes elsewhere does not matter. -/
theorem HoldsDft.of_agrees {A : Arith ℝ} {x : List (Cpx ℝ)} {lg off st t t' n : Nat} {y y' : List (Cpx ℝ)}
    (h : HoldsDft A x lg off st t y) (ha : A.Agrees t' n y y') (hd : t + 2 ^ lg ≤ t' ∨ t' + n ≤ t) :
    HoldsDft A x lg off st t y' := fun k hk => by rw [ha.2 _ (by omega), h k hk]

/-- DFT2 is the DFT of two samples (R151). -/
theorem ExactArith.dft2 {A : Arith ℝ} (hA : ExactArith A) (x : List (Cpx ℝ)) (off st t : Nat) {y : List (Cpx ℝ)}
    (hy : t + 2 ≤ y.length) : HoldsDft A x 1 off st t (A.dft2 x off st t y) := by
  intro k hk
  obtain ⟨e0, e1⟩ := A.at_dft2 x off st t hy
  obtain ⟨d0, d1⟩ := referenceDft_two fun m => (A.at x (off + m * st)).toComplex
  simp only [Nat.zero_mul, Nat.one_mul, Nat.add_zero] at d0 d1
  rw [pow_one] at hk ⊢
  interval_cases k
  · rw [Nat.add_zero, e0, d0, hA.cadd]
  · rw [e1, d1, hA.csub]

/-- DFT4 is the DFT of four samples: the split-radix identity where the quarter-size DFTs are single samples (R152). -/
theorem ExactArith.dft4 {A : Arith ℝ} (hA : ExactArith A) (x : List (Cpx ℝ)) (off st t : Nat) {y : List (Cpx ℝ)}
    (hy : t + 4 ≤ y.length) : HoldsDft A x 2 off st t (A.dft4 x off st t y) := by
  intro k hk
  obtain ⟨e0, e1, e2, e3⟩ := A.at_dft4 x off st t hy
  obtain ⟨d0, d1, d2, d3⟩ := referenceDft_quarters one_ne_zero (fun m => (A.at x (off + m * st)).toComplex) 0
  simp only [Nat.mul_one, Nat.mul_zero, Nat.zero_add, Nat.add_zero, Nat.zero_mul, pow_zero, one_mul,
    referenceDft_one, referenceDft_two] at d0 d1 d2 d3
  have h4 : (2 ^ 2 : Nat) = 4 := rfl
  rw [h4] at hk ⊢
  interval_cases k
  · rw [Nat.add_zero, e0, d0, hA.cadd, hA.cadd, hA.cadd]
  · rw [e1, d1, hA.csubI, hA.csub, hA.csub]
  · rw [e2, d2, hA.csub, hA.cadd, hA.cadd]
  · rw [e3, d3, hA.caddI, hA.csub, hA.csub]

/-- COMBINE makes the DFT of size 4q from the half-size one and the two quarter-size ones in its range (R155, R156). -/
theorem ExactArith.combine {A : Arith ℝ} (hA : ExactArith A) {x : List (Cpx ℝ)} {lg off st t : Nat} {y : List (Cpx ℝ)}
    (hu : HoldsDft A x (lg + 1) off (2 * st) t y) (h1 : HoldsDft A x lg (off + st) (4 * st) (t + 2 * 2 ^ lg) y)
    (h3 : HoldsDft A x lg (off + 3 * st) (4 * st) (t + 3 * 2 ^ lg) y) (hy : t + 4 * 2 ^ lg ≤ y.length) :
    HoldsDft A x (lg + 2) off st t (A.combine (lg + 2) t y) := by
  have hq : 2 ^ lg ≠ 0 := (Nat.two_pow_pos lg).ne'
  have e4 : 2 ^ (lg + 2) = 4 * 2 ^ lg := by ring
  have e2 : 2 ^ (lg + 1) = 2 * 2 ^ lg := by ring
  have quarters : ∀ k < 2 ^ lg, ∀ i < 4,
      (A.at (A.combine (lg + 2) t y) (t + (k + i * 2 ^ lg))).toComplex =
        referenceDft (4 * 2 ^ lg) (fun m => (A.at x (off + m * st)).toComplex) (k + i * 2 ^ lg) := by
    intro k hk i hi
    have hmix := A.quad_combine lg t hy hk
    simp only [Arith.quad, Arith.mix, Quad.mk.injEq] at hmix
    obtain ⟨r0, r1, r2, r3⟩ := hmix
    obtain ⟨d0, d1, d2, d3⟩ := referenceDft_quarters hq (fun m => (A.at x (off + m * st)).toComplex) k
    have hz := hA.rotate lg hk (A.at y (t + k + 2 * 2 ^ lg)) (A.at y (t + k + 3 * 2 ^ lg))
    have z1 := h1 k hk
    have z3 := h3 k hk
    have u1 := hu k (by omega)
    have u2 := hu (k + 2 ^ lg) (by omega)
    have s0 (m : Nat) : off + m * (2 * st) = off + 2 * m * st := by ring
    have s1 (m : Nat) : off + st + m * (4 * st) = off + (4 * m + 1) * st := by ring
    have s3 (m : Nat) : off + 3 * st + m * (4 * st) = off + (4 * m + 3) * st := by ring
    simp only [s0, s1, s3, e2, Nat.add_right_comm t _ k, ← Nat.add_assoc t k] at z1 z3 u1 u2
    rw [z1, z3, e4] at hz
    rw [← Nat.add_assoc]
    interval_cases i
    · simp only [Nat.zero_mul, Nat.add_zero]
      rw [r0, d0, hA.cadd, hA.cadd, hz.1, hz.2, u1]
    · rw [Nat.one_mul, r1, d1, hA.csubI, hA.csub, hz.1, hz.2, u2]
    · rw [r2, d2, hA.csub, hA.cadd, hz.1, hz.2, u1]
    · rw [r3, d3, hA.caddI, hA.csub, hz.1, hz.2, u2]
  intro j hj
  have hdm := Nat.mod_add_div' j (2 ^ lg)
  have hlt := Nat.mod_lt j (Nat.two_pow_pos lg)
  have hi : j / 2 ^ lg < 4 := Nat.div_lt_of_lt_mul (by omega)
  rw [← hdm, e4]
  exact quarters _ hlt _ hi

/-! ## The kernels -/

/-- One level of the split-radix recursion: a half-size kernel, two quarter-size ones behind it, and COMBINE (R160 to
R162). -/
theorem ExactArith.splitRadix {A : Arith ℝ} (hA : ExactArith A) {x : List (Cpx ℝ)} {lg off st t t1 t3 : Nat}
    {y yu y1 y3 : List (Cpx ℝ)} (e1 : t1 = t + 2 * 2 ^ lg) (e3 : t3 = t + 3 * 2 ^ lg)
    (au : A.Agrees t (2 ^ (lg + 1)) y yu) (hu : HoldsDft A x (lg + 1) off (2 * st) t yu)
    (a1 : A.Agrees t1 (2 ^ lg) yu y1) (h1 : HoldsDft A x lg (off + st) (4 * st) t1 y1)
    (a3 : A.Agrees t3 (2 ^ lg) y1 y3) (h3 : HoldsDft A x lg (off + 3 * st) (4 * st) t3 y3)
    (hy : t + 4 * 2 ^ lg ≤ y.length) : HoldsDft A x (lg + 2) off st t (A.combine (lg + 2) t y3) := by
  subst e1 e3
  have e2 : 2 ^ (lg + 1) = 2 * 2 ^ lg := by ring
  exact hA.combine ((hu.of_agrees a1 (by omega)).of_agrees a3 (by omega)) (h1.of_agrees a3 (by omega)) h3
    (by rw [a3.1, a1.1, au.1]; exact hy)

theorem ExactArith.base8 {A : Arith ℝ} (hA : ExactArith A) (x : List (Cpx ℝ)) (off st t : Nat) {y : List (Cpx ℝ)}
    (hy : t + 8 ≤ y.length) : HoldsDft A x 3 off st t (A.base8 x off st t y) :=
  hA.splitRadix (lg := 1) rfl rfl (A.dft4_agrees x off (2 * st) t y) (hA.dft4 x off (2 * st) t (by omega))
    (A.dft2_agrees ..) (hA.dft2 x (off + st) (4 * st) (t + 4) (by rw [Arith.dft4_length]; omega))
    (A.dft2_agrees ..)
    (hA.dft2 x (off + 3 * st) (4 * st) (t + 6) (by rw [Arith.dft2_length, Arith.dft4_length]; omega)) hy

theorem ExactArith.base16 {A : Arith ℝ} (hA : ExactArith A) (x : List (Cpx ℝ)) (off st t : Nat) {y : List (Cpx ℝ)}
    (hy : t + 16 ≤ y.length) : HoldsDft A x 4 off st t (A.base16 x off st t y) :=
  hA.splitRadix (lg := 2) rfl rfl (A.base8_agrees x off (2 * st) t y) (hA.base8 x off (2 * st) t (by omega))
    (A.dft4_agrees ..) (hA.dft4 x (off + st) (4 * st) (t + 8) (by rw [Arith.base8_length]; omega))
    (A.dft4_agrees ..)
    (hA.dft4 x (off + 3 * st) (4 * st) (t + 12) (by rw [Arith.dft4_length, Arith.base8_length]; omega)) hy

/-- A node leaves the DFT of its input sequence in its output range (R162). -/
theorem ExactArith.node {A : Arith ℝ} (hA : ExactArith A) (x : List (Cpx ℝ)) (lg off st t : Nat) (y : List (Cpx ℝ))
    (hlg : 3 ≤ lg) (hy : t + 2 ^ lg ≤ y.length) : HoldsDft A x lg off st t (A.node x lg off st t y) := by
  induction lg, off, st, t, y using Arith.node.induct A x with
  | case1 lg off st t y yu y1 ihu ih1 ih3 =>
    have e5 : 2 ^ (lg + 5) = 32 * 2 ^ lg := by ring
    have e4 : 2 ^ (lg + 4) = 16 * 2 ^ lg := by ring
    have e3 : 2 ^ (lg + 3) = 8 * 2 ^ lg := by ring
    have au := A.node_agrees x (lg + 4) off (2 * st) t y
    have a1 := A.node_agrees x (lg + 3) (off + st) (4 * st) (t + 2 ^ (lg + 5) / 2) yu
    have a3 := A.node_agrees x (lg + 3) (off + 3 * st) (4 * st) (t + 3 * 2 ^ (lg + 5) / 4) y1
    have lu : yu.length = y.length := au.1
    have l1 : y1.length = y.length := a1.1.trans lu
    exact hA.splitRadix (by omega) (by omega) au (ihu (by omega) (by omega)) a1 (ih1 (by omega) (by omega)) a3
      (ih3 (by omega) (by omega)) (by omega)
  | case2 off st t y => exact hA.base16 x off st t hy
  | case3 off st t y => exact hA.base8 x off st t hy
  | case4 => omega
  | case5 => omega
  | case6 => omega

/-- Settles O55: the forward transform is the node of size N over the samples 0, 1, 2, ... -/
theorem forwardIsTheDft : Obligations.ForwardIsTheDft := by
  intro A hA lg x hlg k hk
  have h := hA.node x lg 0 1 0 (List.replicate (2 ^ lg) ⟨A.zero, A.zero⟩) hlg (by simp) k hk
  simpa only [Arith.fwd, Nat.zero_add, Nat.mul_one] using h

end Sys2Proof.Machine
end

section
/-!
PROOF. The host's view of the registers (spec/10_state.md rules R33 to R49, spec/20_memory.md rules R82 to R92): which
place an address names, what a CSR read answers field by field, what a CSR write does, and what reads 0 and ignores
writes.
-/
namespace Sys2Proof.Machine

/-! ## Places -/

theorem placeOf_of_aligned {addr : Word} {off : Nat} (h : alignedAddr addr = off) (ho : off < csrSize) :
    placeOf addr = .csr off := by
  rw [placeOf, h, placeOfNat, if_pos ho]

/-- An aligned offset of the CSR region is the address of its register (R82). -/
theorem placeOf_ofNat {off : Nat} (h4 : off % 4 = 0) (ho : off < csrSize) : placeOf (BitVec.ofNat 32 off) = .csr off := by
  refine placeOf_of_aligned ?_ ho
  have : off < 4096 := ho
  rw [alignedAddr, BitVec.toNat_ofNat]
  omega

theorem hostRead_csr {addr : Word} {off : Nat} (h : placeOf addr = .csr off) (s : State) :
    hostRead addr s = csrRead off s := by
  rw [hostRead, h]

theorem hostWrite_csr {addr : Word} {off : Nat} (h : placeOf addr = .csr off) (v : Word) (s : State) :
    hostWrite addr v 0b1111 s = csrWrite off v s := by
  rw [hostWrite, if_pos rfl, h]

/-! ## Presenting a command -/

/-- A word that decodes is issued by an idle sequencer (R240). -/
theorem present_of_idle {w : Word} {i : Instr} {s : State} (h : s.seq = .idle) (hd : decode w = .ok i) :
    present w s = exec i s := by
  simp [present, State.busy_of_idle h, hd]

/-- A step of an idle machine performs the host's next event (R95). -/
theorem step_of_idle {s : State} {op : HostOp} {rest : List HostOp} (h : s.seq = .idle) (hb : s.bus = op :: rest) :
    step s = perform op (takeOp rest s) := by
  simp [step, completionDue_of_idle h, hb]

/-- Settles O5: the write reaches CMD, whose write presents the word. -/
theorem stepRunsTheCommand : Obligations.StepRunsTheCommand := by
  intro s addr w rest i hs ha hb hd
  have hp : placeOf addr = .csr 0x00C := placeOf_of_aligned ha (by decide)
  have hi : (takeOp rest s).seq = .idle := by rw [takeOp_seq, hs]; rfl
  calc step s = hostWrite addr w 0b1111 (takeOp rest s) := step_of_idle hs hb
    _ = present w (takeOp rest s) := hostWrite_csr hp w _
    _ = exec i (takeOp rest s) := present_of_idle hi hd

/-! ## Register writes -/

/-- A write to STATUS, field by field (R37, R246). -/
theorem writeStatus_eq (v : Word) (s : State) :
    writeStatus v s = { s with
      done := s.done && !v.getLsbD 1, err := s.err && !v.getLsbD 2, errovf := s.errovf && !v.getLsbD 3,
      errcode := if v.getLsbD 2 then .none else s.errcode, errcmd := if v.getLsbD 2 then 0 else s.errcmd } := by
  unfold writeStatus
  cases v.getLsbD 1 <;> cases v.getLsbD 2 <;> cases v.getLsbD 3 <;> simp [clearDone, clearErr, clearErrovf]

/-- Settles O40, register by register. -/
theorem registerWrites : Obligations.RegisterWrites := by
  intro s addr v
  refine ⟨fun h => ?_, fun h => ?_, fun h => ?_, fun h => ?_⟩
  · rw [hostWrite_csr (placeOf_of_aligned h (by decide)), ← writeStatus_eq]; rfl
  · exact hostWrite_csr (placeOf_of_aligned h (by decide)) v s
  · exact hostWrite_csr (placeOf_of_aligned h (by decide)) v s
  · exact hostWrite_csr (placeOf_of_aligned h (by decide)) v s

/-! ## Reserved, unmapped and unpopulated places -/

theorem csrRead_reserved {off : Nat} (h : (0x030 ≤ off ∧ off < 0x040) ∨ 0x0C0 ≤ off) (s : State) : csrRead off s = 0 := by
  unfold csrRead
  repeat rw [if_neg (by omega)]

theorem csrWrite_readOnly {off : Nat} (h : off ∉ [0x00C, 0x010, 0x014, 0x018, 0x01C]) (v : Word) (s : State) :
    csrWrite off v s = .next s := by
  simp only [List.mem_cons, List.not_mem_nil, or_false, not_or] at h
  obtain ⟨hcmd, hstatus, hirqen, harg0, harg1⟩ := h
  rw [csrWrite, if_neg hcmd, if_neg hstatus, if_neg hirqen, if_neg harg0, if_neg harg1]

theorem nodeRead_unpopulated {off : Nat} {s : State} (h : s.nodes.length * 16 ≤ off) : nodeRead off s = 0 := by
  have hn : s.nodes[off / 16]? = none := List.getElem?_eq_none (by omega)
  simp [nodeRead, hn]

theorem wb_pos (b : Build) : 0 < b.wb := by
  unfold Build.wb
  cases b.prec <;> decide

theorem twiddleRead_unpopulated {off : Nat} {b : Build} (h : 4 * (b.nmax / 8) * b.wb ≤ off) : twiddleRead off b = 0 :=
  if_neg (Nat.not_lt.2 ((Nat.le_div_iff_mul_le (wb_pos b)).2 h))

theorem dataRead_unpopulated {off : Nat} {s : State} (h : s.build.nbank * s.build.nmax * s.build.wb ≤ off) :
    dataRead off s = 0 := if_neg (Nat.not_lt.2 h)

/-- Every place but the CSRs and the populated banks ignores writes (R83, R85, R86). -/
theorem hostWrite_ignored {addr v : Word} {be : BitVec 4} {s : State}
    (hc : ∀ off, placeOf addr = .csr off → csrWrite off v s = .next s)
    (hd : ∀ off, placeOf addr = .data off → dataWrite off v s = s) : hostWrite addr v be s = .next s := by
  unfold hostWrite
  split
  · cases hp : placeOf addr with
    | csr off => exact hc off hp
    | data off => exact congrArg _ (hd off hp)
    | node off => rfl
    | twiddle off => rfl
    | unmapped => rfl
  · rfl

/-- Settles O42, place by place. -/
theorem unpopulatedReadsZero : Obligations.UnpopulatedReadsZero := by
  intro s addr v be
  refine ⟨fun off hp ho => ?_, fun hp => ?_, fun off hp ho => ?_, fun off hp ho _ => ?_, fun off hp ho => ⟨?_, ?_⟩,
    fun off hp ho => ?_, fun off hp => ?_, fun hp => ?_⟩
  · rw [hostRead_csr hp, csrRead_reserved ho]
  · rw [hostRead, hp]
  · rw [hostRead, hp]; exact nodeRead_unpopulated ho
  · rw [hostRead, hp]; exact twiddleRead_unpopulated ho
  · rw [hostRead, hp]; exact dataRead_unpopulated ho
  · refine hostWrite_ignored (by simp [hp]) fun off' hp' => ?_
    cases hp.symm.trans hp'
    exact dataWrite_out (Nat.not_lt.2 ho) v
  · refine hostWrite_ignored (fun off' hp' => ?_) (by simp [hp])
    cases hp.symm.trans hp'
    exact csrWrite_readOnly ho v s
  · obtain hp | hp := hp
    · exact hostWrite_ignored (by simp [hp]) (by simp [hp])
    · exact hostWrite_ignored (by simp [hp]) (by simp [hp])
  · exact hostWrite_ignored (by simp [hp]) (by simp [hp])

/-! ## The fields of a register -/

theorem bit_le_one (f : Bool) : bit f ≤ 1 := by cases f <;> decide

theorem ErrCode.number_le (e : ErrCode) : e.number ≤ 4 := by cases e <;> decide

theorem ContextKind.number_le (k : ContextKind) : k.number ≤ 2 := by cases k <;> decide

/-- A register that holds a number of at most 32 bits. -/
theorem toNat_ofNat_word {n : Nat} (h : n < 2 ^ 32) : (BitVec.ofNat 32 n : Word).toNat = n :=
  Nat.mod_eq_of_lt h

/-- PARAM in a legal build, field by field (R35). -/
theorem paramWord_fields {b : Build} (h : b.valid) :
    bits (paramWord b) 4 0 = b.log2nMax ∧ bits (paramWord b) 7 5 = 0 ∧
      bits (paramWord b) 8 8 = (match b.prec with | .binary32 => 0 | .binary64 => 1) ∧
      bits (paramWord b) 11 9 = 0 ∧ bits (paramWord b) 15 12 = b.nbank - 1 ∧
      bits (paramWord b) 18 16 = b.nctx - 1 ∧ bits (paramWord b) 31 19 = 0 := by
  obtain ⟨_, _, _, _, _, _⟩ := h
  unfold paramWord
  cases b.prec with
  | binary32 => simp only [bits, BitVec.toNat_ofNat]; omega
  | binary64 => simp only [bits, BitVec.toNat_ofNat]; omega

/-- STATUS, field by field (R37). -/
theorem statusWord_fields (s : State) :
    bits (statusWord s) 0 0 = bit s.busy ∧ bits (statusWord s) 1 1 = bit s.done ∧ bits (statusWord s) 2 2 = bit s.err ∧
      bits (statusWord s) 3 3 = bit s.errovf ∧ bits (statusWord s) 7 4 = 0 ∧
      bits (statusWord s) 11 8 = s.errcode.number ∧ bits (statusWord s) 31 12 = 0 := by
  have := bit_le_one s.busy
  have := bit_le_one s.done
  have := bit_le_one s.err
  have := bit_le_one s.errovf
  have := s.errcode.number_le
  simp only [statusWord, bits, BitVec.toNat_ofNat]
  omega

/-- IRQEN, field by field (R38). -/
theorem irqenWord_fields (s : State) :
    bits (irqenWord s) 0 0 = bit s.doneie ∧ bits (irqenWord s) 1 1 = bit s.errie ∧ bits (irqenWord s) 31 2 = 0 := by
  have := bit_le_one s.doneie
  have := bit_le_one s.errie
  simp only [irqenWord, bits, BitVec.toNat_ofNat]
  omega

/-- Settles O38: each address names its register, whose fields the lemmas above give. -/
theorem controlRegistersRead : Obligations.ControlRegistersRead := by
  intro s hv
  exact ⟨rfl, rfl, rfl, paramWord_fields hv, statusWord_fields s, irqenWord_fields s, rfl, rfl, rfl⟩

/-! ## The facade and context registers -/

/-- The banks of the current link fit their 4-bit fields (R8, R50). -/
theorem FacadeOk.banks_lt {s : State} (h : FacadeOk s) (hb : s.build.nbank ≤ 16) :
    s.facade.xr < 16 ∧ s.facade.xi < 16 ∧ s.facade.yr < 16 ∧ s.facade.yi < 16 := by
  obtain ⟨-, -, hlinked, hunlinked⟩ := h
  cases hl : s.facade.linked with
  | true =>
    obtain ⟨⟨_, _, _, _⟩, -⟩ := (checkLink_iff _ _ _ _ _).1 (hlinked hl)
    omega
  | false =>
    obtain ⟨_, _, _, _⟩ := hunlinked hl
    omega

/-- The size of the facade fits its 5-bit field (R7, R50). -/
theorem FacadeOk.lg_le_max {s : State} (h : FacadeOk s) : s.facade.lg ≤ s.build.log2nMax := by
  obtain ⟨hconfigured, hfresh, -, -⟩ := h
  cases hc : s.facade.configured with
  | true => exact ((checkLg_iff _ _).1 (hconfigured hc)).2
  | false => rw [(hfresh hc).1]; exact Nat.zero_le _

/-- A bound on the number of nodes, enough for NODECNT (R43). -/
theorem buildTable_length_lt (lg off st t : Nat) : (buildTable lg off st t).length < 2 ^ (lg + 1) := by
  induction lg, off, st, t using buildTable.induct with
  | case1 lg off st t ihu ih1 ih3 =>
    have e6 : 2 ^ (lg + 5 + 1) = 64 * 2 ^ lg := by ring
    have e5 : 2 ^ (lg + 4 + 1) = 32 * 2 ^ lg := by ring
    have e4 : 2 ^ (lg + 3 + 1) = 16 * 2 ^ lg := by ring
    simp only [buildTable, List.length_cons, List.length_append]
    omega
  | case2 => exact show 1 < 2 ^ (4 + 1) by decide
  | case3 => exact show 1 < 2 ^ (3 + 1) by decide
  | case4 => exact show 1 < 2 ^ (2 + 1) by decide
  | case5 => exact show 1 < 2 ^ (1 + 1) by decide
  | case6 => exact show 1 < 2 ^ (0 + 1) by decide

theorem nodes_length_lt {s : State} (hV : s.build.valid) (hF : FacadeOk s) (hN : NodesOk s) : s.nodes.length < 2 ^ 32 := by
  obtain ⟨-, hmax, -⟩ := hV
  rw [hN]
  split
  · refine (buildTable_length_lt _ _ _ _).trans_le (Nat.pow_le_pow_right (by decide) ?_)
    have := hF.lg_le_max
    omega
  · decide

/-- The configuration of a context fits the fields of its registers (R45 to R48, R53). -/
theorem ContextsOk.fields_lt {s : State} (hV : s.build.valid) (h : ContextsOk s) {c : Nat} (hc : c < s.build.nctx) :
    (s.ctx c).master < 8 ∧ s.nslaves c ≤ 8 ∧ (s.ctx c).klen < 2 ^ 32 ∧ (s.ctx c).blk < 2 ^ 32 ∧
      (s.ctx c).lgfft < 2 ^ 32 := by
  obtain ⟨-, hmax, -, -, -, hctx⟩ := hV
  have hslaves : s.nslaves c ≤ 8 := List.countP_le_length.trans (h.1.trans_le hctx)
  obtain ⟨hfree, howner, hslave, hused⟩ := h.2 c hc
  have hmaster : (s.ctx c).master < 8 := by
    cases hst : (s.ctx c).st with
    | free => rw [(hfree hst).2.2.2]; decide
    | owner => rw [(howner hst).2]; decide
    | slave => exact (hslave hst).1.trans_le hctx
  refine ⟨hmaster, hslaves, ?_⟩
  by_cases hst : (s.ctx c).st = .free
  · obtain ⟨hk, hb, hl, -⟩ := hfree hst
    rw [hk, hb, hl]
    decide
  · obtain ⟨hk, hb, hsum, hl⟩ := hused hst
    have hpow : 2 ^ (s.ctx c).lgfft ≤ 2 ^ 20 := Nat.pow_le_pow_right (by decide) (hl.trans hmax)
    omega

/-- CSTATE, field by field (R45). -/
theorem cstateWord_fields {s : State} {c : Nat} (hm : (s.ctx c).master < 8) (hn : s.nslaves c ≤ 8) :
    bits (cstateWord s c) 1 0 = (s.ctx c).st.number ∧ bits (cstateWord s c) 3 2 = 0 ∧
      bits (cstateWord s c) 6 4 = (s.ctx c).master ∧ bits (cstateWord s c) 7 7 = 0 ∧
      bits (cstateWord s c) 11 8 = s.nslaves c ∧ bits (cstateWord s c) 31 12 = 0 := by
  have := (s.ctx c).st.number_le
  simp only [cstateWord, bits, BitVec.toNat_ofNat]
  omega

/-- The host reads word w of context c at its address (R45 to R48). -/
theorem hostRead_context {c w : Nat} (hc : c < 8) (hw : w < 4) (s : State) :
    hostRead (BitVec.ofNat 32 (0x040 + 16 * c + 4 * w)) s = contextWord s c w := by
  have ho : 0x040 + 16 * c + 4 * w < 0x0C0 := by omega
  rw [hostRead_csr (placeOf_ofNat (by omega) (ho.trans (by decide))), csrRead]
  repeat rw [if_neg (by omega)]
  rw [if_pos (by omega), show (0x040 + 16 * c + 4 * w - 0x040) / 16 = c by omega,
    show (0x040 + 16 * c + 4 * w - 0x040) / 4 % 4 = w by omega]

/-- Settles O39: under the invariant every value fits its field. -/
theorem configurationRegistersRead : Obligations.ConfigurationRegistersRead := by
  intro s ⟨hV, _, _, hF, hN, hC, _⟩
  have hlg : s.facade.lg ≤ 20 := hF.lg_le_max.trans hV.2.1
  obtain ⟨hbank, -, hctx⟩ := hV.2.2.2
  refine ⟨?tcfg, ?tlink, ?nodecnt, fun c hc r hr => ?context, fun c w hc hc8 hw => ?absent⟩
  case tcfg =>
    have := bit_le_one s.facade.configured
    have := bit_le_one s.facade.linked
    rw [show hostRead 0x020 s = tcfgWord s from rfl]
    simp only [tcfgWord, bits, BitVec.toNat_ofNat]
    omega
  case tlink =>
    obtain ⟨_, _, _, _⟩ := hF.banks_lt hbank
    rw [show hostRead 0x024 s = tlinkWord s from rfl]
    simp only [tlinkWord, bits, BitVec.toNat_ofNat]
    omega
  case nodecnt => exact toNat_ofNat_word (nodes_length_lt hV hF hN)
  case context =>
    obtain ⟨hm, hn, hk, hb, hl⟩ := hC.fields_lt hV hc
    have hword : ∀ w < 4, r w = contextWord s c w := fun w hw => (hr w).trans (hostRead_context (by omega) hw s)
    have hin : ∀ w, contextWord s c w = _ := fun w => if_pos hc
    rw [hword 0 (by decide), hword 1 (by decide), hword 2 (by decide), hword 3 (by decide), hin, hin, hin, hin]
    exact ⟨cstateWord_fields hm hn, toNat_ofNat_word hk, toNat_ofNat_word hb, toNat_ofNat_word hl⟩
  case absent =>
    rw [hostRead_context hc8 hw]
    exact if_neg (Nat.not_lt.2 hc)

end Sys2Proof.Machine
end

section
/-!
PROOF. The invariant holds at reset and every step keeps it (spec/10_state.md rules R50 to R53 and R58). A host event
that is no presentation, no bank write and no reset is `Quiet`: it reaches neither the data nor the sequencer. The
effects of commands are `effect_keeps`; what is left is the running command, the bank writes and the reset.
-/
namespace Sys2Proof.Machine

/-! ## Operands of a decoded command -/

theorem bits_lt (v : Word) (hi lo : Nat) : bits v hi lo < 2 ^ (hi + 1 - lo) := Nat.mod_lt _ (Nat.two_pow_pos _)

/-- The fields that a row reads are as wide as the operands they give (R113 to R115). -/
theorem opcodeRows_wf (w : Word) : ∀ r ∈ opcodeRows, (r.build w).wf = true := by
  have hA : fieldA w < 16 := bits_lt w 11 8
  have hB : fieldB w < 16 := bits_lt w 15 12
  have hC : fieldC w < 16 := bits_lt w 19 16
  have hD : fieldD w < 16 := bits_lt w 23 20
  have hLG : fieldLG w < 32 := bits_lt w 28 24
  have hCTX : fieldCTX w < 8 := bits_lt w 10 8
  have hMCTX : fieldMCTX w < 8 := bits_lt w 14 12
  have hBK1 : fieldBK1 w < 16 := bits_lt w 19 16
  have hBK2 : fieldBK2 w < 16 := bits_lt w 23 20
  simp only [opcodeRows, List.forall_mem_cons, List.not_mem_nil, false_imp_iff, implies_true, Instr.wf, bankFits,
    contextFits, exponentFits, Bool.and_eq_true, decide_eq_true_eq]
  tauto

theorem wf_of_decode {w : Word} {i : Instr} (h : decode w = .ok i) : i.wf = true := by
  unfold decode at h
  cases hr : opcodeRows.find? (fun r => r.matches w) with
  | none => simp [hr] at h
  | some r =>
    simp only [hr, Except.ok.injEq] at h
    exact h ▸ opcodeRows_wf w r (List.mem_of_find?_eq_some hr)

/-! ## Data and control -/

/-- From s to t neither the build, nor the data, nor the draws of unwritten samples change. -/
structure SameData (s t : State) : Prop where
  build : t.build = s.build
  facade : t.facade = s.facade
  nodes : t.nodes = s.nodes
  ctxs : t.ctxs = s.ctxs
  mem : t.mem = s.mem
  epoch : t.epoch = s.epoch

/-- What an event does that reaches neither the data nor the sequencer, and leaves the error fields in order. -/
structure Quiet (s t : State) : Prop extends SameData s t where
  seq : t.seq = s.seq
  errors : ErrorsOk s → ErrorsOk t

theorem SameData.trans {s t u : State} (h1 : SameData s t) (h2 : SameData t u) : SameData s u where
  build := h2.build.trans h1.build
  facade := h2.facade.trans h1.facade
  nodes := h2.nodes.trans h1.nodes
  ctxs := h2.ctxs.trans h1.ctxs
  mem := h2.mem.trans h1.mem
  epoch := h2.epoch.trans h1.epoch

theorem SameData.takeOp (rest : List HostOp) (s : State) : SameData s (takeOp rest s) := ⟨rfl, rfl, rfl, rfl, rfl, rfl⟩

theorem Quiet.reject (w : Word) {e : ErrCode} (he : e ≠ .none) (s : State) : Quiet s (reject w e s) where
  build := reject_build ..
  facade := reject_facade ..
  nodes := reject_nodes ..
  ctxs := reject_ctxs ..
  mem := reject_mem ..
  epoch := reject_epoch ..
  seq := reject_seq ..
  errors h := by
    cases hs : s.err with
    | true => rw [reject_later w e hs]; exact h
    | false => rw [reject_first w e hs]; exact ⟨nofun, fun _ => he⟩

theorem Quiet.writeStatus (v : Word) (s : State) : Quiet s (writeStatus v s) where
  build := writeStatus_build ..
  facade := writeStatus_facade ..
  nodes := writeStatus_nodes ..
  ctxs := writeStatus_ctxs ..
  mem := writeStatus_mem ..
  epoch := writeStatus_epoch ..
  seq := writeStatus_seq ..
  errors h := by
    rw [writeStatus_eq]
    unfold ErrorsOk at h ⊢
    cases v.getLsbD 2 with
    | true => simp
    | false => simpa using h

theorem Quiet.writeIrqen (v : Word) (s : State) : Quiet s (writeIrqen v s) := ⟨⟨rfl, rfl, rfl, rfl, rfl, rfl⟩, rfl, id⟩

/-- A host write presents a command, writes the banks, or is quiet. -/
theorem hostWrite_next {addr v : Word} {be : BitVec 4} {s t : State} (h : hostWrite addr v be s = .next t) :
    present v s = .next t ∨ (∃ off, placeOf addr = .data off ∧ t = dataWrite off v s) ∨ Quiet s t := by
  obtain e | e | e | e | e | ⟨off, hp, e⟩ | e := hostWrite_cases addr v be s <;> rw [e] at h
  case inl => exact .inl h
  all_goals cases h
  · exact .inr (.inr (.writeStatus v s))
  · exact .inr (.inr (.writeIrqen v s))
  · exact .inr (.inr ⟨⟨rfl, rfl, rfl, rfl, rfl, rfl⟩, rfl, id⟩)
  · exact .inr (.inr ⟨⟨rfl, rfl, rfl, rfl, rfl, rfl⟩, rfl, id⟩)
  · exact .inr (.inl ⟨off, hp, rfl⟩)
  · exact .inr (.inr ⟨⟨rfl, rfl, rfl, rfl, rfl, rfl⟩, rfl, id⟩)

/-! ## The invariant in its two parts -/

theorem inv_iff (s : State) : Inv s ↔ DataInv s ∧ pendingOk s = true := by
  unfold Inv DataInv
  tauto

theorem DataInv.memory {s : State} (h : DataInv s) : MemoryOk s := h.2.1

theorem DataInv.errors {s : State} (h : DataInv s) : ErrorsOk s := h.2.2.1

theorem DataInv.contexts {s : State} (h : DataInv s) : ContextsOk s := h.2.2.2.2.2

theorem DataInv.of_sameData {s t : State} (h : DataInv s) (hd : SameData s t) (hE : ErrorsOk t) : DataInv t := by
  obtain ⟨hV, hM, -, hF, hN, hC⟩ := h
  obtain ⟨hb, hf, hn, hc, hm, -⟩ := hd
  refine ⟨hb ▸ hV, memoryOk_congr hb hm hM, hE, ?_, ?_, contextsOk_congr hb (by rw [hc]) (fun d => by rw [ctx_congr hc]) hC⟩
  · unfold FacadeOk; rwa [hb, hf]
  · unfold NodesOk; rwa [hn, hf]

theorem pendingOk_idle {s : State} (h : s.seq = .idle) : pendingOk s = true := by simp [pendingOk, h]

theorem pendingOk_busy {s : State} {i : Instr} {a0 a1 : Word} {left : Nat} (h : s.seq = .busy i a0 a1 left) :
    pendingOk s = true ↔ i.wf = true ∧ checkOf i a0 a1 s = none := by
  simp [pendingOk, h]

/-- Whether the running command passes its checks depends on the build, the facade and the contexts only. -/
theorem pendingOk_congr {s t : State} (hb : t.build = s.build) (hf : t.facade = s.facade) (hc : t.ctxs = s.ctxs)
    (hq : t.seq = s.seq) : pendingOk t = pendingOk s := by
  unfold pendingOk
  rw [hq]
  cases s.seq with
  | idle => rfl
  | busy i a0 a1 left => simp only [checkOf_congr hb hf hc]

theorem Inv.of_quiet {s t : State} (h : Inv s) (hq : Quiet s t) : Inv t := by
  obtain ⟨hd, hp⟩ := (inv_iff s).1 h
  refine (inv_iff t).2 ⟨hd.of_sameData hq.toSameData (hq.errors hd.errors), ?_⟩
  rw [pendingOk_congr hq.build hq.facade hq.ctxs hq.seq, hp]

/-- One host transaction fewer before the completion leaves the running command as it is. -/
theorem Inv.takeOp {s : State} (h : Inv s) (rest : List HostOp) : Inv (takeOp rest s) := by
  obtain ⟨hd, hp⟩ := (inv_iff s).1 h
  refine (inv_iff _).2 ⟨hd.of_sameData (.takeOp rest s) hd.errors, ?_⟩
  cases hs : s.seq with
  | idle => exact pendingOk_idle (by rw [takeOp_seq, hs]; rfl)
  | busy i a0 a1 left =>
    rw [pendingOk_busy hs] at hp
    have hc : checkOf i a0 a1 (Machine.takeOp rest s) = checkOf i a0 a1 s :=
      checkOf_congr (takeOp_build rest s) (takeOp_facade rest s) (takeOp_ctxs rest s) i a0 a1
    exact (pendingOk_busy (by rw [takeOp_seq, hs]; rfl)).2 (hc ▸ hp)

/-! ## Commands -/

theorem firstFail_code {l : List (Bool × ErrCode)} {e : ErrCode} (hl : ∀ x ∈ l, x.2 = .invalidArg ∨ x.2 = .invalidState)
    (h : firstFail l = some e) : e = .invalidArg ∨ e = .invalidState := hl _ (firstFail_mem h)

/-- Every check names INVALID_ARG or INVALID_STATE (R245). -/
theorem checkOf_code {i : Instr} {a0 a1 : Word} {s : State} {e : ErrCode} (h : checkOf i a0 a1 s = some e) :
    e = .invalidArg ∨ e = .invalidState := by
  cases i with
  | nop => cases h
  | cfg lg => exact firstFail_code (by simp) h
  | link xr xi yr yi => exact firstFail_code (by simp [linkChecks]) h
  | cfgl xr xi yr yi lg => exact firstFail_code (by simp) h
  | fwd => exact firstFail_code (by simp [evaluationChecks]) h
  | inv => exact firstFail_code (by simp [evaluationChecks]) h
  | fwdl xr xi yr yi => exact firstFail_code (by simp [linkChecks]) h
  | invl xr xi yr yi => exact firstFail_code (by simp [linkChecks]) h
  | prod xr xi yr yi g => exact firstFail_code (by simp) h
  | ocfg c kb => exact firstFail_code (by simp) h
  | ocfgs c m kb => exact firstFail_code (by simp) h
  | oflt c ib ob => exact firstFail_code (by simp) h
  | ofls c ob => exact firstFail_code (by simp) h
  | oini c => exact firstFail_code (by simp) h
  | oclr c => exact firstFail_code (by simp) h

theorem checkOf_code_ne_none {i : Instr} {a0 a1 : Word} {s : State} {e : ErrCode} (h : checkOf i a0 a1 s = some e) :
    e ≠ .none := by
  obtain rfl | rfl := checkOf_code h <;> decide

theorem DataInv.finish {i : Instr} {a0 a1 : Word} {s : State} (h : DataInv s) (hc : checkOf i a0 a1 s = none) :
    Inv (finish (effectOf i) a0 a1 s) := by
  have he := effect_keeps h hc
  exact (inv_iff _).2 ⟨he.of_sameData ⟨rfl, rfl, rfl, rfl, rfl, rfl⟩ he.errors, pendingOk_idle (finish_seq ..)⟩

theorem Inv.complete {s : State} (h : Inv s) : Inv (complete s) := by
  obtain ⟨hd, hp⟩ := (inv_iff s).1 h
  cases hs : s.seq with
  | idle => rwa [complete_idle hs]
  | busy i a0 a1 left =>
    rw [complete_busy hs]
    exact hd.finish ((pendingOk_busy hs).1 hp).2

theorem Inv.issue {i : Instr} {s : State} (h : Inv s) (hw : i.wf = true) : Inv (issue i (checkOf i) (effectOf i) s) := by
  have hd := ((inv_iff s).1 h).1
  have hda : DataInv (accept i s) := hd.of_sameData ⟨rfl, rfl, rfl, rfl, rfl, rfl⟩ hd.errors
  have hca : checkOf i s.arg0 s.arg1 (accept i s) = checkOf i s.arg0 s.arg1 s :=
    checkOf_congr (accept_build i s) (accept_facade i s) (accept_ctxs i s) i _ _
  obtain ⟨_, e⟩ | ⟨_, code, hc, e⟩ | ⟨_, hc, _, e⟩ | ⟨_, hc, _, e⟩ := issue_cases i (checkOf i) (effectOf i) s <;> rw [e]
  · exact h.of_quiet (.reject _ (by decide) s)
  · exact h.of_quiet (.reject _ (checkOf_code_ne_none hc) s)
  · exact hda.finish (hca.trans hc)
  · exact (inv_iff _).2 ⟨hda, (pendingOk_busy (accept_seq i s)).2 ⟨hw, hca.trans hc⟩⟩

theorem Inv.present {w : Word} {s t : State} (h : Inv s) (ht : present w s = .next t) : Inv t := by
  obtain ⟨_, e⟩ | ⟨_, _, e⟩ | ⟨i, _, hd, e⟩ := present_cases w s <;> rw [e] at ht <;> cases ht
  · exact h.of_quiet (.reject _ (by decide) s)
  · exact h.of_quiet (.reject _ (by decide) s)
  · exact h.issue (wf_of_decode hd)

/-! ## Bank writes -/

theorem dataWrite_eq (off : Nat) (v : Word) (s : State) : dataWrite off v s = { s with mem := (dataWrite off v s).mem } := by
  unfold dataWrite
  split <;> rfl

theorem Inv.dataWrite {off : Nat} {s : State} (h : Inv s) (v : Word) (h4 : off % 4 = 0) : Inv (dataWrite off v s) := by
  obtain ⟨hd, hp⟩ := (inv_iff s).1 h
  have hM := memoryOk_dataWrite hd.memory v h4
  rw [dataWrite_eq] at hM ⊢
  refine (inv_iff _).2 ⟨hd.change rfl hM (contextsOk_congr (s := s) rfl rfl (fun _ => rfl) hd.contexts), ?_⟩
  refine (pendingOk_congr ?_ ?_ ?_ ?_).trans hp <;> rfl

theorem placeOf_data_aligned {addr : Word} {off : Nat} (h : placeOf addr = .data off) : off % 4 = 0 := by
  obtain ⟨hlo, _, ho⟩ := placeOfNat_data.1 (show placeOfNat (alignedAddr addr) = .data off from h)
  have h4 := (alignedAddr_spec addr).1
  unfold dataBase at hlo ho
  omega

theorem Inv.hostWrite {addr v : Word} {be : BitVec 4} {s t : State} (h : Inv s) (ht : hostWrite addr v be s = .next t) :
    Inv t := by
  obtain hpr | ⟨off, hp, rfl⟩ | hq := hostWrite_next ht
  · exact h.present hpr
  · exact h.dataWrite v (placeOf_data_aligned hp)
  · exact h.of_quiet hq

/-! ## What the checks of the commands that write banks say -/

theorem evaluationChecks_pass_iff (s : State) :
    firstFail (evaluationChecks s) = none ↔ s.facade.configured = true ∧ s.facade.linked = true := by
  simp [evaluationChecks, firstFail_eq_none_iff]

theorem linkChecks_pass_iff (xr xi yr yi : Nat) (s : State) :
    firstFail (linkChecks xr xi yr yi s) = none ↔ s.facade.configured = true ∧ LinkLegal s.build xr xi yr yi := by
  simp [linkChecks, firstFail_eq_none_iff, checkLink_iff]

theorem checkProd_pass_iff (xr xi yr yi : Nat) (a0 a1 : Word) (s : State) :
    checkProd xr xi yr yi a0 a1 s = none ↔
      (xr < s.build.nbank ∧ xi < s.build.nbank ∧ yr < s.build.nbank ∧ yi < s.build.nbank) ∧ yr ≠ yi ∧
        a0.toNat ≤ s.build.nmax := by
  simp [checkProd, firstFail_eq_none_iff, bankOk, and_assoc]

theorem checkOflt_pass_iff (c ib ob : Nat) (a0 a1 : Word) (s : State) :
    checkOflt c ib ob a0 a1 s = none ↔
      c < s.build.nctx ∧ (s.ctx c).st ≠ .free ∧ (ib < s.build.nbank ∧ ob < s.build.nbank) ∧
        a0.toNat ≤ s.build.nmax - (s.ctx c).blk ∧ a1.toNat ≤ s.build.nmax - (s.ctx c).blk := by
  simp [checkOflt, firstFail_eq_none_iff, contextOk, contextInUse, bankOk, offsetOk]

theorem checkOfls_pass_iff (c ob : Nat) (a0 a1 : Word) (s : State) :
    checkOfls c ob a0 a1 s = none ↔
      c < s.build.nctx ∧ (s.ctx c).st ≠ .free ∧ ob < s.build.nbank ∧ a1.toNat ≤ s.build.nmax - (s.ctx c).blk := by
  simp [checkOfls, firstFail_eq_none_iff, contextOk, contextInUse, bankOk, offsetOk]

/-- The span lies in a bank of the build (R84). -/
abbrev BankSpan.Inside (b : Build) (w : BankSpan) : Prop := w.bank < b.nbank ∧ w.first + w.count ≤ b.nmax

/-- The two destination banks of a legal link, below the transform size. -/
theorem destination_inside {s : State} (hF : FacadeOk s) {xr xi yr yi : Nat} (hl : LinkLegal s.build xr xi yr yi) :
    ∀ w ∈ [(⟨yr, 0, 2 ^ s.facade.lg⟩ : BankSpan), ⟨yi, 0, 2 ^ s.facade.lg⟩], w.Inside s.build := by
  obtain ⟨⟨_, _, hr, hi⟩, -⟩ := hl
  have hn : 0 + 2 ^ s.facade.lg ≤ s.build.nmax := (Nat.zero_add _).trans_le hF.lg_le
  simp only [List.forall_mem_cons, List.not_mem_nil, false_imp_iff, implies_true, and_true]
  exact ⟨⟨hr, hn⟩, hi, hn⟩

/-- An output block at an offset that passes its check. -/
theorem block_inside {s : State} (hC : ContextsOk s) {c ob o : Nat} (hc : c < s.build.nctx) (hb : ob < s.build.nbank)
    (ho : o ≤ s.build.nmax - (s.ctx c).blk) : (⟨ob, o, (s.ctx c).blk⟩ : BankSpan).Inside s.build := by
  have := (hC.blk_le hc).1
  refine ⟨hb, ?_⟩
  show o + (s.ctx c).blk ≤ s.build.nmax
  omega

/-- A command whose checks pass writes inside the banks of the build (R54, R83). -/
theorem bankSpans_inside {i : Instr} {a0 a1 : Word} {s : State} (h : DataInv s) (hc : checkOf i a0 a1 s = none) :
    ∀ w ∈ bankSpans s a0 a1 i, w.Inside s.build := by
  obtain ⟨-, -, -, hF, -, hC⟩ := h
  have hlinked : s.facade.linked = true → LinkLegal s.build s.facade.xr s.facade.xi s.facade.yr s.facade.yi :=
    fun hl => (checkLink_iff _ _ _ _ _).1 (hF.2.2.1 hl)
  cases i with
  | nop => exact nofun
  | cfg lg => exact nofun
  | link xr xi yr yi => exact nofun
  | cfgl xr xi yr yi lg => exact nofun
  | fwd => exact destination_inside hF (hlinked ((evaluationChecks_pass_iff s).1 hc).2)
  | inv => exact destination_inside hF (hlinked ((evaluationChecks_pass_iff s).1 hc).2)
  | fwdl xr xi yr yi => exact destination_inside hF ((linkChecks_pass_iff _ _ _ _ s).1 hc).2
  | invl xr xi yr yi => exact destination_inside hF ((linkChecks_pass_iff _ _ _ _ s).1 hc).2
  | prod xr xi yr yi g =>
    obtain ⟨⟨_, _, hr, hi⟩, _, hn⟩ := (checkProd_pass_iff _ _ _ _ a0 a1 s).1 hc
    have hn0 : 0 + a0.toNat ≤ s.build.nmax := (Nat.zero_add _).trans_le hn
    simp only [bankSpans, List.forall_mem_cons, List.not_mem_nil, false_imp_iff, implies_true, and_true]
    exact ⟨⟨hr, hn0⟩, hi, hn0⟩
  | oflt c ib ob =>
    obtain ⟨hcn, _, ⟨_, hb⟩, _, ho⟩ := (checkOflt_pass_iff _ _ _ a0 a1 s).1 hc
    exact List.forall_mem_singleton.2 (block_inside hC hcn hb ho)
  | ofls c ob =>
    obtain ⟨hcn, _, hb, ho⟩ := (checkOfls_pass_iff _ _ a0 a1 s).1 hc
    exact List.forall_mem_singleton.2 (block_inside hC hcn hb ho)
  | ocfg c kb => exact nofun
  | ocfgs c m kb => exact nofun
  | oini c => exact nofun
  | oclr c => exact nofun

/-! ## The reset -/

/-- After a reset everything but the contexts, the banks, the free-value indices and what the host is still going to do
is as in the reset state (R58). -/
theorem resetEvent_eq (s : State) :
    resetEvent s = { State.resetOf s.build with
      ctxs := (resetEvent s).ctxs, mem := (resetEvent s).mem, epoch := (resetEvent s).epoch,
      aborts := (resetEvent s).aborts, bus := (resetEvent s).bus, delays := (resetEvent s).delays } := by
  rw [← (resetEvent_build s).1]
  cases h : s.seq with
  | idle => rw [resetEvent_idle h]; rfl
  | busy i a0 a1 left => rw [resetEvent_busy h]; rfl

/-- After a reset every context is FREE (R52, R58). -/
theorem resetEvent_ctx_config (s : State) (c : Nat) : ((resetEvent s).ctx c).config = Context.fresh.config := by
  have hall : ∀ x ∈ (resetEvent s).ctxs, x.config = Context.fresh.config := by
    intro x hx
    cases h : s.seq with
    | idle =>
      rw [resetEvent_idle h] at hx
      rw [List.eq_of_mem_replicate hx]
    | busy i a0 a1 left =>
      rw [resetEvent_busy h] at hx
      obtain ⟨y, _, rfl⟩ := List.mem_map.1 hx
      rfl
  unfold State.ctx
  rw [List.getD_eq_getElem?_getD]
  cases hc : (resetEvent s).ctxs[c]? with
  | none => rfl
  | some x => exact hall x (List.mem_of_getElem? hc)

theorem forgetContext_ctxs_length (s : State) (span : Option (Nat × Bool × Nat)) :
    (forgetContext s span).ctxs.length = s.ctxs.length := by
  cases span with
  | none => rfl
  | some w => exact List.length_set

theorem forgetContext_mem (s : State) (span : Option (Nat × Bool × Nat)) : (forgetContext s span).mem = s.mem := by
  cases span <;> rfl

theorem forgetSpans_ctxs (ws : List BankSpan) (s : State) : (ws.foldl forgetSpan s).ctxs = s.ctxs := by
  induction ws generalizing s with
  | nil => rfl
  | cons w ws ih => exact (ih (forgetSpan s w)).trans (s.setBlock_ctxs ..)

theorem memoryOk_forgetSpans {ws : List BankSpan} {s : State} (hM : MemoryOk s) (hw : ∀ w ∈ ws, w.Inside s.build) :
    MemoryOk (ws.foldl forgetSpan s) := by
  induction ws generalizing s with
  | nil => exact hM
  | cons w ws ih =>
    obtain ⟨⟨hbank, hcount⟩, hws⟩ := List.forall_mem_cons.1 hw
    refine ih (s := forgetSpan s w) (memoryOk_setBlock hM hbank (by simpa using hcount)) ?_
    rwa [forgetSpan_build]

theorem resetEvent_ctxs_length {s : State} (h : ContextsOk s) : (resetEvent s).ctxs.length = s.build.nctx := by
  cases hs : s.seq with
  | idle => rw [resetEvent_idle hs]; exact List.length_replicate
  | busy i a0 a1 left =>
    rw [resetEvent_busy hs]
    refine List.length_map _ |>.trans ?_
    rw [forgetContext_ctxs_length, forgetSpans_ctxs, h.1]

theorem resetEvent_memoryOk {s : State} (h : Inv s) : MemoryOk (resetEvent s) := by
  obtain ⟨hd, hp⟩ := (inv_iff s).1 h
  cases hs : s.seq with
  | idle => rw [resetEvent_idle hs]; exact ⟨List.Pairwise.nil, nofun⟩
  | busy i a0 a1 left =>
    refine memoryOk_congr ?_ ?_ (memoryOk_forgetSpans hd.memory (bankSpans_inside hd ((pendingOk_busy hs).1 hp).2))
    · rw [(resetEvent_build s).1, forgetSpans_build]
    · rw [resetEvent_busy hs]; exact forgetContext_mem ..

theorem contextsOk_of_fresh {s : State} (hl : s.ctxs.length = s.build.nctx)
    (hc : ∀ c, (s.ctx c).config = Context.fresh.config) : ContextsOk s := by
  refine ⟨hl, fun c _ => ?_⟩
  obtain ⟨hst, hm, hk, hb, hlg⟩ := Context.config_eq_iff.1 (hc c)
  exact ⟨fun _ => ⟨hk, hb, hlg, hm⟩, fun h => ContextKind.noConfusion (hst.symm.trans h),
    fun h => ContextKind.noConfusion (hst.symm.trans h), fun h => absurd hst h⟩

/-- A state whose control state is the one of reset meets the invariant, if its banks and contexts do. -/
theorem inv_of_reset {t : State} (hV : t.build.valid)
    (ht : t = { State.resetOf t.build with
      ctxs := t.ctxs, mem := t.mem, epoch := t.epoch, aborts := t.aborts, bus := t.bus, delays := t.delays })
    (hM : MemoryOk t) (hC : ContextsOk t) : Inv t := by
  have hF : FacadeOk t := by rw [ht]; exact ⟨nofun, fun _ => ⟨rfl, rfl⟩, nofun, fun _ => ⟨rfl, rfl, rfl, rfl⟩⟩
  have hE : ErrorsOk t := by rw [ht]; exact ⟨fun _ => ⟨rfl, rfl⟩, nofun⟩
  exact ⟨hV, hM, hE, hF, by rw [ht]; rfl, hC, pendingOk_idle (by rw [ht]; rfl)⟩

theorem Inv.resetEvent {s : State} (h : Inv s) : Inv (resetEvent s) := by
  have hd := ((inv_iff s).1 h).1
  have hb := (resetEvent_build s).1
  refine inv_of_reset (hb ▸ h.1) (hb ▸ resetEvent_eq s) (resetEvent_memoryOk h) ?_
  exact contextsOk_of_fresh ((resetEvent_ctxs_length hd.contexts).trans (by rw [hb])) (resetEvent_ctx_config s)

theorem inv_resetOf {b : Build} (h : b.valid) : Inv (State.resetOf b) := by
  refine inv_of_reset h rfl ⟨reset_wf b, nofun⟩ (contextsOk_of_fresh List.length_replicate fun c => ?_)
  simp [State.ctx, State.resetOf, List.getD_eq_getElem?_getD, List.getElem?_replicate]
  split <;> rfl

/-- Settles O30: the reset state has no written memory, no error, an unconfigured facade and FREE contexts. -/
theorem invariantAtReset : Obligations.InvariantAtReset := by
  refine ⟨fun b hb => ⟨inv_resetOf hb, (entriesFit_iff _).2 fun x hx => ?_⟩, inv_resetOf (by decide)⟩
  rw [List.eq_of_mem_replicate hx]
  exact Context.fresh_fit _

/-! ## The step -/

theorem Inv.perform {op : HostOp} {s t : State} (h : Inv s) (ht : perform op s = .next t) : Inv t := by
  cases op with
  | read addr => cases ht; exact h.of_quiet ⟨⟨rfl, rfl, rfl, rfl, rfl, rfl⟩, rfl, id⟩
  | write addr v be => exact h.hostWrite ht
  | reset => cases ht; exact h.resetEvent

/-- Settles O31: a step is the completion, nothing, or the host's next event. -/
theorem stepKeepsInvariant : Obligations.StepKeepsInvariant := by
  intro s t h ht
  obtain ⟨_, e⟩ | ⟨_, _, e⟩ | ⟨op, rest, _, _, e⟩ := step_cases s <;> rw [e] at ht
  · cases ht; exact h.complete
  · cases ht; exact h
  · exact (h.takeOp rest).perform ht

end Sys2Proof.Machine
end

section
/-!
PROOF. What reaches what (spec/10_state.md rules R31, R54 and R58, spec/20_memory.md rules R94 and R96): commands write
no host register and no byte outside their samples, the effect of a command depends on the data alone, so that host
transactions during its run do not change it, and a reset leaves the control state of rule R58.
-/
namespace Sys2Proof.Machine

/-! ## Commands and the host's registers -/

/-- From s to t the registers that only the host writes keep their values (R38 to R40). -/
structure SameOperands (s t : State) : Prop where
  arg0 : t.arg0 = s.arg0
  arg1 : t.arg1 = s.arg1
  doneie : t.doneie = s.doneie
  errie : t.errie = s.errie

theorem SameOperands.reject (w : Word) (e : ErrCode) (s : State) : SameOperands s (reject w e s) :=
  ⟨reject_arg0 .., reject_arg1 .., reject_doneie .., reject_errie ..⟩

theorem SameOperands.finish (i : Instr) (a0 a1 : Word) (s : State) : SameOperands s (finish (effectOf i) a0 a1 s) := by
  unfold Machine.finish
  rw [effectOf_sameControl i a0 a1 s]
  exact ⟨rfl, rfl, rfl, rfl⟩

theorem SameOperands.issue (i : Instr) (s : State) : SameOperands s (issue i (checkOf i) (effectOf i) s) := by
  obtain ⟨_, e⟩ | ⟨_, code, _, e⟩ | ⟨_, _, _, e⟩ | ⟨_, _, _, e⟩ := issue_cases i (checkOf i) (effectOf i) s <;> rw [e]
  · exact .reject _ _ s
  · exact .reject _ _ s
  · obtain ⟨h0, h1, h2, h3⟩ := SameOperands.finish i s.arg0 s.arg1 (accept i s)
    exact ⟨h0, h1, h2, h3⟩
  · exact ⟨rfl, rfl, rfl, rfl⟩

theorem SameOperands.complete (s : State) : SameOperands s (complete s) := by
  cases hs : s.seq with
  | idle => rw [complete_idle hs]; exact ⟨rfl, rfl, rfl, rfl⟩
  | busy i a0 a1 left => rw [complete_busy hs]; exact .finish i a0 a1 s

/-- Settles O34, at the issue and at the completion. -/
theorem onlyTheHostWritesOperands : Obligations.OnlyTheHostWritesOperands := by
  refine ⟨fun i s t h => ?_, fun s => ?_⟩
  · rw [exec_eq_issue] at h
    cases h
    obtain ⟨h0, h1, h2, h3⟩ := SameOperands.issue i s
    exact ⟨h0, h1, h2, h3⟩
  · obtain ⟨h0, h1, h2, h3⟩ := SameOperands.complete s
    exact ⟨h0, h1, h2, h3⟩

/-! ## The bytes a command writes -/

/-- A byte outside a span is outside every part of it. -/
theorem outsideSpan_part {b : Build} {bank first count k n a : Nat} (h : OutsideSpan b bank first count a)
    (hk : first ≤ k) (hn : k + n ≤ first + count) : OutsideSpan b bank k n a := by
  have hmono : ∀ {j j'}, j ≤ j' → sampleAddr b bank j ≤ sampleAddr b bank j' := fun {j j'} hj => by
    rw [← Nat.add_sub_cancel' hj, sampleAddr_add]
    exact Nat.le_add_right _ _
  exact h.imp (fun h => h.trans_le (hmono hk)) (fun h => (hmono hn).trans h)

theorem byte_setBlock_outside {s : State} {bank first count a : Nat} {vs : List Sample} (hv : vs.length ≤ count)
    (h : OutsideSpan s.build bank first count a) : (s.setBlock bank first vs).byte a = s.byte a :=
  State.byte_setBlock_out _ _ _ _ (outsideSpan_part h le_rfl (Nat.add_le_add_left hv first))

/-- A transform writes below N in the two destination banks only (R163). -/
theorem byte_storeDest_outside {s : State} {ys : List (Cpx Sample)} {n a : Nat} (hn : ys.length = n)
    (h : ∀ w ∈ [(⟨s.facade.yr, 0, n⟩ : BankSpan), ⟨s.facade.yi, 0, n⟩], OutsideSpan s.build w.bank w.first w.count a) :
    (storeDest ys s).byte a = s.byte a := by
  obtain ⟨hr, hi⟩ := List.forall_mem_cons.1 h
  replace hi := List.forall_mem_singleton.1 hi
  unfold storeDest
  rw [byte_setBlock_outside (count := n) (by simp [hn]) (by simpa using hi),
    byte_setBlock_outside (by simp [hn]) hr]

/-- A product writes the elements of its run in the two banks of Y only (R189). -/
theorem byte_product_outside {xr xi yr yi n a : Nat} {g : Sign} (l : List Nat) {s : State} (hl : ∀ k ∈ l, k < n)
    (h : ∀ w ∈ [(⟨yr, 0, n⟩ : BankSpan), ⟨yi, 0, n⟩], OutsideSpan s.build w.bank w.first w.count a) :
    (l.foldl (productAt xr xi yr yi g) s).byte a = s.byte a := by
  induction l generalizing s with
  | nil => rfl
  | cons k l ih =>
    obtain ⟨hk, hl⟩ := List.forall_mem_cons.1 hl
    refine (ih (s := productAt xr xi yr yi g s k) hl h).trans ?_
    obtain ⟨hr, hi⟩ := List.forall_mem_cons.1 h
    replace hi := List.forall_mem_singleton.1 hi
    have hpart : ∀ bank, OutsideSpan s.build bank 0 n a → OutsideSpan s.build bank k 1 a :=
      fun bank h => outsideSpan_part h (Nat.zero_le k) (by omega)
    unfold productAt
    dsimp only
    rw [setSample_eq_setBlock, setSample_eq_setBlock, byte_setBlock_outside le_rfl (hpart yi hi),
      byte_setBlock_outside le_rfl (hpart yr hr)]

/-- EMIT writes its output block only (R215). -/
theorem byte_emit_outside {s : State} {c ob oo a : Nat} (h : OutsideSpan s.build ob oo (s.ctx c).blk a) :
    (emit c ob oo s).byte a = s.byte a :=
  byte_setBlock_outside (List.length_take_le _ _) h

/-- Settles O35, command by command. -/
theorem commandsWriteTheirSamplesOnly : Obligations.CommandsWriteTheirSamplesOnly := by
  intro i a0 a1 s a h
  cases i with
  | nop => rfl
  | cfg lg => rfl
  | link xr xi yr yi => rfl
  | cfgl xr xi yr yi lg => rfl
  | fwd => exact byte_storeDest_outside (Arith.fwd_length _ _ _) h
  | inv => exact byte_storeDest_outside (Arith.inverse_length _ _ _) h
  | fwdl xr xi yr yi =>
    exact byte_storeDest_outside (s := bind xr xi yr yi s) (Arith.fwd_length _ _ _) h
  | invl xr xi yr yi =>
    exact byte_storeDest_outside (s := bind xr xi yr yi s) (Arith.inverse_length _ _ _) h
  | prod xr xi yr yi g => exact byte_product_outside _ (fun k hk => List.mem_range.1 hk) h
  | ocfg c kb => rfl
  | ocfgs c m kb => rfl
  | oflt c ib ob =>
    have hblk : ((olaStep c ib a0.toNat s).ctx c).blk = (s.ctx c).blk :=
      (Context.config_eq_iff.1 (config_setAcc c _ s c)).2.2.2.1
    refine byte_emit_outside (s := olaStep c ib a0.toNat s) ?_
    rw [hblk]
    exact h ⟨ob, a1.toNat, (s.ctx c).blk⟩ (List.mem_singleton_self _)
  | ofls c ob => exact byte_emit_outside (h ⟨ob, a1.toNat, (s.ctx c).blk⟩ (List.mem_singleton_self _))
  | oini c => rfl
  | oclr c => rfl

/-! ## An effect depends on the data alone -/

/-- The data of s, the build and the draws of its unwritten samples, under the control state of u. -/
def State.withControl (u s : State) : State :=
  { u with
    build := s.build, facade := s.facade, nodes := s.nodes, ctxs := s.ctxs, mem := s.mem, epoch := s.epoch }

theorem SameData.eq_withControl {s t : State} (h : SameData s t) : t = State.withControl t s := by
  obtain ⟨hb, hf, hn, hc, hm, he⟩ := h
  unfold State.withControl
  rw [← hb, ← hf, ← hn, ← hc, ← hm, ← he]

theorem setBlock_withControl (u s : State) (b j : Nat) (vs : List Sample) :
    (u.withControl s).setBlock b j vs = u.withControl (s.setBlock b j vs) := by
  induction vs generalizing s j with
  | nil => rfl
  | cons v vs ih => exact ih (s.setSample b j v) (j + 1)

theorem storeDest_withControl (u s : State) (ys : List (Cpx Sample)) :
    storeDest ys (u.withControl s) = u.withControl (storeDest ys s) := by
  unfold storeDest
  rw [setBlock_withControl]
  exact setBlock_withControl ..

theorem product_withControl (u s : State) (xr xi yr yi : Nat) (g : Sign) (l : List Nat) :
    l.foldl (productAt xr xi yr yi g) (u.withControl s) = u.withControl (l.foldl (productAt xr xi yr yi g) s) := by
  induction l generalizing s with
  | nil => rfl
  | cons k l ih => exact ih (productAt xr xi yr yi g s k)

theorem emit_withControl (u s : State) (c ob oo : Nat) : emit c ob oo (u.withControl s) = u.withControl (emit c ob oo s) := by
  unfold emit
  dsimp only
  rw [setBlock_withControl]
  rfl

/-- An effect neither reads nor writes the control state (R96, R241). -/
theorem effectOf_withControl (u s : State) (i : Instr) (a0 a1 : Word) :
    effectOf i a0 a1 (u.withControl s) = u.withControl (effectOf i a0 a1 s) := by
  cases i with
  | nop => rfl
  | cfg lg => rfl
  | link xr xi yr yi => rfl
  | cfgl xr xi yr yi lg => rfl
  | fwd => exact storeDest_withControl ..
  | inv => exact storeDest_withControl ..
  | fwdl xr xi yr yi => exact storeDest_withControl u (bind xr xi yr yi s) _
  | invl xr xi yr yi => exact storeDest_withControl u (bind xr xi yr yi s) _
  | prod xr xi yr yi g => exact product_withControl ..
  | ocfg c kb => rfl
  | ocfgs c m kb => rfl
  | oflt c ib ob => exact emit_withControl u (olaStep c ib a0.toNat s) c ob a1.toNat
  | ofls c ob => exact emit_withControl ..
  | oini c => rfl
  | oclr c => rfl

/-- The completion of one command with the same operands on the same data leaves the same data (R96). -/
theorem dataOf_complete_congr {s t : State} {i : Instr} {a0 a1 : Word} {left left' : Nat} (h : SameData s t)
    (hs : s.seq = .busy i a0 a1 left) (ht : t.seq = .busy i a0 a1 left') :
    dataOf (complete t) = dataOf (complete s) := by
  rw [complete_busy hs, complete_busy ht]
  show dataOf (effectOf i a0 a1 t) = dataOf (effectOf i a0 a1 s)
  rw [h.eq_withControl, effectOf_withControl]
  rfl

/-! ## Host transactions during a command -/

/-- A word presented while a command runs is rejected, which is quiet (R244). -/
theorem Quiet.present {w : Word} {s t : State} (hb : s.busy = true) (h : present w s = .next t) : Quiet s t := by
  rw [Machine.present, if_pos hb] at h
  cases h
  exact .reject w (by decide) s

/-- A transaction that neither stalls nor resets is quiet while a command runs (R93, R94). -/
theorem Quiet.perform {op : HostOp} {s t : State} (hb : s.busy = true) (hr : op ≠ .reset) (hst : op.stalls = false)
    (h : perform op s = .next t) : Quiet s t := by
  cases op with
  | read addr => cases h; exact ⟨⟨rfl, rfl, rfl, rfl, rfl, rfl⟩, rfl, id⟩
  | write addr v be =>
    obtain hp | ⟨off, hp, -⟩ | hq := hostWrite_next h
    · exact .present hb hp
    · simp [HostOp.stalls, hp, Place.stalls] at hst
    · exact hq
  | reset => exact absurd rfl hr

theorem completionDue_of_not_stalls {s : State} {i : Instr} {a0 a1 : Word} {left : Nat} {op : HostOp}
    {rest : List HostOp} (hs : s.seq = .busy i a0 a1 (left + 1)) (hb : s.bus = op :: rest) (hst : op.stalls = false) :
    completionDue s = false := by
  simp [completionDue, hs, hb, hst]

/-- Settles O16: the transaction is quiet, and the completion depends on the data and the latched operands. -/
theorem hostEventsDoNotDisturb : Obligations.HostEventsDoNotDisturb := by
  intro s t i a0 a1 left op rest hs hb hr hst h
  have hq : (takeOp rest s).seq = .busy i a0 a1 left := by rw [takeOp_seq, hs]; rfl
  have hbusy : (takeOp rest s).busy = true := by rw [State.busy, hq]
  have hp : perform op (takeOp rest s) = .next t := by
    rw [← h, step, completionDue_of_not_stalls hs hb hst, hb]
    rfl
  have quiet : Quiet (takeOp rest s) t := .perform hbusy hr hst hp
  have ht : t.seq = .busy i a0 a1 left := quiet.seq.trans hq
  exact ⟨ht, dataOf_complete_congr ((SameData.takeOp rest s).trans quiet.toSameData) hs ht⟩

/-! ## The control state after a reset -/

/-- Settles O49: after a reset the control state is the one of the reset state of the build, and every context is FREE. -/
theorem resetControlState : Obligations.ResetControlState := by
  intro s
  refine ⟨resetEvent s, rfl, (resetEvent_build s).1, ?_⟩
  have hctx : ∀ c, _ := fun c => Context.config_eq_iff.1 (resetEvent_ctx_config s c)
  rw [resetEvent_eq s]
  refine ⟨?status, rfl, rfl, rfl, rfl, rfl, rfl, rfl, rfl, ?tcfg, ?tlink, rfl, fun c => ?context⟩
  case status => simp [statusWord, State.resetOf, State.busy, bit, ErrCode.number]
  case tcfg => simp [tcfgWord, State.resetOf, Facade.fresh, bit]
  case tlink => simp [tlinkWord, State.resetOf, Facade.fresh]
  obtain ⟨hst, hm, hk, hb, hl⟩ := hctx c
  exact ⟨hst, hm, hk, hb, hl⟩

end Sys2Proof.Machine
end

section
/-!
PROOF. The host's windows and transactions (spec/20_memory.md rules R81 to R93): every event answers a next state, the
form of a transaction, which words the DATA, TWIDDLE and NODE windows hold and at which addresses, and which
transactions wait for a running command. A sample and a ROM entry are shown as the host words of one 64-bit value
(`sampleWord`), so both windows rest on the same two facts about it.
-/
namespace Sys2Proof.Machine

/-! ## Every event answers a next state -/

theorem exec_total (i : Instr) (s : State) : ∃ t, exec i s = .next t := ⟨_, exec_eq_issue i s⟩

theorem present_total (w : Word) (s : State) : ∃ t, present w s = .next t := by
  obtain ⟨_, e⟩ | ⟨_, _, e⟩ | ⟨_, _, _, e⟩ := present_cases w s
  · exact ⟨_, e⟩
  · exact ⟨_, e⟩
  · exact ⟨_, e⟩

theorem hostWrite_total (addr v : Word) (be : BitVec 4) (s : State) : ∃ t, hostWrite addr v be s = .next t := by
  obtain e | e | e | e | e | ⟨_, _, e⟩ | e := hostWrite_cases addr v be s
  case inl => exact e ▸ present_total v s
  all_goals exact ⟨_, e⟩

theorem perform_total (op : HostOp) (s : State) : ∃ t, perform op s = .next t := by
  cases op with
  | read addr => exact ⟨_, rfl⟩
  | write addr v be => exact hostWrite_total addr v be s
  | reset => exact ⟨_, rfl⟩

theorem step_total (s : State) : ∃ t, step s = .next t := by
  obtain ⟨_, e⟩ | ⟨_, _, e⟩ | ⟨op, rest, _, _, e⟩ := step_cases s
  · exact ⟨_, e⟩
  · exact ⟨_, e⟩
  · exact e ▸ perform_total op (takeOp rest s)

/-- Settles O33: a command is issued, and every other event leads there or answers its state directly. -/
theorem nothingStops : Obligations.NothingStops := ⟨exec_total, perform_total, step_total⟩

/-! ## Transactions -/

/-- Addresses of one word name one place (R89). -/
theorem placeOf_congr {addr addr' : Word} (h : addr.toNat / 4 = addr'.toNat / 4) : placeOf addr = placeOf addr' := by
  have ha : alignedAddr addr = alignedAddr addr' := by unfold alignedAddr; omega
  rw [placeOf, placeOf, ha]

/-- Settles O43: a transaction reads its address through its place only. -/
theorem transactionForm : Obligations.TransactionForm := by
  intro s addr addr' v be
  refine ⟨fun h => ?_, rfl, fun hbe => hostWrite_partial hbe s⟩
  have hp := placeOf_congr h
  exact ⟨by rw [hostRead, hostRead, hp], by rw [hostWrite, hostWrite, hp]⟩

/-! ## The addresses of the windows -/

theorem alignedAddr_ofNat {a : Nat} (h4 : a % 4 = 0) (ha : a < 2 ^ 32) : alignedAddr (BitVec.ofNat 32 a) = a := by
  rw [alignedAddr, toNat_ofNat_word ha, h4, Nat.sub_zero]

theorem placeOf_node {off : Nat} (h4 : off % 4 = 0) (ho : off < nodeSize) :
    placeOf (BitVec.ofNat 32 (nodeBase + off)) = .node off := by
  unfold nodeSize at ho
  rw [placeOf, alignedAddr_ofNat (by unfold nodeBase; omega) (by unfold nodeBase; omega)]
  unfold placeOfNat csrSize nodeBase nodeSize
  rw [if_neg (by omega), if_pos (by omega), Nat.add_sub_cancel_left]

theorem placeOf_twiddle {off : Nat} (h4 : off % 4 = 0) (ho : off < twiddleSize) :
    placeOf (BitVec.ofNat 32 (twiddleBase + off)) = .twiddle off := by
  unfold twiddleSize at ho
  rw [placeOf, alignedAddr_ofNat (by unfold twiddleBase; omega) (by unfold twiddleBase; omega)]
  unfold placeOfNat csrSize nodeBase nodeSize twiddleBase twiddleSize
  rw [if_neg (by omega), if_neg (by omega), if_pos (by omega), Nat.add_sub_cancel_left]

theorem placeOf_data {off : Nat} (h4 : off % 4 = 0) (ho : off < dataSize) :
    placeOf (BitVec.ofNat 32 (dataBase + off)) = .data off := by
  unfold dataSize at ho
  rw [placeOf, alignedAddr_ofNat (by unfold dataBase; omega) (by unfold dataBase; omega)]
  exact placeOfNat_data.2 (by unfold dataBase dataSize; omega)

/-- The address of the word at an offset of the DATA region (R82). -/
theorem alignedAddr_of_data {addr : Word} {off : Nat} (h : placeOf addr = .data off) :
    alignedAddr addr = dataBase + off := by
  obtain ⟨hlo, -, ho⟩ := placeOfNat_data.1 (show placeOfNat (alignedAddr addr) = .data off from h)
  omega

/-! ## Words of the DATA region -/

theorem State.toNat_loadWord (s : State) (a : Nat) :
    (s.loadWord a).toNat = joinBytes (fun k => s.byte (a + k)) 4 := by
  rw [State.loadWord, BitVec.toNat_ofNat]
  exact Nat.mod_eq_of_lt (joinBytes_lt _ 4)

theorem State.loadWord_storeBytes_same (s : State) (a : Nat) (v : Word) :
    (s.storeBytes a v.toNat 4).loadWord a = v := by
  have hbytes : joinBytes (fun k => (s.storeBytes a v.toNat 4).byte (a + k)) 4 = joinBytes (byteOf v.toNat) 4 :=
    joinBytes_congr fun k hk => State.byte_storeBytes_in s a v.toNat 4 k hk
  apply BitVec.eq_of_toNat_eq
  rw [State.toNat_loadWord, hbytes, joinBytes_byteOf]
  exact Nat.mod_eq_of_lt v.isLt

theorem State.loadWord_storeBytes_disjoint (s : State) {a a' : Nat} (v : Nat) (h : a' + 4 ≤ a ∨ a + 4 ≤ a') :
    (s.storeBytes a v 4).loadWord a' = s.loadWord a' :=
  congrArg (BitVec.ofNat 32) (joinBytes_congr fun _ _ => State.byte_storeBytes_out s a v 4 (by omega))

/-- A bank write is seen by no read of another word (R92). -/
theorem hostRead_storeBytes_ne {addr : Word} {a : Nat} (h4 : a % 4 = 0) (h : alignedAddr addr ≠ a) (v : Nat)
    (s : State) : hostRead addr (s.storeBytes a v 4) = hostRead addr s := by
  unfold hostRead
  cases hp : placeOf addr with
  | csr off => rfl
  | node off => rfl
  | twiddle off => rfl
  | unmapped => rfl
  | data off =>
    have haligned := (alignedAddr_spec addr).1
    rw [alignedAddr_of_data hp] at h haligned
    simp only [dataRead, State.storeBytes_build, State.loadWord_storeBytes_disjoint s v (a := a) (a' := dataBase + off)
      (by omega)]

/-- Settles O44: the write stores four bytes at the word's address. -/
theorem dataWordsReadBack : Obligations.DataWordsReadBack := by
  intro s addr v off hp ho
  have hin : dataWrite off v s = s.storeBytes (dataBase + off) v.toNat 4 := dataWrite_in ho v
  refine ⟨s.storeBytes (dataBase + off) v.toNat 4, ?written, rfl, ?same, fun addr' hne => ?other⟩
  case written => rw [hostWrite, if_pos rfl, hp, ← hin]
  case same =>
    calc hostRead addr (s.storeBytes (dataBase + off) v.toNat 4)
        = dataRead off (s.storeBytes (dataBase + off) v.toNat 4) := by rw [hostRead, hp]
      _ = (s.storeBytes (dataBase + off) v.toNat 4).loadWord (dataBase + off) := if_pos ho
      _ = v := s.loadWord_storeBytes_same (dataBase + off) v
  case other =>
    rw [alignedAddr_of_data hp] at hne
    exact hostRead_storeBytes_ne (alignedAddr_of_data hp ▸ (alignedAddr_spec addr).1) hne v.toNat s

/-! ## The host words of a sample -/

theorem toNat_sampleWord (v : Sample) (half : Nat) :
    (sampleWord v half).toNat = v.toNat / 2 ^ (32 * half) % 2 ^ 32 := rfl

/-- A value is its high word before its low word (R88). -/
theorem append_sampleWord (v : Sample) : v = sampleWord v 1 ++ sampleWord v 0 := by
  have hv := v.isLt
  apply BitVec.eq_of_toNat_eq
  rw [BitVec.toNat_append, ← Nat.shiftLeft_add_eq_or_of_lt (sampleWord v 0).isLt, Nat.shiftLeft_eq, toNat_sampleWord,
    toNat_sampleWord]
  omega

/-- A value of at most 32 bits is its low word (R88). -/
theorem zero_append_sampleWord {v : Sample} (h : v.toNat < 2 ^ 32) : v = (0 : BitVec 32) ++ sampleWord v 0 := by
  have hhigh : sampleWord v 1 = 0 := congrArg (BitVec.ofNat 32) (Nat.div_eq_of_lt h)
  exact hhigh ▸ append_sampleWord v

/-- A sample is a whole number of host words (R9). -/
theorem wb_eq_hps (b : Build) : b.wb = 4 * b.hps := by
  unfold Build.wb Build.hps
  cases b.prec <;> rfl

/-- The words of the first m values of a window are aligned and lie below its m-th value (R84, R86). -/
theorem wordOffset_bounds {b : Build} {k m half : Nat} (hk : k < m) (hh : half < b.hps) :
    (k * b.wb + 4 * half) % 4 = 0 ∧ k * b.wb + 4 * half < m * b.wb := by
  have hwb := wb_eq_hps b
  have hnext : (k + 1) * b.wb ≤ m * b.wb := Nat.mul_le_mul_right _ hk
  rw [Nat.succ_mul] at hnext
  refine ⟨?_, by omega⟩
  rw [hwb, Nat.mul_left_comm]
  omega

/-- Entry j of row t of a table of n rows, counted row by row (R84, R86). -/
theorem rowIndex_lt {n len t j : Nat} (ht : t < n) (hj : j < len) : t * len + j < n * len := by
  have hnext : (t + 1) * len ≤ n * len := Nat.mul_le_mul_right _ ht
  rw [Nat.succ_mul] at hnext
  omega

theorem wb_le (b : Build) : b.wb ≤ 8 := by
  unfold Build.wb
  cases b.prec <;> decide

/-- A window that shows the host words of a value from an address on shows the value in the word order of R88. -/
theorem eq_words_of_hostRead {s : State} {v : Sample} {addr : Nat} (hfit : Fits s.build.prec v)
    (hword : ∀ half < s.build.hps, hostRead (BitVec.ofNat 32 (addr + 4 * half)) s = sampleWord v half) :
    (s.build.prec = .binary64 → v = hostRead (BitVec.ofNat 32 (addr + 4)) s ++ hostRead (BitVec.ofNat 32 addr) s) ∧
      (s.build.prec = .binary32 → v = (0 : BitVec 32) ++ hostRead (BitVec.ofNat 32 addr) s) := by
  refine ⟨fun hp => ?binary64, fun hp => ?binary32⟩
  case binary64 =>
    have hhps : s.build.hps = 2 := by rw [Build.hps, hp]; rfl
    have hlow : hostRead (BitVec.ofNat 32 addr) s = sampleWord v 0 := hword 0 (by omega)
    have hhigh : hostRead (BitVec.ofNat 32 (addr + 4)) s = sampleWord v 1 := hword 1 (by omega)
    rw [hlow, hhigh]
    exact append_sampleWord v
  case binary32 =>
    have hhps : s.build.hps = 1 := by rw [Build.hps, hp]; rfl
    have hlow : hostRead (BitVec.ofNat 32 addr) s = sampleWord v 0 := hword 0 (by omega)
    rw [hlow]
    rw [hp] at hfit
    exact zero_append_sampleWord hfit

/-! ## Bank samples in the DATA window -/

theorem joinBytes_add (f : Nat → Byte) (m n : Nat) :
    joinBytes f (m + n) = joinBytes f m + 256 ^ m * joinBytes (fun k => f (m + k)) n := by
  induction n with
  | zero => rfl
  | succ n ih =>
    rw [← Nat.add_assoc, joinBytes, joinBytes, ih]
    ring

/-- The bytes m to m+n-1 of a joined number (R87). -/
theorem joinBytes_part (f : Nat → Byte) (m n r : Nat) :
    joinBytes f (m + n + r) / 256 ^ m % 256 ^ n = joinBytes (fun k => f (m + k)) n := by
  rw [Nat.add_assoc, joinBytes_add, Nat.add_mul_div_left _ _ (by positivity), Nat.div_eq_of_lt (joinBytes_lt f m),
    Nat.zero_add, joinBytes_add, Nat.add_mul_mod_self_left, Nat.mod_eq_of_lt (joinBytes_lt _ n)]

theorem State.toNat_sample (s : State) (bank j : Nat) :
    (s.sample bank j).toNat = joinBytes (fun k => s.byte (sampleAddr s.build bank j + k)) s.build.wb := by
  have hpow : 256 ^ s.build.wb ≤ 256 ^ 8 := Nat.pow_le_pow_right (by decide) (wb_le s.build)
  exact Nat.mod_eq_of_lt ((joinBytes_lt _ _).trans_le hpow)

/-- The word at a multiple of 4 bytes into a sample is a host word of the sample (R84, R88). -/
theorem loadWord_sample (s : State) (bank j : Nat) {half : Nat} (hh : half < s.build.hps) :
    s.loadWord (sampleAddr s.build bank j + 4 * half) = sampleWord (s.sample bank j) half := by
  apply BitVec.eq_of_toNat_eq
  have hwb : s.build.wb = 4 * half + 4 + (s.build.wb - (4 * half + 4)) := by
    have := wb_eq_hps s.build
    omega
  have hpow : 2 ^ (32 * half) = 256 ^ (4 * half) := by rw [show 256 = 2 ^ 8 from rfl, ← pow_mul]; ring_nf
  rw [State.toNat_loadWord, toNat_sampleWord, State.toNat_sample, hwb, hpow, show 2 ^ 32 = 256 ^ 4 by norm_num,
    joinBytes_part]
  simp only [Nat.add_assoc]

/-- In a legal build the banks fit the DATA region (R7, R8, R82). -/
theorem dataPopulated_le {b : Build} (h : b.valid) : dataPopulated b ≤ dataSize := by
  obtain ⟨-, hlog, -, hbank, -⟩ := h
  have hn : b.nmax ≤ 2 ^ 20 := Nat.pow_le_pow_right (by decide) hlog
  exact Nat.mul_le_mul (Nat.mul_le_mul hbank hn) (wb_le b)

/-- The host reads the words of a bank sample from its address on, the least significant first (R84, R88). -/
theorem hostRead_sample {s : State} (hv : s.build.valid) {bank j half : Nat} (hb : bank < s.build.nbank)
    (hj : j < s.build.nmax) (hh : half < s.build.hps) :
    hostRead (BitVec.ofNat 32 (sampleAddr s.build bank j + 4 * half)) s = sampleWord (s.sample bank j) half := by
  have hoff : sampleAddr s.build bank j + 4 * half = dataBase + ((bank * s.build.nmax + j) * s.build.wb + 4 * half) :=
    Nat.add_assoc ..
  obtain ⟨h4, hin⟩ := wordOffset_bounds (rowIndex_lt hb hj) hh
  rw [← loadWord_sample s bank j hh, hoff, hostRead, placeOf_data h4 (hin.trans_le (dataPopulated_le hv))]
  exact if_pos hin

/-- Settles O45: the DATA window shows the host words of the sample from `sampleAddr` on. -/
theorem samplesInTheDataWindow : Obligations.SamplesInTheDataWindow := by
  intro s bank j hv hb hj addr haddr
  subst haddr
  exact eq_words_of_hostRead (s.sample_fits_prec bank j) fun half hh => hostRead_sample hv hb hj hh

/-! ## Twiddle entries in the TWIDDLE window -/

/-- In a legal build the ROM fits the TWIDDLE region (R7, R55, R82). -/
theorem romSize_le {b : Build} (h : b.valid) : 4 * romLength b * b.wb ≤ twiddleSize := by
  obtain ⟨-, hlog, -⟩ := h
  have hn : b.nmax ≤ 2 ^ 20 := Nat.pow_le_pow_right (by decide) hlog
  have hr : 4 * romLength b ≤ 4 * 2 ^ 17 := by unfold romLength; omega
  exact Nat.mul_le_mul hr (wb_le b)

/-- The words of entry j of table t in the TWIDDLE window (R86). -/
theorem twiddleRead_entry {b : Build} {t j half : Nat} (ht : t < 4) (hj : j < romLength b) (hh : half < b.hps) :
    twiddleRead ((t * romLength b + j) * b.wb + 4 * half) b = sampleWord (rom b t j) half := by
  have hwb := wb_eq_hps b
  have hentry : ((t * romLength b + j) * b.wb + 4 * half) / b.wb = t * romLength b + j := by
    rw [Nat.mul_comm, Nat.mul_add_div (wb_pos b), Nat.div_eq_of_lt (by omega : 4 * half < b.wb), Nat.add_zero]
  have hhalf : ((t * romLength b + j) * b.wb + 4 * half) / 4 % b.hps = half := by
    rw [hwb, Nat.mul_left_comm, ← Nat.mul_add, Nat.mul_div_cancel_left _ (by decide), Nat.mul_add_mod_self_right,
      Nat.mod_eq_of_lt hh]
  have hin : t * romLength b + j < 4 * romLength b := rowIndex_lt ht hj
  have htable : (t * romLength b + j) / romLength b = t := by
    rw [Nat.mul_comm, Nat.mul_add_div (by omega), Nat.div_eq_of_lt hj, Nat.add_zero]
  have hindex : (t * romLength b + j) % romLength b = j := by
    rw [Nat.mul_add_mod_self_right, Nat.mod_eq_of_lt hj]
  simp only [twiddleRead, hentry, hhalf, htable, hindex, if_pos hin]

/-- The host reads the words of a twiddle entry from its address on, the least significant first (R86). -/
theorem hostRead_rom {s : State} (hv : s.build.valid) {t j half : Nat} (ht : t < 4) (hj : j < romLength s.build)
    (hh : half < s.build.hps) :
    hostRead (BitVec.ofNat 32 (twiddleBase + (t * romLength s.build + j) * s.build.wb + 4 * half)) s =
      sampleWord (rom s.build t j) half := by
  obtain ⟨h4, hin⟩ := wordOffset_bounds (rowIndex_lt ht hj) hh
  rw [Nat.add_assoc, hostRead, placeOf_twiddle h4 (hin.trans_le (romSize_le hv))]
  exact twiddleRead_entry ht hj hh

/-- Settles O47: the TWIDDLE window shows the host words of the entry from its address on. -/
theorem twiddleWindow : Obligations.TwiddleWindow := by
  intro s t j hv ht hj addr haddr
  subst haddr
  exact eq_words_of_hostRead (rom_fits s.build t j) fun half hh => hostRead_rom hv ht hj hh

/-! ## Node descriptors in the NODE window -/

theorem NodeKind.number_le (k : NodeKind) : k.number ≤ 2 := by cases k <;> decide

/-- The first word of a descriptor, field by field (R85). -/
theorem nodeWord_zero_fields {d : Node} (h : d.lgs < 32) :
    bits (nodeWord d 0) 1 0 = d.kind.number ∧ bits (nodeWord d 0) 7 2 = 0 ∧ bits (nodeWord d 0) 12 8 = d.lgs ∧
      bits (nodeWord d 0) 31 13 = 0 := by
  have := d.kind.number_le
  simp only [nodeWord, bits, BitVec.toNat_ofNat]
  omega

/-- The host reads word w of descriptor n of the node table at its address (R85). -/
theorem hostRead_node {s : State} {n w : Nat} {d : Node} (hd : s.nodes[n]? = some d) (hn : n < 131072) (hw : w < 4) :
    hostRead (BitVec.ofNat 32 (nodeBase + 16 * n + 4 * w)) s = nodeWord d w := by
  rw [Nat.add_assoc, hostRead, placeOf_node (by omega) (by unfold nodeSize; omega)]
  simp only [nodeRead, show (16 * n + 4 * w) / 16 = n by omega, show (16 * n + 4 * w) / 4 % 4 = w by omega, hd]

/-- Settles O46: the descriptor's values fit the fields of its words. -/
theorem nodeWindow : Obligations.NodeWindow := by
  intro s n d hd hn hlgs hoff hstride htoff r hr
  have hword : ∀ w < 4, r w = nodeWord d w := fun w hw => (hr w).trans (hostRead_node hd hn hw)
  rw [hword 0 (by decide), hword 1 (by decide), hword 2 (by decide), hword 3 (by decide)]
  exact ⟨nodeWord_zero_fields hlgs, toNat_ofNat_word hoff, toNat_ofNat_word hstride, toNat_ofNat_word htoff⟩

/-! ## The stall rule -/

/-- The places that stall are the ones in the NODE and the DATA region (R82, R93). -/
theorem placeOfNat_stalls_iff (a : Nat) :
    (placeOfNat a).stalls = true ↔
      (nodeBase ≤ a ∧ a < nodeBase + nodeSize) ∨ (dataBase ≤ a ∧ a < dataBase + dataSize) := by
  unfold placeOfNat csrSize nodeBase nodeSize twiddleBase twiddleSize dataBase dataSize
  split
  · simp only [Place.stalls, Bool.false_eq_true, false_iff]
    omega
  · split
    · simp only [Place.stalls, true_iff]
      omega
    · split
      · simp only [Place.stalls, Bool.false_eq_true, false_iff]
        omega
      · split
        · simp only [Place.stalls, true_iff]
          omega
        · simp only [Place.stalls, Bool.false_eq_true, false_iff]
          omega

theorem complete_seq (s : State) : (complete s).seq = .idle := by
  cases hs : s.seq with
  | idle => rw [complete_idle hs, hs]
  | busy i a0 a1 left => rw [complete_busy hs]; exact finish_seq ..

/-- A completion takes no event of the host (R241). -/
theorem complete_bus (s : State) : (complete s).bus = s.bus := by
  cases hs : s.seq with
  | idle => rw [complete_idle hs]
  | busy i a0 a1 left => rw [complete_busy hs, finish_bus, effectOf_sameControl i a0 a1 s]

theorem step_of_stalls {s : State} {i : Instr} {a0 a1 : Word} {left : Nat} {op : HostOp} {rest : List HostOp}
    (hs : s.seq = .busy i a0 a1 left) (hb : s.bus = op :: rest) (hst : op.stalls = true) :
    step s = .next (complete s) := by
  simp [step, completionDue, hs, hb, hst]

theorem step_of_not_stalls {s : State} {i : Instr} {a0 a1 : Word} {left : Nat} {op : HostOp} {rest : List HostOp}
    (hs : s.seq = .busy i a0 a1 (left + 1)) (hb : s.bus = op :: rest) (hst : op.stalls = false) :
    step s = perform op (takeOp rest s) := by
  simp [step, completionDue_of_not_stalls hs hb hst, hb]

/-- Settles O48: the regions by `placeOfNat_stalls_iff`; a completion leaves an idle machine with the same
events to come. -/
theorem stallRule : Obligations.StallRule := by
  refine ⟨fun addr v be => ⟨?regions, rfl⟩, fun s i a0 a1 left op rest hs hb =>
    ⟨fun hst => ?waits, fun hst hleft => ?passes⟩⟩
  case regions =>
    refine (placeOfNat_stalls_iff (alignedAddr addr)).trans ?_
    obtain ⟨haligned, hle, hlt⟩ := alignedAddr_spec addr
    unfold nodeBase nodeSize dataBase dataSize
    omega
  case waits =>
    have hbus : (complete s).bus = op :: rest := (complete_bus s).trans hb
    exact ⟨step_of_stalls hs hb hst, hbus, step_of_idle (complete_seq s) hbus⟩
  case passes =>
    obtain ⟨n, rfl⟩ := Nat.exists_eq_succ_of_ne_zero hleft
    exact step_of_not_stalls hs hb hst

end Sys2Proof.Machine
end

section
/-!
PROOF. The decoder and the encoder of spec/30_encoding.md rules R112 to R118 are inverse to each other. The rows of the
opcode map have different OP values under masks that cover OP, so a word matches at most one row; the row of a command
gives it back from its word (`Laws.EncodesRow`), and the fields that a row reads are all of a matching word that the row
does not fix. A word that matches no row is rejected.
-/
namespace Sys2Proof.Machine

/-! ## The rows of the opcode map -/

theorem row_matches_iff (r : Row) (w : Word) : r.matches w = true ↔ w &&& r.mask = r.pattern := beq_iff_eq

theorem opcodeRows_mask_op : ∀ r ∈ opcodeRows, r.mask &&& 0xFF = 0xFF := by decide

theorem opcodeRows_op_pairwise : opcodeRows.Pairwise (fun r r' => bits r.pattern 7 0 ≠ bits r'.pattern 7 0) := by
  decide

/-- OP is the low byte of a word (R111). -/
theorem bits_op (w : Word) : bits w 7 0 = (w &&& 0xFF).toNat := by
  rw [bits, pow_zero, Nat.div_one, BitVec.toNat_and]
  exact (Nat.and_two_pow_sub_one_eq_mod w.toNat 8).symm

/-- A word has the OP of a row that it matches, for the row's mask covers OP (R116). -/
theorem op_of_matches {r : Row} {w : Word} (hr : r ∈ opcodeRows) (h : r.matches w = true) :
    bits r.pattern 7 0 = bits w 7 0 := by
  rw [row_matches_iff] at h
  rw [bits_op, bits_op, ← h, BitVec.and_assoc, opcodeRows_mask_op r hr]

/-- A row is known by its OP (R116). -/
theorem row_eq_of_op_eq {r r' : Row} (hr : r ∈ opcodeRows) (hr' : r' ∈ opcodeRows)
    (h : bits r.pattern 7 0 = bits r'.pattern 7 0) : r = r' :=
  List.inj_on_of_nodup_map (List.pairwise_map.2 opcodeRows_op_pairwise) hr hr' h

theorem row_eq_of_matches {r r' : Row} {w : Word} (hr : r ∈ opcodeRows) (hr' : r' ∈ opcodeRows)
    (h : r.matches w = true) (h' : r'.matches w = true) : r = r' :=
  row_eq_of_op_eq hr hr' ((op_of_matches hr h).trans (op_of_matches hr' h').symm)

/-! ## What decoding answers -/

/-- Decoding answers the command of a matching row, or an error where no row matches (R117). -/
theorem decode_cases (w : Word) :
    (∃ r ∈ opcodeRows, r.matches w = true ∧ decode w = .ok (r.build w)) ∨
      ((∀ r ∈ opcodeRows, r.matches w = false) ∧ ∃ e, decode w = .error e) := by
  unfold decode
  cases hf : opcodeRows.find? (fun r => r.matches w) with
  | some r => exact .inl ⟨r, List.mem_of_find?_eq_some hf, List.find?_some (p := fun r : Row => r.matches w) hf, rfl⟩
  | none => exact .inr ⟨fun r hr => Bool.eq_false_of_not_eq_true (List.find?_eq_none.1 hf r hr), _, rfl⟩

theorem decode_of_matches {r : Row} {w : Word} (hr : r ∈ opcodeRows) (h : r.matches w = true) :
    decode w = .ok (r.build w) := by
  obtain ⟨r', hr', h', hd⟩ | ⟨hnone, -⟩ := decode_cases w
  · rw [hd, row_eq_of_matches hr hr' h h']
  · simp [hnone r hr] at h

theorem decode_error_iff (w : Word) : (∃ e, decode w = .error e) ↔ ∀ r ∈ opcodeRows, r.matches w = false := by
  obtain ⟨r, hr, h, hd⟩ | ⟨hnone, he⟩ := decode_cases w
  · refine iff_of_false (by simp [hd]) fun hnone => ?_
    simp [hnone r hr] at h
  · exact iff_of_true he hnone

/-- Settles O3: two rows that a word matches have its OP, and rows with one OP are one row. -/
theorem decodingIsTheUniqueRow : Obligations.DecodingIsTheUniqueRow :=
  ⟨fun _ _ => decode_of_matches, decode_error_iff, opcodeRows_mask_op, opcodeRows_op_pairwise⟩

/-! ## Decoding an encoded command -/

/-- The word of every well-formed command matches the command's row, which gives the command back (R112 to R116). -/
theorem encodesRow (i : Instr) : Laws.EncodesRow.Statement i := by
  cases i with
  | nop => exact Laws.EncodesRow.nop
  | cfg lg => exact Laws.EncodesRow.cfg lg
  | link xr xi yr yi => exact Laws.EncodesRow.link xr xi yr yi
  | cfgl xr xi yr yi lg => exact Laws.EncodesRow.cfgl xr xi yr yi lg
  | fwd => exact Laws.EncodesRow.fwd
  | inv => exact Laws.EncodesRow.inv
  | fwdl xr xi yr yi => exact Laws.EncodesRow.fwdl xr xi yr yi
  | invl xr xi yr yi => exact Laws.EncodesRow.invl xr xi yr yi
  | prod xr xi yr yi sign => exact Laws.EncodesRow.prod xr xi yr yi sign
  | ocfg c kb => exact Laws.EncodesRow.ocfg c kb
  | ocfgs c m kb => exact Laws.EncodesRow.ocfgs c m kb
  | oflt c ib ob => exact Laws.EncodesRow.oflt c ib ob
  | ofls c ob => exact Laws.EncodesRow.ofls c ob
  | oini c => exact Laws.EncodesRow.oini c
  | oclr c => exact Laws.EncodesRow.oclr c

/-- Settles O1: the word matches the command's row, and decoding answers what a matching row builds. -/
theorem decodeOfEncode : Obligations.DecodeOfEncode := by
  intro i hwf
  obtain ⟨r, hr, -, hm, hb⟩ := encodesRow i hwf
  rw [decode_of_matches hr hm, hb]

theorem decode_of_encode_eq {i : Instr} {w : Word} (hwf : i.wf = true) (h : encode i = w) : decode w = .ok i :=
  h ▸ decodeOfEncode i hwf

/-- Settles O4: each word is the one that the formats of R112 to R114 give the command beside it. -/
theorem specWordsDecode : Obligations.SpecWordsDecode := by
  refine ⟨?_, ?_, ?_, ?_, ?_, ?_, ?_, ?_, ?_⟩
  all_goals exact decode_of_encode_eq rfl rfl

/-! ## A word from its fields -/

/-- A part of a bit range that is 0 is 0. -/
theorem bits_eq_zero_of_subrange {w : Word} {hi lo hi' lo' : Nat} (h : bits w hi lo = 0) (hlo : lo ≤ lo' := by decide)
    (hhi : hi' ≤ hi := by decide) : bits w hi' lo' = 0 := by
  have hzero : ∀ hi lo, bits 0 hi lo = 0 := fun hi lo => by simp [bits]
  rw [← hzero hi lo, bits_eq_iff] at h
  rw [← hzero hi' lo', bits_eq_iff]
  exact fun i h1 h2 => h i (hlo.trans h1) (h2.trans hhi)

theorem formatN_eq {w : Word} {op : Nat} (h : bits w 31 0 = op) : formatN op = w := by
  have hw : bits w 31 0 = w.toNat := by
    rw [bits, pow_zero, Nat.div_one]
    exact Nat.mod_eq_of_lt w.isLt
  rw [formatN, ← h, hw, BitVec.ofNat_toNat, BitVec.setWidth_eq]

/-- The fields of format T are the whole word, but for bits [31:30] (R113). -/
theorem formatT_eq {w : Word} {op a b c d lg s : Nat} (hop : bits w 7 0 = op) (ha : fieldA w = a) (hb : fieldB w = b)
    (hc : fieldC w = c) (hd : fieldD w = d) (hlg : fieldLG w = lg) (hs : bits w 29 29 = s) (h30 : bits w 31 30 = 0) :
    formatT op a b c d lg s = w := by
  have hw := w.isLt
  subst hop ha hb hc hd hlg hs
  apply BitVec.eq_of_toNat_eq
  simp only [formatT, fieldA, fieldB, fieldC, fieldD, fieldLG, bits, BitVec.toNat_ofNat] at h30 ⊢
  omega

/-- The fields of format O are the whole word, but for bits 11, 15 and [31:24] (R114). -/
theorem formatO_eq {w : Word} {op c m x y : Nat} (hop : bits w 7 0 = op) (hc : fieldCTX w = c) (h11 : bits w 11 11 = 0)
    (hm : fieldMCTX w = m) (h15 : bits w 15 15 = 0) (hx : fieldBK1 w = x) (hy : fieldBK2 w = y)
    (h24 : bits w 31 24 = 0) : formatO op c m x y = w := by
  have hw := w.isLt
  subst hop hc hm hx hy
  apply BitVec.eq_of_toNat_eq
  simp only [formatO, fieldCTX, fieldMCTX, fieldBK1, fieldBK2, bits, BitVec.toNat_ofNat] at h11 h15 h24 ⊢
  omega

theorem bits_sign_eq (w : Word) : bits w 29 29 = signBit (fieldS w) := by
  have hlt : bits w 29 29 < 2 := bits_lt w 29 29
  unfold fieldS
  split
  · assumption
  · change _ = 1
    omega

/-- A word with an OP and four banks alone is of format T (R113). -/
theorem formatT_banks_eq {w : Word} {op : Nat} (h : bits w 7 0 = op ∧ bits w 31 24 = 0) :
    formatT op (fieldA w) (fieldB w) (fieldC w) (fieldD w) 0 0 = w := by
  obtain ⟨hop, htop⟩ := h
  exact formatT_eq hop rfl rfl rfl rfl (bits_eq_zero_of_subrange htop) (bits_eq_zero_of_subrange htop)
    (bits_eq_zero_of_subrange htop)

/-- A word with an OP and a context alone is of format O (R114). -/
theorem formatO_context_eq {w : Word} {op : Nat} (h : bits w 7 0 = op ∧ bits w 31 11 = 0) :
    formatO op (fieldCTX w) 0 0 0 = w := by
  obtain ⟨hop, htop⟩ := h
  refine formatO_eq hop rfl ?_ ?_ ?_ ?_ ?_ ?_
  all_goals exact bits_eq_zero_of_subrange htop

/-! ## Encoding a decoded word -/

/-- A matching word is the word of the command that the row builds from it: the row reads what it does not fix (R116). -/
theorem encode_build_of_matches (w : Word) : ∀ r ∈ opcodeRows, r.matches w = true → encode (r.build w) = w := by
  simp only [opcodeRows, List.forall_mem_cons, List.not_mem_nil, false_imp_iff, implies_true, and_true, row_matches_iff,
    matches_nop, matches_cfg, matches_link, matches_cfgl, matches_fwd, matches_inv, matches_fwdl, matches_invl,
    matches_prod, matches_ocfg, matches_ocfgs, matches_oflt, matches_ofls, matches_oini, matches_oclr]
  refine ⟨formatN_eq, ?cfg, formatT_banks_eq, ?cfgl, formatN_eq, formatN_eq, formatT_banks_eq, formatT_banks_eq, ?prod,
    ?ocfg, ?ocfgs, ?oflt, ?ofls, formatO_context_eq, formatO_context_eq⟩
  case cfg =>
    rintro ⟨hop, hbanks, htop⟩
    exact formatT_eq hop (bits_eq_zero_of_subrange hbanks) (bits_eq_zero_of_subrange hbanks)
      (bits_eq_zero_of_subrange hbanks) (bits_eq_zero_of_subrange hbanks) rfl (bits_eq_zero_of_subrange htop)
      (bits_eq_zero_of_subrange htop)
  case cfgl =>
    rintro ⟨hop, htop⟩
    exact formatT_eq hop rfl rfl rfl rfl rfl (bits_eq_zero_of_subrange htop) (bits_eq_zero_of_subrange htop)
  case prod =>
    rintro ⟨hop, hlg, htop⟩
    exact formatT_eq hop rfl rfl rfl rfl hlg (bits_sign_eq w) htop
  case ocfg =>
    rintro ⟨hop, hmctx, htop⟩
    exact formatO_eq hop rfl (bits_eq_zero_of_subrange hmctx) (bits_eq_zero_of_subrange hmctx)
      (bits_eq_zero_of_subrange hmctx) rfl (bits_eq_zero_of_subrange htop) (bits_eq_zero_of_subrange htop)
  case ocfgs =>
    rintro ⟨hop, h11, h15, htop⟩
    exact formatO_eq hop rfl h11 rfl h15 rfl (bits_eq_zero_of_subrange htop) (bits_eq_zero_of_subrange htop)
  case oflt =>
    rintro ⟨hop, hmctx, htop⟩
    exact formatO_eq hop rfl (bits_eq_zero_of_subrange hmctx) (bits_eq_zero_of_subrange hmctx)
      (bits_eq_zero_of_subrange hmctx) rfl rfl htop
  case ofls =>
    rintro ⟨hop, hmid, htop⟩
    exact formatO_eq hop rfl (bits_eq_zero_of_subrange hmid) (bits_eq_zero_of_subrange hmid)
      (bits_eq_zero_of_subrange hmid) (bits_eq_zero_of_subrange hmid) rfl htop

/-- Settles O2: the decoded command is built by a matching row. -/
theorem encodeOfDecode : Obligations.EncodeOfDecode := by
  intro w i h
  refine ⟨wf_of_decode h, ?_⟩
  obtain ⟨r, hr, hm, hd⟩ | ⟨-, e, he⟩ := decode_cases w
  · have hi : r.build w = i := Except.ok.inj (hd.symm.trans h)
    rw [← hi, encode_build_of_matches w r hr hm]
  · simp [h] at he

/-! ## Words that do not decode -/

/-- A word whose OP no row has does not decode (R118). -/
theorem decode_error_of_unassigned_op {w : Word} (h : ∀ r ∈ opcodeRows, bits r.pattern 7 0 ≠ bits w 7 0) :
    ∃ e, decode w = .error e :=
  (decode_error_iff w).2 fun r hr => Bool.eq_false_of_not_eq_true fun hm => h r hr (op_of_matches hr hm)

/-- A word that does not match the one row with its OP does not decode (R117). -/
theorem decode_error_of_reserved_bits {w : Word} {r : Row} (hr : r ∈ opcodeRows)
    (hop : bits r.pattern 7 0 = bits w 7 0) (h : w &&& r.mask ≠ r.pattern) : ∃ e, decode w = .error e := by
  refine (decode_error_iff w).2 fun r' hr' => Bool.eq_false_of_not_eq_true fun hm => h ?_
  have hrow : r' = r := row_eq_of_op_eq hr' hr ((op_of_matches hr' hm).trans hop.symm)
  exact (row_matches_iff r w).1 (hrow ▸ hm)

/-- A word that does not decode is rejected by an idle sequencer (R243). -/
theorem present_of_illegal {w : Word} {e : Illegal} {s : State} (h : s.seq = .idle) (hd : decode w = .error e) :
    present w s = .next (reject w .illegalCmd s) := by
  simp [present, State.busy_of_idle h, hd]

/-- Settles O6: such a word matches no row; the write reaches CMD, whose write presents the word. -/
theorem illegalWordsAreRejected : Obligations.IllegalWordsAreRejected := by
  refine ⟨fun w => decode_error_of_unassigned_op, fun w r => decode_error_of_reserved_bits, ?rejected⟩
  intro s addr w rest e hs ha hb hd
  have hp : placeOf addr = .csr 0x00C := placeOf_of_aligned ha (by decide)
  have hi : (takeOp rest s).seq = .idle := by rw [takeOp_seq, hs]; rfl
  calc step s = hostWrite addr w 0b1111 (takeOp rest s) := step_of_idle hs hb
    _ = present w (takeOp rest s) := hostWrite_csr hp w _
    _ = .next (reject w .illegalCmd (takeOp rest s)) := present_of_illegal hi hd

end Sys2Proof.Machine
end

section
/-!
PROOF. The real values that the bits of the format stand for (spec/00_scope.md rules R9 and R13), and the value of a
rounded fixed-point magnitude: no other value of the format is nearer to the magnitude.
-/
namespace Sys2Proof.Machine

/-! ## A real number with a sign -/

/-- The real number x, negated where the sign g is set. -/
def signed (g : Bool) (x : ℝ) : ℝ := if g then -x else x

@[simp] theorem signed_false (x : ℝ) : signed false x = x := rfl

@[simp] theorem signed_true (x : ℝ) : signed true x = -x := rfl

@[simp] theorem signed_zero (g : Bool) : signed g 0 = 0 := by cases g <;> simp

@[simp] theorem signed_signed (g : Bool) (x : ℝ) : signed g (signed g x) = x := by cases g <;> simp

@[simp] theorem abs_signed (g : Bool) (x : ℝ) : |signed g x| = |x| := by cases g <;> simp

/-- A sign moves from one side of a distance to the other. -/
theorem abs_sub_signed (g : Bool) (x y : ℝ) : |x - signed g y| = |signed g x - y| := by
  cases g
  · rfl
  · rw [signed_true, signed_true, ← abs_neg]
    ring_nf

/-! ## The value of a magnitude -/

/-- The real number that a magnitude of the format stands for. -/
noncomputable def magValue (p : Prec) (n : Nat) : ℝ := magOfBits p n / 2 ^ quantumExp p

theorem magValue_nonneg (p : Prec) (n : Nat) : 0 ≤ magValue p n := by unfold magValue; positivity

theorem magValue_mono (p : Prec) : Monotone (magValue p) := fun _ _ h =>
  div_le_div_of_nonneg_right (Nat.cast_le.2 ((magOfBits_strictMono p).monotone h)) (by positivity)

@[simp] theorem magValue_zero (p : Prec) : magValue p 0 = 0 := by
  have h : magOfBits p 0 = 0 := if_pos (Nat.two_pow_pos _)
  rw [magValue, h, Nat.cast_zero, zero_div]

theorem valueOf_eq (p : Prec) (x : Sample) : valueOf p x = signed (fsign p x) (magValue p (fbits p x)) := by
  rw [valueOf, quanta, magValue, mag]
  cases fsign p x
  · simp
  · simp [neg_div]

theorem abs_valueOf (p : Prec) (x : Sample) : |valueOf p x| = magValue p (fbits p x) := by
  rw [valueOf_eq, abs_signed, abs_of_nonneg (magValue_nonneg p _)]

/-! ## The rounded fixed-point magnitude -/

/-- The bits (without sign) that the fixed-point magnitude n is rounded to. -/
def fixMag (p : Prec) (n : Nat) : Nat := roundMag p (n * 2 ^ quantumExp p) fixBits

@[simp] theorem fixMag_zero (p : Prec) : fixMag p 0 = 0 := by
  rw [fixMag, Nat.zero_mul]
  cases p <;> decide +kernel

theorem fbits_roundFix (p : Prec) (g : Bool) (n : Nat) : fbits p (roundFix p g n) = fixMag p n := by
  unfold roundFix
  split
  case isTrue h => rw [h, fixMag_zero]; exact Nat.zero_mod _
  case isFalse => exact fbits_pack p g (roundMag_lt_signWeight p _ _)

theorem valueOf_roundFix (p : Prec) (g : Bool) (n : Nat) :
    valueOf p (roundFix p g n) = signed g (magValue p (fixMag p n)) := by
  rw [valueOf_eq, fbits_roundFix]
  obtain rfl | hn := eq_or_ne n 0
  · simp
  · rw [roundFix, if_neg hn, fsign_pack p g (roundMag_lt_signWeight p _ _)]

/-- A fixed-point magnitude of at most 1 does not overflow. -/
theorem fixMag_lt_infBits (p : Prec) {n : Nat} (h : n ≤ 2 ^ fixBits) : fixMag p n < infBits p := by
  refine lt_of_le_of_ne (roundMag_le p _ _) fun he => ?_
  have hover := (roundMag_eq_infBits_iff p _ _).1 he
  have hone : 2 ^ quantumExp p < overflowAt p := by cases p <;> decide +kernel
  have hmag : n * 2 ^ quantumExp p < overflowAt p * 2 ^ fixBits :=
    calc n * 2 ^ quantumExp p ≤ 2 ^ fixBits * 2 ^ quantumExp p := Nat.mul_le_mul_right _ h
      _ < 2 ^ fixBits * overflowAt p := Nat.mul_lt_mul_of_pos_left hone (Nat.two_pow_pos _)
      _ = overflowAt p * 2 ^ fixBits := Nat.mul_comm _ _
  omega

/-- The real distance between a value of the format and a fixed-point magnitude. -/
theorem abs_magValue_sub (p : Prec) (n c : Nat) :
    |magValue p c - n / 2 ^ fixBits| =
      distance p (n * 2 ^ quantumExp p) fixBits c / (2 ^ quantumExp p * 2 ^ fixBits) := by
  have hd : (distance p (n * 2 ^ quantumExp p) fixBits c : ℝ) =
      |(magOfBits p c : ℝ) * 2 ^ fixBits - n * 2 ^ quantumExp p| := by
    rw [distance, Nat.cast_natAbs, Int.cast_abs]
    push_cast
    rfl
  have hq : (0 : ℝ) < 2 ^ quantumExp p := by positivity
  have hF : (0 : ℝ) < 2 ^ fixBits := by positivity
  rw [hd, magValue, div_sub_div _ _ hq.ne' hF.ne', abs_div, abs_of_pos (mul_pos hq hF), mul_comm (n : ℝ)]

/-- No finite magnitude of the format is nearer to a fixed-point magnitude of at most 1 than the rounded one. -/
theorem fixMag_nearest (p : Prec) {n c : Nat} (h : n ≤ 2 ^ fixBits) (hc : c < infBits p) :
    |magValue p (fixMag p n) - n / 2 ^ fixBits| ≤ |magValue p c - n / 2 ^ fixBits| := by
  obtain ⟨-, -, hnear⟩ := roundMag_roundsTo p (n * 2 ^ quantumExp p) fixBits
  rw [abs_magValue_sub, abs_magValue_sub]
  exact div_le_div_of_nonneg_right (Nat.cast_le.2 (hnear (fixMag_lt_infBits p h) c hc).1) (by positivity)

/-- And no finite value of either sign is. -/
theorem fixMag_nearest_value (p : Prec) (g : Bool) {n : Nat} {c : Sample} (h : n ≤ 2 ^ fixBits)
    (hc : fbits p c < infBits p) :
    |magValue p (fixMag p n) - n / 2 ^ fixBits| ≤ |signed g (valueOf p c) - n / 2 ^ fixBits| := by
  have hn : (0 : ℝ) ≤ n / 2 ^ fixBits := by positivity
  have habs := abs_abs_sub_abs_le (signed g (valueOf p c)) (n / 2 ^ fixBits)
  rw [abs_signed, abs_valueOf, abs_of_nonneg hn] at habs
  exact (fixMag_nearest p h hc).trans habs

/-! ## Magnitudes away from the rounding boundaries -/

/-- The fixed-point magnitude n lies between the middles from the bits r to the bits before and after them, and farther
from both middles than the 2^11 units of the last place by which `cosFix_error` and `sinFix_error` bound the error. -/
abbrev Isolated (p : Prec) (n r : Nat) : Prop :=
  (magOfBits p (r - 1) + magOfBits p r) * 2 ^ fixBits + 2 * 2 ^ 11 * 2 ^ quantumExp p < 2 * (n * 2 ^ quantumExp p) ∧
  2 * (n * 2 ^ quantumExp p) + 2 * 2 ^ 11 * 2 ^ quantumExp p < (magOfBits p r + magOfBits p (r + 1)) * 2 ^ fixBits

/-- A real number as near to an isolated magnitude as the error bound lies between the same middles. -/
theorem Isolated.between {p : Prec} {n r : Nat} {x : ℝ} (h : Isolated p n r)
    (hx : |(n : ℝ) / 2 ^ fixBits - x| ≤ 2 ^ 11 / 2 ^ fixBits) :
    magValue p (r - 1) + magValue p r < 2 * x ∧ 2 * x < magValue p r + magValue p (r + 1) := by
  obtain ⟨hlo, hhi⟩ := h
  have hq : (0 : ℝ) < 2 ^ quantumExp p := by positivity
  have hF : (0 : ℝ) < 2 ^ fixBits := by positivity
  have hsum : ∀ a b : Nat, magValue p a + magValue p b =
      ((magOfBits p a + magOfBits p b : Nat) : ℝ) * 2 ^ fixBits / (2 ^ quantumExp p * 2 ^ fixBits) := fun a b => by
    rw [magValue, magValue, mul_div_mul_right _ _ hF.ne', Nat.cast_add, add_div]
  rw [div_sub' hF.ne', abs_div, abs_of_pos hF, div_le_div_iff_of_pos_right hF, abs_le] at hx
  obtain ⟨hxhi, hxlo⟩ := hx
  have hxlo' := mul_le_mul_of_nonneg_right hxlo hq.le
  have hxhi' := mul_le_mul_of_nonneg_right hxhi hq.le
  have hlo' := Nat.cast_lt (α := ℝ).2 hlo
  have hhi' := Nat.cast_lt (α := ℝ).2 hhi
  rw [hsum, hsum, div_lt_iff₀ (mul_pos hq hF), lt_div_iff₀ (mul_pos hq hF)]
  push_cast at hlo' hhi' ⊢
  constructor <;> linarith

/-- Of two numbers, the one on whose side of their middle x lies is nearer to x. -/
theorem abs_sub_lt_of_middle_lt {m v x : ℝ} (hv : v < m) (h : v + m < 2 * x) : |m - x| < |v - x| := by
  rw [abs_of_neg (by linarith : v - x < 0), abs_lt]
  constructor <;> linarith

theorem abs_sub_lt_of_lt_middle {m v x : ℝ} (hv : m < v) (h : 2 * x < m + v) : |m - x| < |v - x| := by
  rw [abs_of_pos (by linarith : 0 < v - x), abs_lt]
  constructor <;> linarith

/-- Another value than that of r, with either sign, is at most the one before it or at least the one after it. -/
theorem value_le_or_ge {p : Prec} {r c : Nat} {v : ℝ} (hv : |v| = magValue p c) (hne : v ≠ magValue p r) :
    v ≤ magValue p (r - 1) ∨ magValue p (r + 1) ≤ v := by
  obtain hneg | hpos := le_total v 0
  · exact .inl (hneg.trans (magValue_nonneg p _))
  · rw [abs_of_nonneg hpos] at hv
    subst hv
    obtain hc | rfl | hc := Nat.lt_trichotomy c r
    · exact .inl (magValue_mono p (Nat.le_sub_one_of_lt hc))
    · exact absurd rfl hne
    · exact .inr (magValue_mono p hc)

/-- A value is nearer to the real numbers between its middles than any other value, with either sign. -/
theorem abs_magValue_sub_lt {p : Prec} {r c : Nat} {x v : ℝ}
    (hlo : magValue p (r - 1) + magValue p r < 2 * x) (hhi : 2 * x < magValue p r + magValue p (r + 1))
    (hv : |v| = magValue p c) (hne : v ≠ magValue p r) : |magValue p r - x| < |v - x| := by
  obtain hle | hge := value_le_or_ge hv hne
  · have hm : v ≤ magValue p r := hle.trans (magValue_mono p (Nat.sub_le r 1))
    exact abs_sub_lt_of_middle_lt (lt_of_le_of_ne hm hne) (by linarith)
  · have hm : magValue p r ≤ v := (magValue_mono p (Nat.le_succ r)).trans hge
    exact abs_sub_lt_of_lt_middle (lt_of_le_of_ne hm hne.symm) (by linarith)

end Sys2Proof.Machine
end

section
/-!
PROOF. The entries of the twiddle ROM (spec/40_twiddle_rom.md rules R141 and R142). Every entry is the rounded
fixed-point cosine or sine of at most an eighth of a turn, with a sign, which the symmetries of an eighth turn give
(`rom_isEntry`). Up to LOG2N_MAX = 10 these are 258 fixed-point values, none of which is as near to a rounding boundary
as its error; only the sine of 0 is, and it is exact.
-/
namespace Sys2Proof.Machine

/-! ## An entry depends on the fraction of a turn -/

theorem angleFix_scale (l r k : Nat) : angleFix (l + k) (r * 2 ^ k) = angleFix l r := by
  rw [angleFix, angleFix, pow_add, ← Nat.mul_assoc, Nat.mul_div_mul_right _ _ (Nat.two_pow_pos k)]

theorem cosFix_scale (l r k : Nat) : cosFix (l + k) (r * 2 ^ k) = cosFix l r := by
  rw [cosFix, cosFix, angleFix_scale]

theorem sinFix_scale (l r k : Nat) : sinFix (l + k) (r * 2 ^ k) = sinFix l r := by
  rw [sinFix, sinFix, angleFix_scale]

/-- The comparisons and differences of `cosTurn` and `negSinTurn` scale as well. -/
theorem mul_two_pow_le_iff (a r l k : Nat) : a * (r * 2 ^ k) ≤ 2 ^ (l + k) ↔ a * r ≤ 2 ^ l := by
  rw [← Nat.mul_assoc, pow_add, Nat.mul_le_mul_right_iff (Nat.two_pow_pos k)]

theorem pow_sub_mul_two_pow (r l k : Nat) : 2 ^ (l + k) - 4 * (r * 2 ^ k) = (2 ^ l - 4 * r) * 2 ^ k := by
  rw [Nat.sub_mul, pow_add, Nat.mul_assoc]

theorem mul_two_pow_sub_pow (r l k : Nat) : 4 * (r * 2 ^ k) - 2 ^ (l + k) = (4 * r - 2 ^ l) * 2 ^ k := by
  rw [Nat.sub_mul, pow_add, Nat.mul_assoc]

theorem cosTurn_scale (p : Prec) (l r k : Nat) : cosTurn p (l + k) (r * 2 ^ k) = cosTurn p l r := by
  simp only [cosTurn, mul_two_pow_le_iff, pow_sub_mul_two_pow, mul_two_pow_sub_pow, Nat.add_right_comm l k 2,
    cosFix_scale, sinFix_scale]

theorem negSinTurn_scale (p : Prec) (l r k : Nat) : negSinTurn p (l + k) (r * 2 ^ k) = negSinTurn p l r := by
  simp only [negSinTurn, mul_two_pow_le_iff, pow_sub_mul_two_pow, mul_two_pow_sub_pow, Nat.add_right_comm l k 2,
    cosFix_scale, sinFix_scale]

/-- The table for size 2^lg holds what the ROM of a build with LOG2N_MAX = lg holds (R142). -/
theorem tab_eq_rom (b : Build) (t i : Nat) {lg : Nat} (h : lg ≤ b.log2nMax) :
    tab b t lg i = rom { b with log2nMax := lg } t i := by
  obtain ⟨k, hk⟩ := Nat.exists_eq_add_of_le h
  rw [tab, hk, Nat.add_sub_cancel_left]
  unfold rom
  rw [hk]
  split
  case h_1 => exact cosTurn_scale ..
  case h_2 => rw [← Nat.mul_assoc]; exact cosTurn_scale ..
  case h_3 => exact negSinTurn_scale ..
  case h_4 => rw [← Nat.mul_assoc]; exact negSinTurn_scale ..

/-- The ROM depends on no build parameter but PREC and LOG2N_MAX. -/
theorem rom_congr {b b' : Build} (hp : b.prec = b'.prec) (lg t j : Nat) :
    rom { b with log2nMax := lg } t j = rom { b' with log2nMax := lg } t j := by
  unfold rom
  rw [hp]

/-! ## The angle 0 -/

theorem cosFix_at_zero (l : Nat) : cosFix l 0 = 2 ^ fixBits := by
  rw [cosFix, angleFix, Nat.mul_zero, Nat.zero_div]
  decide +kernel

theorem sinFix_at_zero (l : Nat) : sinFix l 0 = 0 := by
  rw [sinFix, angleFix, Nat.mul_zero, Nat.zero_div]
  decide +kernel

/-- The bits of 1.0 (R141). -/
theorem roundFix_one (p : Prec) : roundFix p false (2 ^ fixBits) =
    match p with | .binary32 => (0x3F800000 : Sample) | .binary64 => 0x3FF0000000000000 := by
  cases p <;> decide +kernel

theorem cosTurn_at_zero (p : Prec) (l : Nat) : cosTurn p l 0 = roundFix p false (2 ^ fixBits) := by
  rw [cosTurn, if_pos (Nat.zero_le _), cosFix_at_zero]

theorem negSinTurn_at_zero (p : Prec) (l : Nat) : negSinTurn p l 0 = plusZero := by
  rw [negSinTurn, if_pos (Nat.zero_le _), sinFix_at_zero]
  rfl

/-! ## Exact angles -/

/-- The angle of r/2^l of a turn. -/
noncomputable def turn (l r : Nat) : ℝ := 2 * Real.pi * r / 2 ^ l

theorem turn_before_quarter {m r s : Nat} (h : r + s = 2 ^ m) : turn (m + 2) r = Real.pi / 2 - turn (m + 2) s := by
  have hr : (r : ℝ) = 2 ^ m - s := by rw [eq_sub_iff_add_eq]; exact_mod_cast h
  rw [turn, turn, hr, pow_add]
  field_simp

theorem turn_after_quarter {m r s : Nat} (h : r = 2 ^ m + s) : turn (m + 2) r = turn (m + 2) s + Real.pi / 2 := by
  rw [turn, turn, h, pow_add]
  push_cast
  field_simp
  ring

/-! ## Every entry is a rounded fixed-point value -/

/-- The fixed-point magnitude and the exact value of the cosine or sine of an angle of at most an eighth of a turn, in
steps of 2^-l turns. -/
inductive FixValue (l : Nat) : Nat → ℝ → Prop
  | cos (r : Nat) : 8 * r ≤ 2 ^ l → FixValue l (cosFix l r) (Real.cos (turn l r))
  | sin (r : Nat) : 8 * r ≤ 2 ^ l → FixValue l (sinFix l r) (Real.sin (turn l r))

theorem FixValue.error {l n : Nat} {x : ℝ} (h : FixValue l n x) :
    |(n : ℝ) / 2 ^ fixBits - x| ≤ 2 ^ 11 / 2 ^ fixBits := by
  cases h with
  | cos r hr => exact cosFix_error l r hr
  | sin r hr => exact sinFix_error l r hr

theorem FixValue.le_one {l n : Nat} {x : ℝ} (h : FixValue l n x) : n ≤ 2 ^ fixBits := by
  cases h with
  | cos r hr => exact taylor_le ..
  | sin r hr => exact (taylor_le ..).trans (angleFix_le l r hr)

theorem FixValue.scale {l n : Nat} {x : ℝ} (h : FixValue l n x) (k : Nat) : FixValue (l + k) n x := by
  have hturn : ∀ r, turn l r = turn (l + k) (r * 2 ^ k) := fun r => by
    rw [turn, turn, Nat.cast_mul, Nat.cast_pow, Nat.cast_two, ← mul_assoc, pow_add,
      mul_div_mul_right _ _ (pow_ne_zero k two_ne_zero)]
  cases h with
  | cos r hr =>
    rw [hturn, ← cosFix_scale l r k]
    exact .cos _ ((mul_two_pow_le_iff 8 r l k).2 hr)
  | sin r hr =>
    rw [hturn, ← sinFix_scale l r k]
    exact .sin _ ((mul_two_pow_le_iff 8 r l k).2 hr)

/-- The entry v for the exact value e is rounded from the fixed-point value of e, with the sign of e. -/
def IsEntry (p : Prec) (l : Nat) (v : Sample) (e : ℝ) : Prop :=
  ∃ g n x, FixValue l n x ∧ v = roundFix p g n ∧ e = signed g x

/-- The later branches of `cosTurn` and `negSinTurn` evaluate in steps a quarter as large. -/
theorem sinFix_quarter (m s : Nat) : sinFix (m + 2 + 2) (4 * s) = sinFix (m + 2) s := by
  rw [Nat.mul_comm]; exact sinFix_scale (m + 2) s 2

theorem cosFix_quarter (m s : Nat) : cosFix (m + 2 + 2) (4 * s) = cosFix (m + 2) s := by
  rw [Nat.mul_comm]; exact cosFix_scale (m + 2) s 2

/-- Where in the first three eighths of a turn an angle lies, which are the branches of `cosTurn` and `negSinTurn`: it
is at most an eighth of a turn, or at most an eighth of a turn before or after a quarter turn. -/
theorem turn_cases {m r : Nat} (h : 8 * r ≤ 3 * 2 ^ (m + 2)) :
    8 * r ≤ 2 ^ (m + 2) ∨
    (¬ 8 * r ≤ 2 ^ (m + 2) ∧ 4 * r ≤ 2 ^ (m + 2) ∧
      ∃ s, 8 * s ≤ 2 ^ (m + 2) ∧ r + s = 2 ^ m ∧ 2 ^ (m + 2) - 4 * r = 4 * s) ∨
    (¬ 8 * r ≤ 2 ^ (m + 2) ∧ ¬ 4 * r ≤ 2 ^ (m + 2) ∧
      ∃ s, 8 * s ≤ 2 ^ (m + 2) ∧ r = 2 ^ m + s ∧ 4 * r - 2 ^ (m + 2) = 4 * s) := by
  have hpow : 2 ^ (m + 2) = 4 * 2 ^ m := by ring
  rw [hpow] at h ⊢
  by_cases h1 : 8 * r ≤ 4 * 2 ^ m
  · exact .inl h1
  by_cases h2 : 4 * r ≤ 4 * 2 ^ m
  · exact .inr (.inl ⟨h1, h2, 2 ^ m - r, by omega, by omega, by omega⟩)
  · exact .inr (.inr ⟨h1, h2, r - 2 ^ m, by omega, by omega, by omega⟩)

theorem cosTurn_isEntry (p : Prec) {l r : Nat} (hl : 2 ≤ l) (h : 8 * r ≤ 3 * 2 ^ l) :
    IsEntry p l (cosTurn p l r) (Real.cos (turn l r)) := by
  obtain ⟨m, rfl⟩ := Nat.exists_eq_add_of_le' hl
  unfold cosTurn
  obtain h1 | ⟨h1, h2, s, hs, hrs, heq⟩ | ⟨h1, h2, s, hs, hrs, heq⟩ := turn_cases h
  · rw [if_pos h1]
    exact ⟨false, _, _, .cos r h1, rfl, rfl⟩
  · rw [if_neg h1, if_pos h2, heq, sinFix_quarter]
    exact ⟨false, _, _, .sin s hs, rfl, by rw [turn_before_quarter hrs, Real.cos_pi_div_two_sub, signed_false]⟩
  · rw [if_neg h1, if_neg h2, heq, sinFix_quarter]
    exact ⟨true, _, _, .sin s hs, rfl, by rw [turn_after_quarter hrs, Real.cos_add_pi_div_two, signed_true]⟩

theorem negSinTurn_isEntry (p : Prec) {l r : Nat} (hl : 2 ≤ l) (h : 8 * r ≤ 3 * 2 ^ l) :
    IsEntry p l (negSinTurn p l r) (-Real.sin (turn l r)) := by
  obtain ⟨m, rfl⟩ := Nat.exists_eq_add_of_le' hl
  unfold negSinTurn
  obtain h1 | ⟨h1, h2, s, hs, hrs, heq⟩ | ⟨h1, h2, s, hs, hrs, heq⟩ := turn_cases h
  · rw [if_pos h1]
    exact ⟨true, _, _, .sin r h1, rfl, rfl⟩
  · rw [if_neg h1, if_pos h2, heq, cosFix_quarter]
    exact ⟨true, _, _, .cos s hs, rfl, by rw [turn_before_quarter hrs, Real.sin_pi_div_two_sub, signed_true]⟩
  · rw [if_neg h1, if_neg h2, heq, cosFix_quarter]
    exact ⟨true, _, _, .cos s hs, rfl, by rw [turn_after_quarter hrs, Real.sin_add_pi_div_two, signed_true]⟩

/-- The exact values of R141 as cosines and sines of fractions of a turn. -/
theorem turn_eq (b : Build) (j : Nat) : 2 * Real.pi * j / b.nmax = turn b.log2nMax j := by
  rw [turn, Build.nmax]
  push_cast
  rfl

theorem turn_three_mul (b : Build) (j : Nat) : 3 * (2 * Real.pi * j / b.nmax) = turn b.log2nMax (3 * j) := by
  rw [← turn_eq]
  push_cast
  ring

/-- Every entry of the ROM, in every build of at least the size 4. -/
theorem rom_isEntry {b : Build} (hb : 2 ≤ b.log2nMax) (t : Nat) {j : Nat} (hj : j < b.nmax / 8) :
    IsEntry b.prec b.log2nMax (rom b t j) (exactTwiddle b t j) := by
  have h1 : 8 * j ≤ 3 * 2 ^ b.log2nMax := by unfold Build.nmax at hj; omega
  have h3 : 8 * (3 * j) ≤ 3 * 2 ^ b.log2nMax := by unfold Build.nmax at hj; omega
  match t with
  | 0 =>
    have h := cosTurn_isEntry b.prec hb h1
    rwa [← turn_eq] at h
  | 1 =>
    have h := cosTurn_isEntry b.prec hb h3
    rwa [← turn_three_mul] at h
  | 2 =>
    have h := negSinTurn_isEntry b.prec hb h1
    rwa [← turn_eq] at h
  | t + 3 =>
    have h := negSinTurn_isEntry b.prec hb h3
    rwa [← turn_three_mul] at h

theorem IsEntry.scale {p : Prec} {l : Nat} {v : Sample} {e : ℝ} (h : IsEntry p l v e) (k : Nat) :
    IsEntry p (l + k) v e := by
  obtain ⟨g, n, x, hfix, hv, he⟩ := h
  exact ⟨g, n, x, hfix.scale k, hv, he⟩

/-! ## Entries are finite and nearest -/

theorem IsEntry.finite {p : Prec} {l : Nat} {v : Sample} {e : ℝ} (h : IsEntry p l v e) : fbits p v < infBits p := by
  obtain ⟨g, n, x, hfix, rfl, -⟩ := h
  rw [fbits_roundFix]
  exact fixMag_lt_infBits p hfix.le_one

/-- The distances to an exact value are those to its magnitude. -/
theorem abs_valueOf_roundFix_sub (p : Prec) (g : Bool) (n : Nat) (x : ℝ) :
    |valueOf p (roundFix p g n) - signed g x| = |magValue p (fixMag p n) - x| := by
  rw [abs_sub_signed, valueOf_roundFix, signed_signed]

/-- No finite value is nearer to the exact one than the entry by more than twice the fixed-point error. -/
theorem IsEntry.nearest {p : Prec} {l : Nat} {v c : Sample} {e : ℝ} (h : IsEntry p l v e)
    (hc : fbits p c < infBits p) : |valueOf p v - e| ≤ |valueOf p c - e| + 2 * (2 ^ 11 / 2 ^ fixBits) := by
  obtain ⟨g, n, x, hfix, rfl, rfl⟩ := h
  rw [abs_valueOf_roundFix_sub, abs_sub_signed]
  have herr := hfix.error
  calc |magValue p (fixMag p n) - x|
      ≤ |magValue p (fixMag p n) - n / 2 ^ fixBits| + |n / 2 ^ fixBits - x| := abs_sub_le _ _ _
    _ ≤ |signed g (valueOf p c) - n / 2 ^ fixBits| + |n / 2 ^ fixBits - x| := by
        gcongr ?_ + _; exact fixMag_nearest_value p g hfix.le_one hc
    _ ≤ |signed g (valueOf p c) - x| + |x - n / 2 ^ fixBits| + |n / 2 ^ fixBits - x| := by
        gcongr ?_ + _; exact abs_sub_le _ _ _
    _ ≤ |signed g (valueOf p c) - x| + 2 * (2 ^ 11 / 2 ^ fixBits) := by rw [abs_sub_comm x]; linarith

/-! ## Up to LOG2N_MAX = 10 the entry is the one nearest value -/

/-- None of the cosines of at most an eighth of a turn in steps of 1/1024 turn is near a rounding boundary. -/
theorem cosFix_isolated : ∀ r < 129, ∀ p ∈ [Prec.binary32, .binary64],
    Isolated p (cosFix 10 r) (fixMag p (cosFix 10 r)) := by
  decide +kernel

/-- And none of the sines, but for the sine of 0. -/
theorem sinFix_isolated : ∀ r < 128, ∀ p ∈ [Prec.binary32, .binary64],
    Isolated p (sinFix 10 (r + 1)) (fixMag p (sinFix 10 (r + 1))) := by
  decide +kernel

theorem prec_mem (p : Prec) : p ∈ [Prec.binary32, .binary64] := by cases p <;> decide

theorem FixValue.isolated {n : Nat} {x : ℝ} (h : FixValue 10 n x) (p : Prec) :
    n = 0 ∧ x = 0 ∨ Isolated p n (fixMag p n) := by
  cases h with
  | cos r hr => exact .inr (cosFix_isolated r (by omega) p (prec_mem p))
  | sin r hr =>
    cases r with
    | zero => exact .inl ⟨sinFix_at_zero 10, by simp [turn]⟩
    | succ r => exact .inr (sinFix_isolated r (by omega) p (prec_mem p))

theorem IsEntry.nearest_unique {p : Prec} {v c : Sample} {e : ℝ} (h : IsEntry p 10 v e)
    (hne : valueOf p c ≠ valueOf p v) : |valueOf p v - e| < |valueOf p c - e| := by
  obtain ⟨g, n, x, hfix, rfl, rfl⟩ := h
  rw [valueOf_roundFix] at hne
  obtain ⟨rfl, rfl⟩ | hiso := hfix.isolated p
  case inl => simpa [valueOf_roundFix] using hne
  case inr =>
    obtain ⟨hlo, hhi⟩ := hiso.between hfix.error
    have hne' : signed g (valueOf p c) ≠ magValue p (fixMag p n) := fun he => hne (by rw [← he, signed_signed])
    rw [abs_valueOf_roundFix_sub, abs_sub_signed]
    exact abs_magValue_sub_lt hlo hhi ((abs_signed g _).trans (abs_valueOf p c)) hne'

/-- Settles O58: an entry is a rounded fixed-point value, whose error is below 2^-245, and up to LOG2N_MAX = 10 it is
one of those whose distance to a rounding boundary is larger. -/
theorem twiddleTables : Obligations.TwiddleTables := by
  refine ⟨fun b hb => ⟨?first, fun t _ j hj => ?entries⟩, ?independent⟩
  case first =>
    rintro one rfl
    have hcos : cosTurn b.prec b.log2nMax 0 = _ := (cosTurn_at_zero ..).trans (roundFix_one b.prec)
    exact ⟨hcos, hcos, negSinTurn_at_zero .., negSinTurn_at_zero ..⟩
  case entries =>
    obtain ⟨hlog, -⟩ := hb
    have hentry := rom_isEntry (by omega) t hj
    refine ⟨hentry.finite, fun c hc => ⟨(hentry.nearest hc).trans ?_, fun h10 hne => ?_⟩⟩
    · gcongr
      norm_num [fixBits]
    · obtain ⟨k, hk⟩ := Nat.exists_eq_add_of_le h10
      exact IsEntry.nearest_unique (hk ▸ hentry.scale k) hne
  case independent =>
    intro b b' t lg i hp hl hl' _
    rw [tab_eq_rom b t i hl, tab_eq_rom b' t i hl', rom_congr hp]

end Sys2Proof.Machine
end

section
/-!
PROOF. The node table (spec/41_kernels_and_nodes.md rules R164 to R166): its length, the arguments of its descriptors,
the subtrees that follow a GENERIC descriptor, and the output ranges of its leaves. Every fact is proved for the subtree
of an arbitrary node, along the recursion of `buildTable`.
-/
namespace Sys2Proof.Machine

/-! ## The recursion of the table -/

/-- The induction over the subtrees of a table: two kinds of leaf, and a GENERIC node with its three children (R164). -/
theorem subtreeInduction {P : (lg off st t : Nat) → 3 ≤ lg → Prop}
    (base8 : ∀ off st t, P 3 off st t (by decide)) (base16 : ∀ off st t, P 4 off st t (by decide))
    (generic : ∀ lg off st t, P (lg + 4) off (2 * st) t (by omega) →
      P (lg + 3) (off + st) (4 * st) (t + 2 ^ (lg + 5) / 2) (by omega) →
      P (lg + 3) (off + 3 * st) (4 * st) (t + 3 * 2 ^ (lg + 5) / 4) (by omega) → P (lg + 5) off st t (by omega))
    (lg off st t : Nat) (h : 3 ≤ lg) : P lg off st t h := by
  induction lg, off, st, t using buildTable.induct with
  | case1 lg off st t ihu ih1 ih3 => exact generic lg off st t (ihu _) (ih1 _) (ih3 _)
  | case2 off st t => exact base16 off st t
  | case3 off st t => exact base8 off st t
  | case4 => omega
  | case5 => omega
  | case6 => omega

/-- The subtrees of the three children of a GENERIC node, in the order in which they stand in the table (R164). -/
def Node.children (d : Node) : List Node :=
  buildTable (d.lgs - 1) d.seqoff (2 * d.seqstride) d.toff ++
    (buildTable (d.lgs - 2) (d.seqoff + d.seqstride) (4 * d.seqstride) (d.toff + 2 ^ d.lgs / 2) ++
      buildTable (d.lgs - 2) (d.seqoff + 3 * d.seqstride) (4 * d.seqstride) (d.toff + 3 * 2 ^ d.lgs / 4))

theorem Node.children_generic (lg off st t : Nat) :
    (⟨.generic, lg + 5, off, st, t⟩ : Node).children =
      buildTable (lg + 4) off (2 * st) t ++
        (buildTable (lg + 3) (off + st) (4 * st) (t + 2 ^ (lg + 5) / 2) ++
          buildTable (lg + 3) (off + 3 * st) (4 * st) (t + 3 * 2 ^ (lg + 5) / 4)) := rfl

theorem nodeKind_generic (lg : Nat) : nodeKind (lg + 5) = .generic := by simp [nodeKind]

theorem buildTable_three (off st t : Nat) : buildTable 3 off st t = [⟨.base8, 3, off, st, t⟩] := rfl

theorem buildTable_four (off st t : Nat) : buildTable 4 off st t = [⟨.base16, 4, off, st, t⟩] := rfl

theorem buildTable_generic (lg off st t : Nat) :
    buildTable (lg + 5) off st t =
      ⟨.generic, lg + 5, off, st, t⟩ :: (⟨.generic, lg + 5, off, st, t⟩ : Node).children := by
  rw [buildTable, nodeKind_generic, Node.children_generic]

theorem buildTable_root {lg : Nat} (h : 3 ≤ lg) (off st t : Nat) :
    ∃ rest, buildTable lg off st t = ⟨nodeKind lg, lg, off, st, t⟩ :: rest := by
  induction lg, off, st, t, h using subtreeInduction with
  | base8 off st t => exact ⟨[], rfl⟩
  | base16 off st t => exact ⟨[], rfl⟩
  | generic lg off st t => exact ⟨_, rfl⟩

/-- The sizes of a GENERIC node and its children, in eighths of the quarter-size child. -/
theorem subtree_sizes (lg : Nat) :
    2 ^ (lg + 5) = 32 * 2 ^ lg ∧ 2 ^ (lg + 4) = 16 * 2 ^ lg ∧ 2 ^ (lg + 3) = 8 * 2 ^ lg :=
  ⟨by ring, by ring, by ring⟩

/-! ## The number of nodes -/

/-- The closed form of the number of nodes, which does not depend on the place of the subtree (R165). -/
theorem buildTable_length (lg off st t : Nat) : (buildTable (lg + 3) off st t).length = 2 ^ lg - lg % 2 := by
  induction lg using Nat.twoStepInduction generalizing off st t with
  | zero => rfl
  | one => rfl
  | more lg ih ih' =>
    have hpos := Nat.two_pow_pos lg
    have h1 : 2 ^ (lg + 1) = 2 * 2 ^ lg := by ring
    have h2 : 2 ^ (lg + 2) = 4 * 2 ^ lg := by ring
    rw [buildTable_generic, Node.children_generic, List.length_cons, List.length_append, List.length_append,
      show lg + 4 = lg + 1 + 3 by rfl, ih', ih, ih]
    omega

/-- Settles O51: each clause is the closed form at a size. -/
theorem nodeCount : Obligations.NodeCount := by
  intro count hcount
  have hform : ∀ lg, count (lg + 3) = 2 ^ lg - lg % 2 := fun lg => by rw [hcount, buildTable_length]
  refine ⟨hform 0, hform 1, fun lg hlg => ?recurrence, fun lg hlg => ?closed, ?values, hform 17⟩
  case recurrence =>
    obtain ⟨lg, rfl⟩ := Nat.exists_eq_add_of_le' hlg
    have hpos := Nat.two_pow_pos lg
    have h1 : 2 ^ (lg + 1) = 2 * 2 ^ lg := by ring
    have h2 : 2 ^ (lg + 2) = 4 * 2 ^ lg := by ring
    rw [show lg + 5 - 1 = lg + 1 + 3 by rfl, show lg + 5 - 2 = lg + 3 by rfl, show lg + 5 = lg + 2 + 3 by rfl,
      hform, hform, hform]
    omega
  case closed =>
    obtain ⟨lg, rfl⟩ := Nat.exists_eq_add_of_le' hlg
    have hpos := Nat.two_pow_pos lg
    rw [hform, Nat.add_sub_cancel]
    split <;> omega
  case values =>
    rw [hform 0, hform 1, hform 2, hform 3, hform 4, hform 5, hform 6, hform 7]
    rfl

/-! ## The arguments of the descriptors -/

/-- The size of a descriptor is that of its kind: BASE8, BASE16, or at least 32 (R166). -/
def Node.KindOk (d : Node) : Prop :=
  (d.kind = .base8 ↔ d.lgs = 3) ∧ (d.kind = .base16 ↔ d.lgs = 4) ∧ (d.kind = .generic ↔ 5 ≤ d.lgs)

/-- The descriptor reads samples of the arithmetic progression off, off+st, ... of 2^lg terms only (R150). -/
def Node.ReadsFrom (d : Node) (lg off st : Nat) : Prop :=
  ∀ m < 2 ^ d.lgs, ∃ j < 2 ^ lg, d.seqoff + m * d.seqstride = off + j * st

/-- Index r + m*c of a sequence of c*n samples: sample m of its part r, r+c, r+2c, ... of n samples (R162). -/
theorem part_index_lt {c n r m : Nat} (hr : r < c) (hm : m < n) : r + m * c < c * n := by
  calc r + m * c < c + m * c := by omega
    _ = c * (m + 1) := by ring
    _ ≤ c * n := Nat.mul_le_mul_left c hm

/-- A child's input sequence is the part r, r+c, r+2c, ... of its parent's (R162). -/
theorem Node.ReadsFrom.of_child {d : Node} {lg lg' off st c r : Nat} (h : d.ReadsFrom lg' (off + r * st) (c * st))
    (hsize : c * 2 ^ lg' = 2 ^ lg) (hr : r < c) : d.ReadsFrom lg off st := by
  intro m hm
  obtain ⟨j, hj, e⟩ := h m hm
  exact ⟨r + j * c, (part_index_lt hr hj).trans_eq hsize, by rw [e]; ring⟩

/-- Every descriptor of a subtree has the size of its kind and reads from the input sequence of the root. -/
theorem buildTable_arguments {lg : Nat} (h : 3 ≤ lg) (off st t : Nat) :
    ∀ d ∈ buildTable lg off st t, d.KindOk ∧ d.ReadsFrom lg off st := by
  induction lg, off, st, t, h using subtreeInduction with
  | base8 off st t =>
    rw [buildTable_three, List.forall_mem_singleton]
    exact ⟨by simp [Node.KindOk], fun m hm => ⟨m, hm, rfl⟩⟩
  | base16 off st t =>
    rw [buildTable_four, List.forall_mem_singleton]
    exact ⟨by simp [Node.KindOk], fun m hm => ⟨m, hm, rfl⟩⟩
  | generic lg off st t ihu ih1 ih3 =>
    rw [buildTable_generic, Node.children_generic, List.forall_mem_cons, List.forall_mem_append, List.forall_mem_append]
    refine ⟨⟨by simp [Node.KindOk], fun m hm => ⟨m, hm, rfl⟩⟩, fun d hd => ?half, fun d hd => ?quarter1,
      fun d hd => ?quarter3⟩
    case half =>
      obtain ⟨hkind, hreads⟩ := ihu d hd
      exact ⟨hkind, Node.ReadsFrom.of_child (r := 0) (c := 2) (by simpa using hreads) (by ring) (by decide)⟩
    case quarter1 =>
      obtain ⟨hkind, hreads⟩ := ih1 d hd
      exact ⟨hkind, Node.ReadsFrom.of_child (r := 1) (c := 4) (by simpa using hreads) (by ring) (by decide)⟩
    case quarter3 =>
      obtain ⟨hkind, hreads⟩ := ih3 d hd
      exact ⟨hkind, hreads.of_child (by ring) (by decide)⟩

/-! ## The subtrees behind a GENERIC descriptor -/

/-- Every GENERIC descriptor of the list is followed by its three child subtrees (R166). -/
def ChildrenFollow : List Node → Prop
  | [] => True
  | d :: post => (d.kind = .generic → d.children <+: post) ∧ ChildrenFollow post

theorem ChildrenFollow.append {l l' : List Node} (h : ChildrenFollow l) (h' : ChildrenFollow l') :
    ChildrenFollow (l ++ l') := by
  induction l with
  | nil => exact h'
  | cons d post ih =>
    obtain ⟨hd, hpost⟩ := h
    exact ⟨fun hk => (hd hk).trans ⟨l', rfl⟩, ih hpost⟩

theorem ChildrenFollow.behind {pre post : List Node} {d : Node} (h : ChildrenFollow (pre ++ d :: post))
    (hk : d.kind = .generic) : d.children <+: post := by
  induction pre with
  | nil => exact h.1 hk
  | cons e pre ih => exact ih h.2

theorem buildTable_childrenFollow {lg : Nat} (h : 3 ≤ lg) (off st t : Nat) :
    ChildrenFollow (buildTable lg off st t) := by
  induction lg, off, st, t, h using subtreeInduction with
  | base8 off st t => exact ⟨nofun, trivial⟩
  | base16 off st t => exact ⟨nofun, trivial⟩
  | generic lg off st t ihu ih1 ih3 =>
    rw [buildTable_generic]
    exact ⟨fun _ => ⟨[], List.append_nil _⟩, ihu.append (ih1.append ih3)⟩

/-! ## The output ranges of the leaves -/

/-- The descriptor is a leaf whose output range holds position j (R166). -/
def Node.leafAt (j : Nat) (d : Node) : Bool :=
  d.kind != .generic && decide (d.toff ≤ j) && decide (j < d.toff + 2 ^ d.lgs)

theorem Node.leafAt_iff (j : Nat) (d : Node) :
    d.leafAt j = true ↔ d.kind ≠ .generic ∧ d.toff ≤ j ∧ j < d.toff + 2 ^ d.lgs := by
  simp [Node.leafAt, and_assoc]

theorem countP_leafAt_leaf {d : Node} (h : d.kind ≠ .generic) (j : Nat) :
    [d].countP (Node.leafAt j) = if d.toff ≤ j ∧ j < d.toff + 2 ^ d.lgs then 1 else 0 := by
  rw [List.countP_singleton]
  exact if_congr ((Node.leafAt_iff j d).trans (and_iff_right h)) rfl rfl

/-- A position of the output range of the root is in the range of exactly one leaf, any other in none. -/
theorem buildTable_countP_leafAt {lg : Nat} (h : 3 ≤ lg) (off st t j : Nat) :
    (buildTable lg off st t).countP (Node.leafAt j) = if t ≤ j ∧ j < t + 2 ^ lg then 1 else 0 := by
  induction lg, off, st, t, h using subtreeInduction with
  | base8 off st t => exact countP_leafAt_leaf (d := ⟨.base8, 3, off, st, t⟩) nofun j
  | base16 off st t => exact countP_leafAt_leaf (d := ⟨.base16, 4, off, st, t⟩) nofun j
  | generic lg off st t ihu ih1 ih3 =>
    obtain ⟨e5, e4, e3⟩ := subtree_sizes lg
    have hroot : ¬ Node.leafAt j ⟨.generic, lg + 5, off, st, t⟩ = true := fun hleaf =>
      ((Node.leafAt_iff j _).1 hleaf).1 rfl
    rw [buildTable_generic, Node.children_generic, List.countP_cons_of_neg hroot, List.countP_append,
      List.countP_append, ihu, ih1, ih3, e5, e4, e3]
    split_ifs <;> omega

/-- Settles O52, from the four facts about the subtree of the root. -/
theorem treeShape : Obligations.TreeShape := by
  rintro lg hlg table rfl
  refine ⟨buildTable_root hlg 0 1 0, fun d hd => ?arguments, fun pre d post hsplit hk => ?children, fun j => ?leaves⟩
  case arguments =>
    obtain ⟨⟨h8, h16, hgeneric⟩, hreads⟩ := buildTable_arguments hlg 0 1 0 d hd
    refine ⟨h8, h16, hgeneric, fun m hm => ?_⟩
    obtain ⟨j, hj, e⟩ := hreads m hm
    omega
  case children =>
    have hfollow := buildTable_childrenFollow hlg 0 1 0
    rw [hsplit] at hfollow
    obtain ⟨post', rfl⟩ := hfollow.behind hk
    exact ⟨post', by simp only [Node.children, List.append_assoc]⟩
  case leaves =>
    refine (buildTable_countP_leafAt hlg 0 1 0 j).trans (if_congr ?_ rfl rfl)
    rw [Nat.zero_add, and_iff_right (Nat.zero_le j)]

end Sys2Proof.Machine
end

section
/-!
PROOF. The kernels in any arithmetic (spec/41_kernels_and_nodes.md rules R151 to R164): what a kernel leaves in its
output range is fixed by the source samples it reads, so kernels with disjoint output ranges commute, and the visits of
the node table can be put in the order of the recursion.
-/
namespace Sys2Proof.Machine

variable {α : Type} {A : Arith α}

/-! ## Writing the same block -/

/-- y and y' hold the same values at the positions t, ..., t+n-1. -/
def Arith.SameOn (A : Arith α) (t n : Nat) (y y' : List (Cpx α)) : Prop :=
  ∀ j, t ≤ j → j < t + n → A.at y j = A.at y' j

/-- What is written elsewhere does not matter. -/
theorem Arith.SameOn.of_agrees {t n t' n' : Nat} {y y' z z' : List (Cpx α)} (h : A.SameOn t n y y')
    (hz : A.Agrees t' n' y z) (hz' : A.Agrees t' n' y' z') (hd : t + n ≤ t' ∨ t' + n' ≤ t) : A.SameOn t n z z' :=
  fun j hj hj' => by rw [hz.2 j (by omega), hz'.2 j (by omega), h j hj hj']

/-- f and f' write the positions t, ..., t+n-1 only, and write the same values there, whatever the destination held. -/
structure Arith.SameBlock (A : Arith α) (t n : Nat) (f f' : List (Cpx α) → List (Cpx α)) : Prop where
  left : ∀ y, A.Agrees t n y (f y)
  right : ∀ y, A.Agrees t n y (f' y)
  same : ∀ y y', t + n ≤ y.length → t + n ≤ y'.length → A.SameOn t n (f y) (f' y')

/-- Two blocks written one after the other, side by side, are one block. -/
theorem Arith.SameBlock.beside {t t' n n' : Nat} {f f' g g' : List (Cpx α) → List (Cpx α)}
    (hf : A.SameBlock t n f f') (hg : A.SameBlock t' n' g g') (ht : t' = t + n) :
    A.SameBlock t (n + n') (fun y => g (f y)) (fun y => g' (f' y)) where
  left y := ((hf.left y).mono le_rfl (by omega)).trans ((hg.left _).mono (by omega) (by omega))
  right y := ((hf.right y).mono le_rfl (by omega)).trans ((hg.right _).mono (by omega) (by omega))
  same y y' hy hy' j hj hj' := by
    have hfirst := (hf.same y y' (by omega) (by omega)).of_agrees (hg.left _) (hg.right _) (by omega)
    have hsecond := hg.same (f y) (f' y') (by rw [(hf.left y).1]; omega) (by rw [(hf.right y').1]; omega)
    by_cases hjt : j < t + n
    · exact hfirst j hj hjt
    · exact hsecond j (by omega) (by omega)

theorem Arith.eq_of_at {y y' : List (Cpx α)} (hl : y.length = y'.length) (h : ∀ j, A.at y j = A.at y' j) : y = y' :=
  List.ext_getElem hl fun j hj hj' => by simpa [Arith.at, hj, hj'] using h j

/-- Disjoint blocks can be written in either order. -/
theorem Arith.SameBlock.comm {t t' n n' : Nat} {f g : List (Cpx α) → List (Cpx α)} (hf : A.SameBlock t n f f)
    (hg : A.SameBlock t' n' g g) (hd : t + n ≤ t' ∨ t' + n' ≤ t) {y : List (Cpx α)} (hy : t + n ≤ y.length)
    (hy' : t' + n' ≤ y.length) : f (g y) = g (f y) := by
  have hfy := hf.left y
  have hgy := hg.left y
  have hfgy := hf.left (g y)
  have hgfy := hg.left (f y)
  refine Arith.eq_of_at (A := A) (by rw [hfgy.1, hgy.1, hgfy.1, hfy.1]) fun j => ?_
  by_cases hjf : t ≤ j ∧ j < t + n
  · rw [hgfy.2 j (by omega)]
    exact hf.same (g y) y (by rwa [hgy.1]) hy j hjf.1 hjf.2
  · rw [hfgy.2 j (by omega)]
    by_cases hjg : t' ≤ j ∧ j < t' + n'
    · exact hg.same y (f y) hy' (by rwa [hfy.1]) j hjg.1 hjg.2
    · rw [hgfy.2 j (by omega), hgy.2 j (by omega), hfy.2 j (by omega)]

/-- Three blocks, each behind the one before, can be written in the reverse order. -/
theorem Arith.SameBlock.reverse {t t1 t3 n n1 n3 : Nat} {fu f1 f3 : List (Cpx α) → List (Cpx α)}
    (hu : A.SameBlock t n fu fu) (h1 : A.SameBlock t1 n1 f1 f1) (h3 : A.SameBlock t3 n3 f3 f3) (e1 : t + n ≤ t1)
    (e3 : t1 + n1 ≤ t3) {y : List (Cpx α)} (hy : t3 + n3 ≤ y.length) : fu (f1 (f3 y)) = f3 (f1 (fu y)) := by
  have hl : (f1 y).length = y.length := (h1.left y).1
  calc fu (f1 (f3 y)) = fu (f3 (f1 y)) := by rw [h1.comm h3 (by omega) (by omega) hy]
    _ = f3 (fu (f1 y)) := hu.comm h3 (by omega) (by omega) (by omega)
    _ = f3 (f1 (fu y)) := by rw [hu.comm h1 (by omega) (by omega) (by omega)]

/-! ## COMBINE -/

theorem Arith.sameOn_iff_quad {t q : Nat} {y y' : List (Cpx α)} :
    A.SameOn t (4 * q) y y' ↔ ∀ k < q, A.quad t q y k = A.quad t q y' k := by
  constructor
  · intro h k hk
    rw [Arith.quad, Arith.quad, h (t + k) (by omega) (by omega), h (t + k + q) (by omega) (by omega),
      h (t + k + 2 * q) (by omega) (by omega), h (t + k + 3 * q) (by omega) (by omega)]
  · intro h j hj hj'
    obtain ⟨k, hk, i, hi, rfl⟩ : ∃ k < q, ∃ i < 4, j = t + k + i * q :=
      ⟨(j - t) % q, Nat.mod_lt _ (by omega), (j - t) / q, Nat.div_lt_of_lt_mul (by omega), by
        rw [Nat.add_assoc, Nat.mod_add_div', Nat.add_sub_cancel' hj]⟩
    have hquad := h k hk
    simp only [Arith.quad, Quad.mk.injEq] at hquad
    obtain ⟨h0, h1, h2, h3⟩ := hquad
    interval_cases i
    · simpa using h0
    · simpa using h1
    · exact h2
    · exact h3

/-- The result of COMBINE in its range depends on the range only (R155, R156). -/
theorem Arith.SameOn.combine {lg t : Nat} {y y' : List (Cpx α)} (h : A.SameOn t (4 * 2 ^ lg) y y')
    (hy : t + 4 * 2 ^ lg ≤ y.length) (hy' : t + 4 * 2 ^ lg ≤ y'.length) :
    A.SameOn t (4 * 2 ^ lg) (A.combine (lg + 2) t y) (A.combine (lg + 2) t y') :=
  Arith.sameOn_iff_quad.2 fun k hk => by
    rw [A.quad_combine lg t hy hk, A.quad_combine lg t hy' hk, Arith.sameOn_iff_quad.1 h k hk]

/-- One level of the split-radix recursion: a half-size block, two quarter-size ones behind it, and COMBINE (R160 to
R162). -/
theorem Arith.SameBlock.splitRadix {lg t t1 t3 : Nat} {fu fu' f1 f1' f3 f3' : List (Cpx α) → List (Cpx α)}
    (hu : A.SameBlock t (2 ^ (lg + 1)) fu fu') (h1 : A.SameBlock t1 (2 ^ lg) f1 f1')
    (h3 : A.SameBlock t3 (2 ^ lg) f3 f3') (e1 : t1 = t + 2 * 2 ^ lg) (e3 : t3 = t + 3 * 2 ^ lg) :
    A.SameBlock t (2 ^ (lg + 2)) (fun y => A.combine (lg + 2) t (f3 (f1 (fu y))))
      (fun y => A.combine (lg + 2) t (f3' (f1' (fu' y)))) := by
  have ehalf : 2 ^ (lg + 1) = 2 * 2 ^ lg := by ring
  have eparts : 2 ^ (lg + 1) + 2 ^ lg + 2 ^ lg = 4 * 2 ^ lg := by ring
  have enode : 2 ^ (lg + 2) = 4 * 2 ^ lg := by ring
  have hparts := (hu.beside h1 (by omega)).beside h3 (by omega)
  rw [eparts] at hparts
  refine ⟨fun y => ?_, fun y => ?_, fun y y' hy hy' => ?_⟩
  · exact ((hparts.left y).mono le_rfl (by omega)).trans (A.combine_agrees (lg + 2) t _)
  · exact ((hparts.right y).mono le_rfl (by omega)).trans (A.combine_agrees (lg + 2) t _)
  · rw [enode] at hy hy' ⊢
    exact (hparts.same y y' hy hy').combine (hy.trans_eq (hparts.left y).1.symm)
      (hy'.trans_eq (hparts.right y').1.symm)

/-! ## The kernels -/

/-- The n samples off, off+st, off+2*st, ... of x and x' are equal (R150). -/
def Arith.SameSource (A : Arith α) (n off st : Nat) (x x' : List (Cpx α)) : Prop :=
  ∀ m < n, A.at x (off + m * st) = A.at x' (off + m * st)

theorem Arith.SameSource.part {n n' off st c r : Nat} {x x' : List (Cpx α)} (h : A.SameSource n off st x x')
    (hsize : c * n' = n) (hr : r < c) : A.SameSource n' (off + r * st) (c * st) x x' := by
  intro m hm
  have hpart : off + r * st + m * (c * st) = off + (r + m * c) * st := by ring
  rw [hpart]
  exact h _ ((part_index_lt hr hm).trans_eq hsize)

/-- The input sequences of the three children of a node (R162). -/
theorem Arith.SameSource.children {lg off st : Nat} {x x' : List (Cpx α)}
    (h : A.SameSource (2 ^ (lg + 2)) off st x x') :
    A.SameSource (2 ^ (lg + 1)) off (2 * st) x x' ∧ A.SameSource (2 ^ lg) (off + st) (4 * st) x x' ∧
      A.SameSource (2 ^ lg) (off + 3 * st) (4 * st) x x' := by
  have hhalf : 2 * 2 ^ (lg + 1) = 2 ^ (lg + 2) := by ring
  have hquarter : 4 * 2 ^ lg = 2 ^ (lg + 2) := by ring
  have hu := h.part hhalf (r := 0) (by decide)
  have h1 := h.part hquarter (r := 1) (by decide)
  rw [Nat.zero_mul, Nat.add_zero] at hu
  rw [Nat.one_mul] at h1
  exact ⟨hu, h1, h.part hquarter (by decide)⟩

theorem Arith.SameSource.dft2 {off st : Nat} {x x' : List (Cpx α)} (h : A.SameSource 2 off st x x') (t : Nat) :
    A.SameBlock t 2 (A.dft2 x off st t) (A.dft2 x' off st t) := by
  refine ⟨A.dft2_agrees x off st t, A.dft2_agrees x' off st t, fun y y' hy hy' j hj hj' => ?_⟩
  obtain ⟨e0, e1⟩ := A.at_dft2 x off st t hy
  obtain ⟨e0', e1'⟩ := A.at_dft2 x' off st t hy'
  have h0 := h 0 (by decide)
  have h1 := h 1 (by decide)
  simp only [Nat.zero_mul, Nat.add_zero, Nat.one_mul] at h0 h1
  obtain ⟨k, rfl⟩ := Nat.exists_eq_add_of_le hj
  have hk : k < 2 := by omega
  interval_cases k
  · rw [Nat.add_zero, e0, e0', h0, h1]
  · rw [e1, e1', h0, h1]

theorem Arith.SameSource.dft4 {off st : Nat} {x x' : List (Cpx α)} (h : A.SameSource 4 off st x x') (t : Nat) :
    A.SameBlock t 4 (A.dft4 x off st t) (A.dft4 x' off st t) := by
  refine ⟨A.dft4_agrees x off st t, A.dft4_agrees x' off st t, fun y y' hy hy' j hj hj' => ?_⟩
  obtain ⟨e0, e1, e2, e3⟩ := A.at_dft4 x off st t hy
  obtain ⟨e0', e1', e2', e3'⟩ := A.at_dft4 x' off st t hy'
  have h0 := h 0 (by decide)
  have h1 := h 1 (by decide)
  have h2 := h 2 (by decide)
  have h3 := h 3 (by decide)
  simp only [Nat.zero_mul, Nat.add_zero, Nat.one_mul] at h0 h1
  obtain ⟨k, rfl⟩ := Nat.exists_eq_add_of_le hj
  have hk : k < 4 := by omega
  interval_cases k
  · rw [Nat.add_zero, e0, e0', h0, h1, h2, h3]
  · rw [e1, e1', h0, h1, h2, h3]
  · rw [e2, e2', h0, h1, h2, h3]
  · rw [e3, e3', h0, h1, h2, h3]

theorem Arith.SameSource.base8 {off st : Nat} {x x' : List (Cpx α)} (h : A.SameSource 8 off st x x') (t : Nat) :
    A.SameBlock t 8 (A.base8 x off st t) (A.base8 x' off st t) := by
  obtain ⟨hu, h1, h3⟩ := Arith.SameSource.children (lg := 1) h
  exact (hu.dft4 t).splitRadix (lg := 1) (h1.dft2 (t + 4)) (h3.dft2 (t + 6)) rfl rfl

theorem Arith.SameSource.base16 {off st : Nat} {x x' : List (Cpx α)} (h : A.SameSource 16 off st x x') (t : Nat) :
    A.SameBlock t 16 (A.base16 x off st t) (A.base16 x' off st t) := by
  obtain ⟨hu, h1, h3⟩ := Arith.SameSource.children (lg := 2) h
  exact (hu.base8 t).splitRadix (lg := 2) (h1.dft4 (t + 8)) (h3.dft4 (t + 12)) rfl rfl

/-- What a node writes is fixed by the samples of its input sequence (R162). -/
theorem Arith.SameSource.node {lg off st : Nat} {x x' : List (Cpx α)} (h : A.SameSource (2 ^ lg) off st x x')
    (hlg : 3 ≤ lg) (t : Nat) : A.SameBlock t (2 ^ lg) (A.node x lg off st t) (A.node x' lg off st t) := by
  induction lg, off, st, t, hlg using subtreeInduction with
  | base8 off st t => exact h.base8 t
  | base16 off st t => exact h.base16 t
  | generic lg off st t ihu ih1 ih3 =>
    obtain ⟨e5, e4, e3⟩ := subtree_sizes lg
    obtain ⟨hu, h1, h3⟩ := h.children
    exact (ihu hu).splitRadix (ih1 h1) (ih3 h3) (by omega) (by omega)

/-- A node puts the same values into its output range over every destination (R163). -/
theorem Arith.node_overwrites (A : Arith α) (x : List (Cpx α)) {lg : Nat} (h : 3 ≤ lg) (off st t : Nat) :
    A.SameBlock t (2 ^ lg) (A.node x lg off st t) (A.node x lg off st t) :=
  Arith.SameSource.node (fun _ _ => rfl) h t

/-- Settles O54: the node of size N writes its range with values that its N source samples fix, over any destination. -/
theorem forwardDependsOnItsInput : Obligations.ForwardDependsOnItsInput := by
  intro α A x x' y lg hlg hy hx
  have hsource : A.SameSource (2 ^ lg) 0 1 x x' := fun m hm => by rw [Nat.zero_add, Nat.mul_one]; exact hx m hm
  exact ⟨fun k hk => (hsource.node hlg 0).same y _ (by omega) (by simp) k (Nat.zero_le k) (by omega),
    fun k hk => (A.node_agrees x lg 0 1 0 y).2 k (by omega)⟩

/-! ## The table-driven evaluation -/

/-- Visiting a subtree from its last descriptor to its root runs its node. -/
theorem foldr_visit_eq_node (x : List (Cpx α)) {lg : Nat} (h : 3 ≤ lg) (off st t : Nat) {y : List (Cpx α)}
    (hy : t + 2 ^ lg ≤ y.length) : (buildTable lg off st t).foldr (A.visit x) y = A.node x lg off st t y := by
  induction lg, off, st, t, h using subtreeInduction generalizing y with
  | base8 off st t => rw [buildTable_three, List.foldr_cons, List.foldr_nil, Arith.visit, Arith.node]
  | base16 off st t => rw [buildTable_four, List.foldr_cons, List.foldr_nil, Arith.visit, Arith.node]
  | generic lg off st t ihu ih1 ih3 =>
    obtain ⟨e5, e4, e3⟩ := subtree_sizes lg
    rw [buildTable_generic, Node.children_generic, List.foldr_cons, List.foldr_append, List.foldr_append,
      ih3 (by omega), ih1 (by rw [Arith.node_length]; omega), ihu (by rw [Arith.node_length, Arith.node_length]; omega)]
    exact congrArg (A.combine (lg + 5) t) ((A.node_overwrites x (by omega) ..).reverse
      (A.node_overwrites x (by omega) ..) (A.node_overwrites x (by omega) ..) (by omega) (by omega) (by omega))

/-- Settles O53: visiting the reversed table from the left is visiting the table from the right. -/
theorem tableDrivenEvaluation : Obligations.TableDrivenEvaluation := by
  intro α A x y lg hlg hy
  rw [List.foldl_reverse]
  exact foldr_visit_eq_node x hlg 0 1 0 (by omega)

end Sys2Proof.Machine
end

section
/-!
PROOF. The forward transform commands (spec/42_facade.md rules R185 and R186): a command whose effect is to store a
result through a legal link, and the samples of the forward transform, which are W-bit patterns.
-/
namespace Sys2Proof.Machine

/-! ## A command that stores a result through the link -/

/-- A command that completes at once with the effect of storing N W-bit results through the legal link of u, which is s
with another facade: the two destination banks hold them, and nothing else in the memory changes (R150, R180, R241). -/
theorem exec_storeDest {i : Instr} {s u : State} {ys : List (Cpx Sample)} (h : ReadyAtOnce s)
    (hc : checkOf i s.arg0 s.arg1 s = none) (he : effectOf i s.arg0 s.arg1 s = storeDest ys u)
    (hu : ∃ f, u = { s with facade := f }) (hF : FacadeOk u) (hl : u.facade.linked = true)
    (hn : ys.length = 2 ^ u.facade.lg) (hys : AllBoth (Fits s.build.prec) ys) :
    ∃ t, exec i s = .next t ∧ OnlyMemory u t ∧ t.facade = u.facade ∧
      StoresPair s t u.facade.yr u.facade.yi (2 ^ u.facade.lg) (fun k => ((arithOf s.build).at ys k).re)
        (fun k => ((arithOf s.build).at ys k).im) := by
  obtain ⟨f, rfl⟩ := hu
  have hsize := hn.trans_le (FacadeOk.lg_le hF)
  obtain ⟨-, -, hlink, -⟩ := hF
  obtain ⟨-, hdistinct, -⟩ : LinkLegal s.build f.xr f.xi f.yr f.yi := (checkLink_iff _ _ _ _ _).1 (hlink hl)
  obtain ⟨hin, hout⟩ := storeDest_spec hdistinct hsize hys
  rw [hn] at hin hout
  refine ⟨_, exec_atOnce h hc, ?memory, ?facade, ?stores⟩
  case memory => rw [he, storeDest_eq]
  case facade => rw [he]; exact storeDest_facade ys _
  case stores => rw [he]; exact ⟨hin, hout⟩

theorem FacadeOk.bind {s : State} (h : FacadeOk s) (hc : s.facade.configured = true) {xr xi yr yi : Nat}
    (hL : LinkLegal s.build xr xi yr yi) : FacadeOk (bind xr xi yr yi s) := by
  obtain ⟨hconfigured, -⟩ := h
  rw [FacadeOk, bind_facade, bind_build, hc]
  exact ⟨fun _ => hconfigured hc, nofun, fun _ => (checkLink_iff _ _ _ _ _).2 hL, nofun⟩

/-! ## The forward transform -/

theorem linkedSource_fits (s : State) : AllBoth (Fits s.build.prec) (linkedSource s) := by
  intro z hz
  obtain ⟨j, -, rfl⟩ := List.mem_map.1 hz
  exact ⟨s.sample_fits_prec _ j, s.sample_fits_prec _ j⟩

theorem forward_fits (s : State) (lg : Nat) :
    AllBoth (Fits s.build.prec) ((arithOf s.build).fwd lg (linkedSource s)) :=
  (arithOf_closed s.build).fwd lg (linkedSource_fits s)

/-- Settles O21: both commands store the transform through the link, FWDL through the link it makes. -/
theorem forwardResult : Obligations.ForwardResult := by
  refine ⟨fun s h hc hl hF => ?fwd, fun s xr xi yr yi h hc hF hL => ?fwdl⟩
  case fwd =>
    obtain ⟨t, hexec, hmem, -, hstores⟩ := exec_storeDest (i := .fwd) (u := s) h
      ((evaluationChecks_pass_iff s).2 ⟨hc, hl⟩) rfl ⟨_, rfl⟩ hF hl (Arith.fwd_length ..) (forward_fits s _)
    exact ⟨t, hexec, hmem, hstores⟩
  case fwdl =>
    have hfacade : (bind xr xi yr yi s).facade = ⟨true, s.facade.lg, true, xr, xi, yr, yi⟩ := by
      rw [bind_facade, hc]
    obtain ⟨t, hexec, hmem, htf, hstores⟩ := exec_storeDest (i := .fwdl xr xi yr yi) (u := bind xr xi yr yi s) h
      ((linkChecks_pass_iff xr xi yr yi s).2 ⟨hc, hL⟩) rfl ⟨_, rfl⟩ (FacadeOk.bind hF hc hL) rfl (Arith.fwd_length ..)
      (forward_fits (bind xr xi yr yi s) _)
    exact ⟨t, hexec, hmem, htf.trans hfacade, hstores⟩

end Sys2Proof.Machine
end

section
/-!
PROOF. The facade commands (spec/42_facade.md rules R181 to R189): when their checks fail and with which code, and what
the commands leave that complete at once. The forward transform commands stand before this section.
-/
namespace Sys2Proof.Machine

/-! ## What the checks say -/

theorem checkCfg_pass_iff (lg : Nat) (a0 a1 : Word) (s : State) :
    checkCfg lg a0 a1 s = none ↔ 3 ≤ lg ∧ lg ≤ s.build.log2nMax := by
  simp [checkCfg, firstFail_eq_none_iff, checkLg_iff]

theorem checkCfgl_pass_iff (xr xi yr yi lg : Nat) (a0 a1 : Word) (s : State) :
    checkCfgl xr xi yr yi lg a0 a1 s = none ↔
      (3 ≤ lg ∧ lg ≤ s.build.log2nMax) ∧ LinkLegal s.build xr xi yr yi := by
  simp [checkCfgl, firstFail_eq_none_iff, checkLg_iff, checkLink_iff]

/-- Checks that all name one code fail with it. -/
theorem firstFail_of_one_code {l : List (Bool × ErrCode)} {e : ErrCode} (hl : ∀ x ∈ l, x.2 = e)
    (h : firstFail l ≠ none) : firstFail l = some e := by
  obtain ⟨code, hc⟩ := Option.ne_none_iff_exists'.1 h
  obtain rfl : code = e := hl _ (firstFail_mem hc)
  exact hc

/-- Both checks of FWD and INV name INVALID_STATE. -/
theorem evaluationChecks_fail {s : State} (h : s.facade.configured = false ∨ s.facade.linked = false) :
    firstFail (evaluationChecks s) = some .invalidState := by
  refine firstFail_of_one_code (by simp [evaluationChecks]) fun hp => ?_
  obtain ⟨hc, hl⟩ := (evaluationChecks_pass_iff s).1 hp
  simp [hc, hl] at h

/-- On an unconfigured facade LINK, FWDL and INVL fail their first check, whatever the banks are (R248). -/
theorem linkChecks_unconfigured {s : State} (h : s.facade.configured = false) (xr xi yr yi : Nat) :
    firstFail (linkChecks xr xi yr yi s) = some .invalidState := by
  simp [linkChecks, firstFail, h]

/-- And on a configured one they fail their second check, where the banks may not be linked (R193). -/
theorem linkChecks_illegal {s : State} (h : s.facade.configured = true) {xr xi yr yi : Nat}
    (hL : ¬ LinkLegal s.build xr xi yr yi) : firstFail (linkChecks xr xi yr yi s) = some .invalidArg := by
  rw [← checkLink_iff, Bool.not_eq_true] at hL
  simp [linkChecks, firstFail, h, hL]

/-! ## Rejection -/

/-- An idle machine rejects a command with the code of its failing check (R240, R247). -/
theorem rejects_of_check {i : Instr} {e : ErrCode} {s : State} (h : s.seq = .idle)
    (hc : checkOf i s.arg0 s.arg1 s = some e) : Rejects i e s := by
  rw [Rejects, exec_eq_issue, issue_rejected h hc]

/-- A size or a link that CFGL's checks refuse (R183). -/
theorem rejects_cfgl {xr xi yr yi lg : Nat} {s : State} (hs : s.seq = .idle)
    (h : ¬ ((3 ≤ lg ∧ lg ≤ s.build.log2nMax) ∧ LinkLegal s.build xr xi yr yi)) :
    Rejects (.cfgl xr xi yr yi lg) .invalidArg s :=
  rejects_of_check hs (firstFail_of_one_code (by simp)
    fun hp => h ((checkCfgl_pass_iff xr xi yr yi lg s.arg0 s.arg1 s).1 hp))

/-- Settles O11: the checks of CFG, CFGL and PROD, and those of FWD and INV, name one code; LINK, FWDL and INVL have a
code for each of their two checks. -/
theorem facadeCommandsRejected : Obligations.FacadeCommandsRejected := by
  intro s hs
  refine ⟨fun lg hlg => ⟨?cfg, fun xr xi yr yi => rejects_cfgl hs fun hp => hlg hp.1⟩,
    fun xr xi yr yi hL => ⟨fun lg => rejects_cfgl hs fun hp => hL hp.2, fun hc => ?illegalLink⟩,
    fun hc xr xi yr yi => ?unconfigured, fun h => ?evaluate, fun xr xi yr yi sign h => ?prod⟩
  case cfg =>
    exact rejects_of_check hs
      (firstFail_of_one_code (by simp) fun hp => hlg ((checkCfg_pass_iff lg s.arg0 s.arg1 s).1 hp))
  case illegalLink =>
    have h := linkChecks_illegal hc hL
    exact ⟨rejects_of_check hs h, rejects_of_check hs h, rejects_of_check hs h⟩
  case unconfigured =>
    have h := linkChecks_unconfigured hc xr xi yr yi
    exact ⟨rejects_of_check hs h, rejects_of_check hs h, rejects_of_check hs h⟩
  case evaluate =>
    have h := evaluationChecks_fail h
    exact ⟨rejects_of_check hs h, rejects_of_check hs h⟩
  case prod =>
    exact rejects_of_check hs
      (firstFail_of_one_code (by simp) fun hp => h ((checkProd_pass_iff xr xi yr yi s.arg0 s.arg1 s).1 hp))

/-! ## NOP, CFG, CFGL and LINK -/

/-- Settles O18: NOP has no checks and no effect. -/
theorem nopResult : Obligations.NopResult := fun _ h => exec_atOnce h rfl

/-- Settles O19: where the checks pass, the effect is `configure`, for CFGL followed by `bind`. -/
theorem configureResult : Obligations.ConfigureResult := by
  intro s lg h h3 hmax
  exact ⟨exec_atOnce h ((checkCfg_pass_iff lg s.arg0 s.arg1 s).2 ⟨h3, hmax⟩),
    fun xr xi yr yi hL =>
      exec_atOnce h ((checkCfgl_pass_iff xr xi yr yi lg s.arg0 s.arg1 s).2 ⟨⟨h3, hmax⟩, hL⟩)⟩

/-- Linking a configured facade replaces its link (R184). -/
theorem bind_of_configured {s : State} (h : s.facade.configured = true) (xr xi yr yi : Nat) :
    bind xr xi yr yi s = { s with facade := ⟨true, s.facade.lg, true, xr, xi, yr, yi⟩ } := by
  simp [bind, h]

/-- Settles O20: the effect is `bind`. -/
theorem linkResult : Obligations.LinkResult := by
  intro s xr xi yr yi h hc hL
  have hbind : effectOf (.link xr xi yr yi) s.arg0 s.arg1 s = _ := bind_of_configured hc xr xi yr yi
  rw [exec_atOnce (i := .link xr xi yr yi) h ((linkChecks_pass_iff xr xi yr yi s).2 ⟨hc, hL⟩), hbind]

/-! ## The inverse transform commands -/

theorem inverse_fits (s : State) (lg : Nat) :
    AllBoth (Fits s.build.prec) ((arithOf s.build).inverse lg (linkedSource s)) :=
  (arithOf_closed s.build).inverse lg (linkedSource_fits s)

/-- Settles O22: both commands store the inverse transform through the link, INVL through the link it makes. -/
theorem inverseResult : Obligations.InverseResult := by
  refine ⟨fun s h hc hl hF => ?inv, fun s xr xi yr yi h hc hF hL => ?invl⟩
  case inv =>
    obtain ⟨t, hexec, hmem, -, hstores⟩ := exec_storeDest (i := .inv) (u := s) h
      ((evaluationChecks_pass_iff s).2 ⟨hc, hl⟩) rfl ⟨_, rfl⟩ hF hl (Arith.inverse_length ..) (inverse_fits s _)
    exact ⟨t, hexec, hmem, hstores⟩
  case invl =>
    obtain ⟨t, hexec, hmem, hfacade, hstores⟩ := exec_storeDest (i := .invl xr xi yr yi) h
      ((linkChecks_pass_iff xr xi yr yi s).2 ⟨hc, hL⟩) rfl ⟨_, rfl⟩ (FacadeOk.bind hF hc hL) rfl
      (Arith.inverse_length ..) (inverse_fits (bind xr xi yr yi s) _)
    rw [bind_of_configured hc] at hfacade
    exact ⟨t, hexec, hmem, hfacade, hstores⟩

/-! ## The spectral product -/

theorem Arith.Closed.cprod {α : Type} {A : Arith α} {P : α → Prop} (hA : A.Closed P) (sign : Sign) {x y : Cpx α}
    (hx : x.Both P) (hy : y.Both P) : (A.cprod sign x y).Both P := by
  obtain ⟨hxr, hxi⟩ := hx
  obtain ⟨hyr, hyi⟩ := hy
  have rr := hA.mul _ _ hxr hyr
  have ii := hA.mul _ _ hxi hyi
  have ri := hA.mul _ _ hxr hyi
  have ir := hA.mul _ _ hxi hyr
  cases sign with
  | plus => exact ⟨hA.sub _ _ rr ii, hA.add _ _ ri ir⟩
  | minus => exact ⟨hA.add _ _ rr ii, hA.sub _ _ ri ir⟩

/-- The product of element k of the four banks (R189, R191). -/
def productOf (xr xi yr yi : Nat) (sign : Sign) (s : State) (k : Nat) : Cpx Sample :=
  (arithOf s.build).cprod sign ⟨s.sample xr k, s.sample xi k⟩ ⟨s.sample yr k, s.sample yi k⟩

theorem productAt_eq (xr xi yr yi : Nat) (sign : Sign) (s : State) (k : Nat) :
    productAt xr xi yr yi sign s k =
      (s.setSample yr k (productOf xr xi yr yi sign s k).re).setSample yi k (productOf xr xi yr yi sign s k).im := rfl

theorem productOf_fits (xr xi yr yi : Nat) (sign : Sign) (s : State) (k : Nat) :
    (productOf xr xi yr yi sign s k).Both (Fits s.build.prec) :=
  (arithOf_closed s.build).cprod sign ⟨s.sample_fits_prec xr k, s.sample_fits_prec xi k⟩
    ⟨s.sample_fits_prec yr k, s.sample_fits_prec yi k⟩

/-- A product depends on the element k of the banks only, and so on nothing that other elements do. -/
theorem productOf_congr {s t : State} {k : Nat} (hb : t.build = s.build)
    (h : ∀ bank, t.sample bank k = s.sample bank k) (xr xi yr yi : Nat) (sign : Sign) :
    productOf xr xi yr yi sign t k = productOf xr xi yr yi sign s k := by
  simp only [productOf, hb, h]

/-- A W-bit pattern that was written is read back. -/
theorem State.sample_setSample_fits {s : State} {v : Sample} (h : Fits s.build.prec v) (bank j : Nat) :
    (s.setSample bank j v).sample bank j = v := by
  rw [s.sample_setSample_same, ofNat_toNat_mod h]

/-- The state after the elements 0, ..., n-1 of the product. -/
def productUpTo (xr xi yr yi : Nat) (sign : Sign) (s : State) (n : Nat) : State :=
  (List.range n).foldl (productAt xr xi yr yi sign) s

/-- PROD runs its ARG0 elements (R189). -/
theorem effectProd_eq (xr xi yr yi : Nat) (sign : Sign) (a0 a1 : Word) (s : State) :
    effectProd xr xi yr yi sign a0 a1 s = productUpTo xr xi yr yi sign s a0.toNat := rfl

section
variable {xr xi yr yi k : Nat} {sign : Sign} {s : State}

/-- One element of the product stores both components (R189). -/
theorem sample_productAt_same (hd : yr ≠ yi) (hk : k < s.build.nmax) :
    (productAt xr xi yr yi sign s k).sample yr k = (productOf xr xi yr yi sign s k).re ∧
      (productAt xr xi yr yi sign s k).sample yi k = (productOf xr xi yr yi sign s k).im := by
  obtain ⟨hre, him⟩ := productOf_fits xr xi yr yi sign s k
  rw [productAt_eq]
  constructor
  · rw [State.sample_setSample_ne (s.setSample yr k _) _ hk hk (.inl hd.symm), State.sample_setSample_fits hre]
  · exact State.sample_setSample_fits (s := s.setSample yr k _) him yi k

/-- And leaves the other elements of every bank alone. -/
theorem sample_productAt_ne (hk : k < s.build.nmax) {bank j : Nat} (hj : j < s.build.nmax) (h : k ≠ j) :
    (productAt xr xi yr yi sign s k).sample bank j = s.sample bank j := by
  rw [productAt_eq, State.sample_setSample_ne (s.setSample yr k _) _ hk hj (.inr h),
    State.sample_setSample_ne _ _ hk hj (.inr h)]

theorem productUpTo_succ (n : Nat) :
    productUpTo xr xi yr yi sign s (n + 1) = productAt xr xi yr yi sign (productUpTo xr xi yr yi sign s n) n := by
  simp [productUpTo, List.range_succ]

theorem productUpTo_eq (n : Nat) :
    productUpTo xr xi yr yi sign s n = { s with mem := (productUpTo xr xi yr yi sign s n).mem } :=
  foldl_productAt_eq ..

theorem productUpTo_build (n : Nat) : (productUpTo xr xi yr yi sign s n).build = s.build := by
  rw [productUpTo_eq]

/-- The elements that the product has not reached are as they were, in every bank. -/
theorem sample_productUpTo_later {n : Nat} (hn : n ≤ s.build.nmax) (bank : Nat) {j : Nat} (hj : n ≤ j)
    (hj' : j < s.build.nmax) : (productUpTo xr xi yr yi sign s n).sample bank j = s.sample bank j := by
  induction n with
  | zero => rfl
  | succ n ih =>
    rw [productUpTo_succ, sample_productAt_ne (by rw [productUpTo_build]; omega) (by rwa [productUpTo_build])
      (by omega), ih (by omega) (by omega)]

/-- The elements that it has passed hold the products of the samples as they were before the command: element k reads
nothing that an earlier one wrote, whichever banks are shared (R189). -/
theorem sample_productUpTo {n : Nat} (hd : yr ≠ yi) (hn : n ≤ s.build.nmax) (hk : k < n) :
    (productUpTo xr xi yr yi sign s n).sample yr k = (productOf xr xi yr yi sign s k).re ∧
      (productUpTo xr xi yr yi sign s n).sample yi k = (productOf xr xi yr yi sign s k).im := by
  induction n with
  | zero => omega
  | succ n ih =>
    have hb := productUpTo_build (xr := xr) (xi := xi) (yr := yr) (yi := yi) (sign := sign) (s := s) n
    have hn' : n < (productUpTo xr xi yr yi sign s n).build.nmax := by rw [hb]; omega
    rw [productUpTo_succ]
    obtain hlt | rfl : k < n ∨ k = n := by omega
    · have hk' : k < (productUpTo xr xi yr yi sign s n).build.nmax := hlt.trans hn'
      rw [sample_productAt_ne hn' hk' hlt.ne', sample_productAt_ne hn' hk' hlt.ne']
      exact ih (by omega) hlt
    · have hsame := productOf_congr hb
        (fun bank => sample_productUpTo_later (by omega) bank le_rfl (by omega)) xr xi yr yi sign
      rw [← hsame]
      exact sample_productAt_same hd hn'

end

/-- Settles O23: the command is its element loop, which writes the memory only. -/
theorem productResult : Obligations.ProductResult := by
  intro s xr xi yr yi sign h hxr hxi hyr hyi hd hn
  have hcheck := (checkProd_pass_iff xr xi yr yi s.arg0 s.arg1 s).2 ⟨⟨hxr, hxi, hyr, hyi⟩, hd, hn⟩
  have heffect : effectOf (.prod xr xi yr yi sign) s.arg0 s.arg1 s = _ :=
    effectProd_eq xr xi yr yi sign s.arg0 s.arg1 s
  refine ⟨_, exec_atOnce h hcheck, ?memory, ?stores⟩
  case memory => rw [heffect, productUpTo_eq]
  case stores =>
    rw [heffect]
    exact ⟨fun k hk => sample_productUpTo hd hn hk, fun a hr hi => byte_product_outside _
      (fun k hk => List.mem_range.1 hk) (List.forall_mem_cons.2 ⟨hr, List.forall_mem_singleton.2 hi⟩)⟩

end Sys2Proof.Machine
end

section
/-!
PROOF. INV_POST and the inverse transform (spec/42_facade.md rules R190 and R195): INV_POST, in any arithmetic, reads the
bins backwards and scales them; and the DFT of a DFT is N times the values, read backwards.
-/
namespace Sys2Proof.Machine

/-! ## INV_POST -/

section
variable {α : Type} (A : Arith α) {lg : Nat} {y : List (Cpx α)}

/-- One pair of INV_POST scales and exchanges the positions i and N-i and leaves the others alone (R190). -/
theorem Arith.at_invPair (hy : y.length = 2 ^ lg) {i : Nat} (h0 : 0 < i) (hi : i < 2 ^ lg) (j : Nat) :
    A.at (A.invPair lg y i) j =
      if j = i ∨ j = 2 ^ lg - i then A.cscale (A.scale lg) (A.at y (2 ^ lg - j)) else A.at y j := by
  unfold Arith.invPair
  dsimp only
  by_cases hmirror : j = 2 ^ lg - i
  · subst hmirror
    rw [if_pos (.inr rfl), A.at_set_same (by rw [List.length_set]; omega), Nat.sub_sub_self hi.le]
  · rw [A.at_set_ne _ (Ne.symm hmirror)]
    by_cases hj : j = i
    · subst hj
      rw [if_pos (.inl rfl), A.at_set_same (by omega)]
    · rw [A.at_set_ne _ (Ne.symm hj), if_neg (by tauto)]

/-- After the pairs 1, ..., m the positions 1, ..., m and N-m, ..., N-1 are scaled and exchanged. -/
theorem Arith.at_foldl_invPair (hy : y.length = 2 ^ lg) {m : Nat} (hm : 2 * m < 2 ^ lg) {j : Nat} (hj : j < 2 ^ lg) :
    A.at ((List.range' 1 m).foldl (A.invPair lg) y) j =
      if 0 < j ∧ (j ≤ m ∨ 2 ^ lg - j ≤ m) then A.cscale (A.scale lg) (A.at y (2 ^ lg - j)) else A.at y j := by
  induction m generalizing j with
  | zero => rw [List.range'_zero, List.foldl_nil, if_neg (by omega)]
  | succ m ih =>
    have hlen : ((List.range' 1 m).foldl (A.invPair lg) y).length = 2 ^ lg :=
      (foldl_length (A.invPair_length lg) _ y).trans hy
    rw [List.range'_concat, List.foldl_append, List.foldl_cons, List.foldl_nil, Nat.one_mul,
      A.at_invPair hlen (by omega) (by omega)]
    by_cases hpair : j = 1 + m ∨ j = 2 ^ lg - (1 + m)
    · rw [if_pos hpair, if_pos (by omega), ih (by omega) (by omega), if_neg (by omega)]
    · rw [if_neg hpair, ih (by omega) hj]
      exact if_congr (by omega) rfl rfl

/-- INV_POST puts the scaled bin N-k into position k, and the scaled bin 0 into position 0 (R190). -/
theorem Arith.at_invPost (hlg : lg ≠ 0) (hy : y.length = 2 ^ lg) {k : Nat} (hk : k < 2 ^ lg) :
    A.at (A.invPost lg y) k = A.cscale (A.scale lg) (A.at y ((2 ^ lg - k) % 2 ^ lg)) := by
  obtain ⟨h, hN⟩ : ∃ h, 2 ^ lg = 2 * h := dvd_pow_self 2 hlg
  have hhalf : 2 ^ lg / 2 = h := by omega
  unfold Arith.invPost
  dsimp only
  rw [hhalf, A.at_foldl_invPair (by simpa using hy) (by omega) hk]
  obtain rfl | rfl | ⟨h0, hh⟩ : k = 0 ∨ k = h ∨ k ≠ 0 ∧ k ≠ h := by omega
  · rw [if_neg (by omega), A.at_set_ne _ (by omega), A.at_set_same (by omega), Nat.sub_zero, Nat.mod_self]
  · have hself : (2 ^ lg - k) % 2 ^ lg = k := by rw [Nat.mod_eq_of_lt (by omega)]; omega
    rw [if_neg (by omega), A.at_set_same (by rw [List.length_set]; omega), A.at_set_ne _ (by omega), hself]
  · rw [if_pos (by omega), A.at_set_ne _ (by omega), A.at_set_ne _ (by omega), Nat.mod_eq_of_lt (by omega)]

end

/-! ## The DFT of a DFT -/

theorem unitRoot_isPrimitiveRoot {n : Nat} (hn : n ≠ 0) : IsPrimitiveRoot (unitRoot n) n := by
  rw [unitRoot, Complex.exp_neg]
  exact (Complex.isPrimitiveRoot_exp n hn).inv

/-- The powers of W^j sum to n where W^j is 1, and else to 0. -/
theorem sum_unitRoot_pow {n : Nat} (hn : n ≠ 0) (j : Nat) :
    ∑ m ∈ Finset.range n, unitRoot n ^ (j * m) = if n ∣ j then (n : ℂ) else 0 := by
  have hone := (unitRoot_isPrimitiveRoot hn).pow_eq_one_iff_dvd j
  simp only [pow_mul]
  split
  case isTrue h => simp [hone.2 h]
  case isFalse h =>
    have hpow : (unitRoot n ^ j) ^ n = 1 := by rw [← pow_mul, mul_comm, pow_mul, unitRoot_pow_self hn, one_pow]
    rw [geom_sum_eq (mt hone.1 h), hpow, sub_self, zero_div]

theorem referenceDft_congr {n : Nat} {x x' : Nat → ℂ} (h : ∀ m < n, x m = x' m) (k : Nat) :
    referenceDft n x k = referenceDft n x' k :=
  Finset.sum_congr rfl fun m hm => by rw [h m (Finset.mem_range.1 hm)]

/-- The DFT of the DFT is n times the values, read backwards: bin j holds value k, where j + k is 0 modulo n. -/
theorem referenceDft_referenceDft {n : Nat} (x : Nat → ℂ) {j k : Nat} (hk : k < n) (h : n ∣ k + j) :
    referenceDft n (referenceDft n x) j = n * x k := by
  have hbin : ∀ l ∈ Finset.range n, l ≠ k → ¬ n ∣ l + j := by
    intro l hl hne hdvd
    have hmod : l ≡ k [MOD n] := Nat.ModEq.add_right_cancel' j
      (((Nat.modEq_zero_iff_dvd).2 hdvd).trans ((Nat.modEq_zero_iff_dvd).2 h).symm)
    exact hne (hmod.eq_of_lt_of_lt (Finset.mem_range.1 hl) hk)
  calc referenceDft n (referenceDft n x) j
      = ∑ m ∈ Finset.range n, ∑ l ∈ Finset.range n, x l * unitRoot n ^ ((l + j) * m) := by
        simp only [referenceDft_eq, Finset.sum_mul]
        refine Finset.sum_congr rfl fun m _ => Finset.sum_congr rfl fun l _ => ?_
        ring
    _ = ∑ l ∈ Finset.range n, x l * if n ∣ l + j then (n : ℂ) else 0 := by
        rw [Finset.sum_comm]
        simp only [← Finset.mul_sum, sum_unitRoot_pow (Nat.ne_zero_of_lt hk)]
    _ = x k * n := by
        rw [Finset.sum_eq_single k (fun l hl hne => by rw [if_neg (hbin l hl hne), mul_zero])
          (fun hk' => absurd (Finset.mem_range.2 hk) hk'), if_pos h]
    _ = n * x k := mul_comm ..

/-! ## The inverse transform in exact arithmetic -/

theorem Cpx.toComplex_injective : Function.Injective Cpx.toComplex := fun ⟨a, b⟩ ⟨c, d⟩ h => by
  obtain ⟨rfl, rfl⟩ : a = c ∧ b = d := Complex.mk.inj h
  rfl

theorem ExactArith.cscale {A : Arith ℝ} (hA : ExactArith A) (lg : Nat) (z : Cpx ℝ) :
    (A.cscale (A.scale lg) z).toComplex = ((2 ^ lg : Nat) : ℂ)⁻¹ * z.toComplex := by
  have hscale : ((2 ^ lg : Nat) : ℂ)⁻¹ = ((A.scale lg : ℝ) : ℂ) := by
    rw [hA.scale]
    push_cast
    rfl
  rw [hscale]
  apply Complex.ext <;> simp [Arith.cscale, Cpx.toComplex, hA.mul, mul_comm]

/-- The inverse transform is the DFT, divided by N and read backwards (R190). -/
theorem ExactArith.at_inverse {A : Arith ℝ} (hA : ExactArith A) {lg : Nat} (hlg : 3 ≤ lg) (x : List (Cpx ℝ))
    {k : Nat} (hk : k < 2 ^ lg) : (A.at (A.inverse lg x) k).toComplex =
      ((2 ^ lg : Nat) : ℂ)⁻¹ * referenceDft (2 ^ lg) (fun m => (A.at x m).toComplex) ((2 ^ lg - k) % 2 ^ lg) := by
  rw [Arith.inverse, A.at_invPost (by omega) (A.fwd_length lg x) hk, hA.cscale,
    forwardIsTheDft A hA lg x hlg _ (Nat.mod_lt _ (Nat.two_pow_pos lg))]

/-- Settles O56: the inverse transform reads the DFT of the DFT backwards, and divides it by N. -/
theorem inverseUndoesForward : Obligations.InverseUndoesForward := by
  intro A hA lg x hlg k hk
  have hN : ((2 ^ lg : Nat) : ℂ) ≠ 0 := Nat.cast_ne_zero.2 (Nat.two_pow_pos lg).ne'
  have hback : 2 ^ lg ∣ k + (2 ^ lg - k) % 2 ^ lg := by
    rw [Nat.dvd_iff_mod_eq_zero, Nat.add_mod_mod, Nat.add_sub_cancel' hk.le, Nat.mod_self]
  apply Cpx.toComplex_injective
  rw [hA.at_inverse hlg _ hk, referenceDft_congr (forwardIsTheDft A hA lg x hlg), referenceDft_referenceDft _ hk hback,
    inv_mul_cancel_left₀ hN]

end Sys2Proof.Machine
end

section
/-!
PROOF. The checks of the overlap-add commands (spec/43_overlap_add.md rules R210, R216 to R223 and R226): the transform
size, what each check list says where it passes, and which code it names where it fails.
-/
namespace Sys2Proof.Machine

/-! ## The transform size -/

/-- Settles O29: the search runs upwards, so that it finds the least exponent, and it ends at LOG2N_MAX. -/
theorem transformSizeRule : Obligations.TransformSizeRule := by
  intro b l bl lg
  unfold nfftLg
  by_cases hrange : l = 0 ∨ bl = 0 ∨ b.nmax < l ∨ b.nmax < bl
  · rw [if_pos hrange]
    exact ⟨nofun, fun ⟨_, _⟩ => by omega⟩
  · have hlengths : 1 ≤ l ∧ 1 ≤ bl ∧ l ≤ b.nmax ∧ bl ≤ b.nmax := by omega
    rw [if_neg hrange, List.find?_range_eq_some]
    simp only [Bool.and_eq_true, decide_eq_true_eq, List.mem_range, Bool.not_eq_true', Bool.and_eq_false_iff,
      decide_eq_false_iff_not]
    constructor
    · rintro ⟨⟨h3, hholds⟩, hmax, hleast⟩
      refine ⟨hlengths, h3, hholds, fun lg' h3' hholds' => ?_, by omega⟩
      by_contra hlt
      exact (hleast lg' (by omega)).elim (· h3') (· hholds')
    · rintro ⟨-, h3, hholds, hleast, hmax⟩
      refine ⟨⟨h3, hholds⟩, by omega, fun lg' hlt => ?_⟩
      by_contra hboth
      have := hleast lg' (by tauto) (by tauto)
      omega

/-! ## What the single checks say -/

theorem contextOk_iff (b : Build) (c : Nat) : contextOk b c = true ↔ c < b.nctx := decide_eq_true_iff

theorem contextInUse_iff (s : State) (c : Nat) : contextInUse s c = true ↔ (s.ctx c).st ≠ .free := bne_iff_ne

theorem noSlaves_iff (s : State) (c : Nat) : noSlaves s c = true ↔ ∀ d, ¬ SlaveOf s c d :=
  beq_iff_eq.trans (nslaves_eq_zero_iff s c)

/-! ## What a passing list of checks says -/

theorem checkOcfg_pass_iff (c kb : Nat) (a0 a1 : Word) (s : State) :
    checkOcfg c kb a0 a1 s = none ↔
      c < s.build.nctx ∧ (∀ d, ¬ SlaveOf s c d) ∧ kb < s.build.nbank ∧ nfftLg s.build a0.toNat a1.toNat ≠ none := by
  simp [checkOcfg, firstFail_eq_none_iff, contextOk_iff, noSlaves_iff, bankOk, Option.isSome_iff_ne_none]

theorem checkOcfgs_pass_iff (c m kb : Nat) (a0 a1 : Word) (s : State) :
    checkOcfgs c m kb a0 a1 s = none ↔
      (c < s.build.nctx ∧ m < s.build.nctx ∧ m ≠ c) ∧ (∀ d, ¬ SlaveOf s c d) ∧
        ((s.ctx m).st ≠ .free ∧ (s.ctx m).st ≠ .slave) ∧ kb < s.build.nbank ∧ a0.toNat = (s.ctx m).klen ∧
        1 ≤ a1.toNat ∧ a0.toNat + a1.toNat - 1 ≤ 2 ^ (s.ctx m).lgfft := by
  simp [checkOcfgs, firstFail_eq_none_iff, contextOk_iff, noSlaves_iff, contextInUse_iff, bankOk, and_assoc]

theorem checkOini_pass_iff (c : Nat) (a0 a1 : Word) (s : State) :
    checkOini c a0 a1 s = none ↔ c < s.build.nctx ∧ (s.ctx c).st ≠ .free := by
  simp [checkOini, firstFail_eq_none_iff, contextOk_iff, contextInUse_iff]

theorem checkOclr_pass_iff (c : Nat) (a0 a1 : Word) (s : State) :
    checkOclr c a0 a1 s = none ↔ c < s.build.nctx ∧ ∀ d, ¬ SlaveOf s c d := by
  simp [checkOclr, firstFail_eq_none_iff, contextOk_iff, noSlaves_iff]

/-! ## Going through a list of checks -/

theorem firstFail_pass {b : Bool} (h : b = true) (e : ErrCode) (l : List (Bool × ErrCode)) :
    firstFail ((b, e) :: l) = firstFail l := by simp [firstFail, h]

theorem firstFail_fail {b : Bool} (h : ¬ b = true) (e : ErrCode) (l : List (Bool × ErrCode)) :
    firstFail ((b, e) :: l) = some e := by simp [firstFail, h]

/-- A command whose checks from some point on all name one code is rejected with it, where those before pass and not
all pass. -/
theorem rejects_of_rest {i : Instr} {e : ErrCode} {s : State} {rest : List (Bool × ErrCode)} (hs : s.seq = .idle)
    (hrest : checkOf i s.arg0 s.arg1 s = firstFail rest) (hcode : ∀ x ∈ rest, x.2 = e)
    (hfail : checkOf i s.arg0 s.arg1 s ≠ none) : Rejects i e s :=
  rejects_of_check hs (hrest.trans (firstFail_of_one_code hcode (hrest ▸ hfail)))

/-! ## Rejection -/

section
variable {i : Instr} {s : State} {c : Nat} {rest : List (Bool × ErrCode)}

/-- Every context command first checks that the context is one of the build (R222). -/
theorem rejects_absent (hs : s.seq = .idle)
    (hi : checkOf i s.arg0 s.arg1 s = firstFail ((contextOk s.build c, .invalidArg) :: rest)) (h : s.build.nctx ≤ c) :
    Rejects i .invalidArg s :=
  rejects_of_check hs (hi.trans (firstFail_fail (mt (contextOk_iff s.build c).1 (Nat.not_lt.2 h)) ..))

/-- OFLT, OFLS and OINI then check that the context is configured (R218 to R220). -/
theorem rejects_unconfigured (hs : s.seq = .idle)
    (hi : checkOf i s.arg0 s.arg1 s =
      firstFail ((contextOk s.build c, .invalidArg) :: (contextInUse s c, .invalidState) :: rest))
    (hc : c < s.build.nctx) (h : (s.ctx c).st = .free) : Rejects i .invalidState s :=
  rejects_of_check hs (hi.trans ((firstFail_pass ((contextOk_iff s.build c).2 hc) ..).trans
    (firstFail_fail (fun hu => (contextInUse_iff s c).1 hu h) ..)))

/-- OCFG and OCLR then check that the context has no slaves (R216, R221, R226). -/
theorem rejects_master (hs : s.seq = .idle)
    (hi : checkOf i s.arg0 s.arg1 s =
      firstFail ((contextOk s.build c, .invalidArg) :: (noSlaves s c, .invalidState) :: rest))
    (hc : c < s.build.nctx) {d : Nat} (h : SlaveOf s c d) : Rejects i .invalidState s :=
  rejects_of_check hs (hi.trans ((firstFail_pass ((contextOk_iff s.build c).2 hc) ..).trans
    (firstFail_fail (fun hn => (noSlaves_iff s c).1 hn d h) ..)))

/-- Where the first two checks pass and those behind them name INVALID_ARG, a command that fails is rejected with it. -/
theorem rejects_behind_state {e : ErrCode} {b : Bool} (hs : s.seq = .idle)
    (hi : checkOf i s.arg0 s.arg1 s = firstFail ((contextOk s.build c, .invalidArg) :: (b, e) :: rest))
    (hc : c < s.build.nctx) (hb : b = true) (hcode : ∀ x ∈ rest, x.2 = .invalidArg)
    (hfail : checkOf i s.arg0 s.arg1 s ≠ none) : Rejects i .invalidArg s :=
  rejects_of_rest hs (hi.trans ((firstFail_pass ((contextOk_iff s.build c).2 hc) ..).trans (firstFail_pass hb ..)))
    hcode hfail

end

/-! ## OCFGS -/

section
variable {s : State} {c m kb : Nat} {a0 a1 : Word}

/-- A master that does not exist or is the context itself fails the second or the third check (R217). -/
theorem checkOcfgs_no_master (hc : c < s.build.nctx) (hm : s.build.nctx ≤ m ∨ m = c) :
    checkOcfgs c m kb a0 a1 s = some .invalidArg := by
  refine (firstFail_pass ((contextOk_iff s.build c).2 hc) ..).trans ?_
  by_cases hmn : m < s.build.nctx
  · refine (firstFail_pass ((contextOk_iff s.build m).2 hmn) ..).trans (firstFail_fail (fun hne => ?_) ..)
    exact bne_iff_ne.1 hne (hm.resolve_left (Nat.not_le.2 hmn))
  · exact firstFail_fail (mt (contextOk_iff s.build m).1 hmn) ..

variable (hc : c < s.build.nctx) (hm : m < s.build.nctx) (hmc : m ≠ c)
include hc hm hmc

/-- With two contexts of the build the checks begin at the fourth (R217). -/
theorem checkOcfgs_of_two_contexts :
    checkOcfgs c m kb a0 a1 s = firstFail
      [(noSlaves s c, .invalidState), (contextInUse s m, .invalidState), ((s.ctx m).st != .slave, .invalidArg),
        (bankOk s.build kb, .invalidArg), (a0.toNat == (s.ctx m).klen, .invalidArg),
        (decide (1 ≤ a1.toNat) && decide (a0.toNat + a1.toNat - 1 ≤ 2 ^ (s.ctx m).lgfft), .invalidArg)] :=
  (firstFail_pass ((contextOk_iff s.build c).2 hc) ..).trans
    ((firstFail_pass ((contextOk_iff s.build m).2 hm) ..).trans (firstFail_pass (bne_iff_ne.2 hmc) ..))

theorem checkOcfgs_of_a_master {d : Nat} (h : SlaveOf s c d) : checkOcfgs c m kb a0 a1 s = some .invalidState :=
  (checkOcfgs_of_two_contexts hc hm hmc).trans (firstFail_fail (fun hn => (noSlaves_iff s c).1 hn d h) ..)

variable (hn : ∀ d, ¬ SlaveOf s c d)
include hn

theorem checkOcfgs_free_master (h : (s.ctx m).st = .free) : checkOcfgs c m kb a0 a1 s = some .invalidState :=
  (checkOcfgs_of_two_contexts hc hm hmc).trans ((firstFail_pass ((noSlaves_iff s c).2 hn) ..).trans
    (firstFail_fail (fun hu => (contextInUse_iff s m).1 hu h) ..))

/-- With a configured master all further checks name INVALID_ARG (R217). -/
theorem checkOcfgs_fail (hu : (s.ctx m).st ≠ .free) (hfail : checkOcfgs c m kb a0 a1 s ≠ none) :
    checkOcfgs c m kb a0 a1 s = some .invalidArg := by
  have hrest := (checkOcfgs_of_two_contexts (kb := kb) (a0 := a0) (a1 := a1) hc hm hmc).trans
    ((firstFail_pass ((noSlaves_iff s c).2 hn) ..).trans (firstFail_pass ((contextInUse_iff s m).2 hu) ..))
  exact hrest.trans (firstFail_of_one_code (by simp) (hrest ▸ hfail))

end

/-- Settles O12: the failing check of each clause, behind those that pass. -/
theorem contextCommandsRejected : Obligations.ContextCommandsRejected := by
  intro s hs
  refine ⟨fun c h m kb ib ob => ⟨rejects_absent hs rfl h, rejects_absent hs rfl h, rejects_absent hs rfl h,
    rejects_absent hs rfl h, rejects_absent hs rfl h, rejects_absent hs rfl h⟩,
    fun c hc => ⟨?free, ?inUse, ?ocfg, ?noMaster,
    fun hn m kb hm hmc => ⟨?freeMaster, ?slaveMaster, ?ownerMaster⟩⟩⟩
  case free =>
    exact fun h ib ob => ⟨rejects_unconfigured hs rfl hc h, rejects_unconfigured hs rfl hc h,
      rejects_unconfigured hs rfl hc h⟩
  case inUse =>
    refine fun hu ib ob => ⟨fun h => ?_, fun h => ?_⟩
    · refine rejects_behind_state hs rfl hc ((contextInUse_iff s c).2 hu) (by simp) fun hp => ?_
      obtain ⟨-, -, ⟨_, _⟩, _, _⟩ := (checkOflt_pass_iff c ib ob s.arg0 s.arg1 s).1 hp
      omega
    · refine rejects_behind_state hs rfl hc ((contextInUse_iff s c).2 hu) (by simp) fun hp => ?_
      obtain ⟨-, -, _, _⟩ := (checkOfls_pass_iff c ob s.arg0 s.arg1 s).1 hp
      omega
  case ocfg =>
    refine fun hn kb h => rejects_behind_state hs rfl hc ((noSlaves_iff s c).2 hn) (by simp) fun hp => ?_
    obtain ⟨-, -, hkb, hsize⟩ := (checkOcfg_pass_iff c kb s.arg0 s.arg1 s).1 hp
    exact h.elim (Nat.not_le.2 hkb) hsize
  case noMaster => exact fun m kb h => rejects_of_check hs (checkOcfgs_no_master hc h)
  case freeMaster => exact fun h => rejects_of_check hs (checkOcfgs_free_master hc hm hmc hn h)
  case slaveMaster =>
    refine fun h => rejects_of_check hs (checkOcfgs_fail hc hm hmc hn (by simp [h]) fun hp => ?_)
    obtain ⟨-, -, ⟨-, hslave⟩, -⟩ := (checkOcfgs_pass_iff c m kb s.arg0 s.arg1 s).1 hp
    exact hslave h
  case ownerMaster =>
    refine fun ho h => rejects_of_check hs (checkOcfgs_fail hc hm hmc hn (by simp [ho]) fun hp => ?_)
    obtain ⟨-, -, -, hkb, hk, hb, hfit⟩ := (checkOcfgs_pass_iff c m kb s.arg0 s.arg1 s).1 hp
    omega

/-! ## The lifetime of a master -/

/-- Every command but OCFG, OCFGS and OCLR keeps the configuration of every context (R226). -/
theorem effectOf_config {i : Instr} (ho : ∀ c kb, i ≠ .ocfg c kb) (hs : ∀ c m kb, i ≠ .ocfgs c m kb)
    (hr : ∀ c, i ≠ .oclr c) (a0 a1 : Word) (s : State) (d : Nat) :
    ((effectOf i a0 a1 s).ctx d).config = (s.ctx d).config := by
  cases i with
  | nop => rfl
  | cfg lg => rfl
  | link xr xi yr yi => rfl
  | cfgl xr xi yr yi lg => rfl
  | fwd => exact congrArg Context.config (ctx_congr (storeDest_ctxs _ s) d)
  | inv => exact congrArg Context.config (ctx_congr (storeDest_ctxs _ s) d)
  | fwdl xr xi yr yi => exact congrArg Context.config (ctx_congr (storeDest_ctxs _ (bind xr xi yr yi s)) d)
  | invl xr xi yr yi => exact congrArg Context.config (ctx_congr (storeDest_ctxs _ (bind xr xi yr yi s)) d)
  | prod xr xi yr yi sign => exact congrArg Context.config (ctx_congr (product_ctxs xr xi yr yi sign _ s) d)
  | ocfg c kb => exact absurd rfl (ho c kb)
  | ocfgs c m kb => exact absurd rfl (hs c m kb)
  | oflt c ib ob => exact (config_emit c ob a1.toNat (olaStep c ib a0.toNat s) d).trans (config_setAcc c _ s d)
  | ofls c ob => exact config_emit c ob a1.toNat s d
  | oini c => exact config_setAcc c _ s d
  | oclr c => exact absurd rfl (hr c)

/-- Settles O37: the three refusals of R226, and the configurations that the other commands keep. -/
theorem masterLifetime : Obligations.MasterLifetime := by
  refine ⟨fun s c d hs hc h kb => ⟨rejects_master hs rfl hc h, rejects_master hs rfl hc h, fun m hm hmc => ?_⟩,
    fun i a0 a1 s d ho hsl hr => (Context.config_eq_iff.1 (effectOf_config ho hsl hr a0 a1 s d)).1⟩
  exact rejects_of_check hs (checkOcfgs_of_a_master hc hm hmc h)

end Sys2Proof.Machine
end

section
/-!
PROOF. The two sub-engines are isolated (spec/43_overlap_add.md rule R227): replacing the facade and its node table
commutes with every context command, and replacing the contexts with every facade command.
-/
namespace Sys2Proof.Machine

/-- The state with another facade and node table. -/
def State.withFacade (f : Facade) (nt : List Node) (s : State) : State := { s with facade := f, nodes := nt }

/-- The state with other contexts. -/
def State.withContexts (cs : List Context) (s : State) : State := { s with ctxs := cs }

theorem setBlock_withFacade (f : Facade) (nt : List Node) (s : State) (bank j : Nat) (vs : List Sample) :
    (s.withFacade f nt).setBlock bank j vs = (s.setBlock bank j vs).withFacade f nt := by
  induction vs generalizing s j with
  | nil => rfl
  | cons v vs ih => exact ih (s.setSample bank j v) (j + 1)

theorem emit_withFacade (f : Facade) (nt : List Node) (s : State) (c ob oo : Nat) :
    emit c ob oo (s.withFacade f nt) = (emit c ob oo s).withFacade f nt := by
  unfold emit
  dsimp only
  rw [setBlock_withFacade]
  rfl

theorem setBlock_withContexts (cs : List Context) (s : State) (bank j : Nat) (vs : List Sample) :
    (s.withContexts cs).setBlock bank j vs = (s.setBlock bank j vs).withContexts cs := by
  induction vs generalizing s j with
  | nil => rfl
  | cons v vs ih => exact ih (s.setSample bank j v) (j + 1)

theorem storeDest_withContexts (cs : List Context) (s : State) (ys : List (Cpx Sample)) :
    storeDest ys (s.withContexts cs) = (storeDest ys s).withContexts cs := by
  unfold storeDest
  rw [setBlock_withContexts]
  exact setBlock_withContexts ..

theorem product_withContexts (cs : List Context) (s : State) (xr xi yr yi : Nat) (sign : Sign) (l : List Nat) :
    l.foldl (productAt xr xi yr yi sign) (s.withContexts cs) =
      (l.foldl (productAt xr xi yr yi sign) s).withContexts cs := by
  induction l generalizing s with
  | nil => rfl
  | cons k l ih => exact ih (productAt xr xi yr yi sign s k)

/-- Settles O36: the checks do not mention the other sub-engine, and of the effects only EMIT, the transforms and the
product do not show it by their form. -/
theorem subEnginesAreIsolated : Obligations.SubEnginesAreIsolated := by
  refine fun a0 a1 s => ⟨fun f nt c m kb ib ob => ?context, fun cs xr xi yr yi lg sign => ?facade⟩ <;>
    simp only [List.forall_mem_cons, List.not_mem_nil, false_imp_iff, implies_true, and_true]
  case context =>
    refine ⟨?ocfg, ?ocfgs, ?oflt, ?ofls, ?oini, ?oclr⟩
    case oflt => exact ⟨rfl, emit_withFacade f nt (olaStep c ib a0.toNat s) c ob a1.toNat⟩
    case ofls => exact ⟨rfl, emit_withFacade f nt s c ob a1.toNat⟩
    all_goals exact ⟨rfl, rfl⟩
  case facade =>
    refine ⟨?nop, ?cfg, ?link, ?cfgl, ?fwd, ?inv, ?fwdl, ?invl, ?prod⟩
    case fwd => exact ⟨rfl, storeDest_withContexts cs s _⟩
    case inv => exact ⟨rfl, storeDest_withContexts cs s _⟩
    case fwdl => exact ⟨rfl, storeDest_withContexts cs (bind xr xi yr yi s) _⟩
    case invl => exact ⟨rfl, storeDest_withContexts cs (bind xr xi yr yi s) _⟩
    case prod => exact ⟨rfl, product_withContexts cs s xr xi yr yi sign _⟩
    all_goals exact ⟨rfl, rfl⟩

end Sys2Proof.Machine
end

section
/-!
PROOF. The results of the overlap-add commands (spec/43_overlap_add.md rules R212 to R221) where they complete at once:
the two commands that emit a block, the two that configure a context, and those that clear or release one.
-/
namespace Sys2Proof.Machine

/-! ## Entries of the context memories -/

section
variable {s : State} {c : Nat} (hc : c < s.ctxs.length) {x : Context}
include hc

theorem State.krAt_setCtx (h : x.kr = (s.ctx c).kr) (k : Nat) : (s.setCtx c x).krAt c k = s.krAt c k := by
  rw [State.krAt, State.krAt, State.ctx_setCtx_same s c x hc, h]
  rfl

theorem State.kiAt_setCtx (h : x.ki = (s.ctx c).ki) (k : Nat) : (s.setCtx c x).kiAt c k = s.kiAt c k := by
  rw [State.kiAt, State.kiAt, State.ctx_setCtx_same s c x hc, h]
  rfl

theorem State.accAt_setCtx (h : x.acc = (s.ctx c).acc) (j : Nat) : (s.setCtx c x).accAt c j = s.accAt c j := by
  rw [State.accAt, State.accAt, State.ctx_setCtx_same s c x hc, h]
  rfl

end

theorem EntriesFit.accAt {s : State} (h : EntriesFit s) (c j : Nat) : Fits s.build.prec (s.accAt c j) :=
  (h.ctx c).acc.getD (s.unwrittenEntry_fits c 2 j) j

/-! ## OINI and OCLR -/

/-- Settles O27: the effect is `clearAcc`. -/
theorem initialiseResult : Obligations.InitialiseResult := by
  intro s c h hlen hc hu
  obtain ⟨hctx, hothers, hacc⟩ := clearAcc_spec (hlen ▸ hc : c < s.ctxs.length)
  refine ⟨_, exec_atOnce h ((checkOini_pass_iff c s.arg0 s.arg1 s).2 ⟨hc, hu⟩), ⟨rfl, ctxs_length_setAcc .., hothers⟩,
    ⟨fun j hj => ?below, fun j hj => ?above⟩, hctx⟩
  case below => exact (hacc j).trans (if_pos hj)
  case above => exact (hacc j).trans (if_neg (Nat.not_lt.2 hj))

/-- A slave that is replaced by a context that is none is one slave fewer of its master (R45). -/
theorem nslaves_setCtx {s : State} {c : Nat} (hc : c < s.ctxs.length) {x : Context} (hs : (s.ctx c).st = .slave)
    (hx : x.st ≠ .slave) : (s.setCtx c x).nslaves (s.ctx c).master + 1 = s.nslaves (s.ctx c).master := by
  have hctx : s.ctxs[c] = s.ctx c := by simp [State.ctx, hc]
  have hpos : s.nslaves (s.ctx c).master ≠ 0 := fun h0 => (nslaves_eq_zero_iff _ _).1 h0 c ⟨hc, hs, rfl⟩
  unfold State.nslaves at hpos ⊢
  rw [State.setCtx_ctxs, List.countP_set hc, hctx]
  simp only [hs, beq_eq_false_iff_ne.2 hx, beq_self_eq_true, Bool.and_self, Bool.false_and, Bool.false_eq_true, if_true,
    if_false]
  omega

/-- Settles O28: the effect sets the context, whose memories it keeps. -/
theorem releaseResult : Obligations.ReleaseResult := by
  intro s c h hlen hc hn
  have hc' : c < s.ctxs.length := hlen ▸ hc
  exact ⟨_, exec_atOnce h ((checkOclr_pass_iff c s.arg0 s.arg1 s).2 ⟨hc, hn⟩),
    ⟨rfl, List.length_set, fun d hd => State.ctx_setCtx_ne s _ hd⟩, State.ctx_setCtx_same s c _ hc',
    fun hs => nslaves_setCtx hc' hs nofun⟩

/-! ## OCFG and OCFGS -/

theorem Context.eq_of_config {x : Context} {st : ContextKind} {m l bl lg : Nat} (h : x.config = (st, m, l, bl, lg)) :
    x = { x with st := st, master := m, klen := l, blk := bl, lgfft := lg } := by
  cases h
  rfl

/-- In t context c retains the kernel spectrum of the first l samples of bank kb, for the transform size 2^lg, and the
later entries are as in s (R212). -/
abbrev SpectrumIs (s t : State) (c kb l lg : Nat) : Prop :=
  (∀ k < 2 ^ lg, (⟨t.krAt c k, t.kiAt c k⟩ : Cpx Sample) =
    (arithOf s.build).at ((arithOf s.build).kernelSpectrum lg (s.block kb 0 l)) k) ∧
  ∀ k, 2 ^ lg ≤ k → t.krAt c k = s.krAt c k ∧ t.kiAt c k = s.kiAt c k

/-- KSPEC and the clearing behind it set the entries below the transform size, of KR, KI and ACC, and no later ones
(R212, R216). -/
theorem clearAcc_kspec_spec {s t : State} {c kb : Nat} (ht : t = clearAcc c (kspec c kb s)) (hc : c < s.ctxs.length) :
    (∀ d, d ≠ c → t.ctx d = s.ctx d) ∧ AccIs s t c (2 ^ (s.ctx c).lgfft) (fun _ => plusZero) ∧
    SpectrumIs s t c kb (s.ctx c).klen (s.ctx c).lgfft := by
  subst ht
  have hc' : c < (kspec c kb s).ctxs.length := hc.trans_eq List.length_set.symm
  obtain ⟨hspectrum, hothers, hbelow, habove⟩ := kspec_spec hc kb
  obtain ⟨-, hothers', hacc⟩ := clearAcc_spec hc'
  have hkr : ∀ k, (clearAcc c (kspec c kb s)).krAt c k = (kspec c kb s).krAt c k := State.krAt_setCtx hc' (by rfl)
  have hki : ∀ k, (clearAcc c (kspec c kb s)).kiAt c k = (kspec c kb s).kiAt c k := State.kiAt_setCtx hc' (by rfl)
  have hold : ∀ j, (kspec c kb s).accAt c j = s.accAt c j := State.accAt_setCtx hc (by rfl)
  have hlg : ((kspec c kb s).ctx c).lgfft = (s.ctx c).lgfft := by rw [hspectrum]
  rw [hlg] at hacc
  simp only [SpectrumIs, hkr, hki]
  refine ⟨fun d hd => (hothers' d hd).trans (hothers d hd), ⟨fun j hj => ?accBelow, fun j hj => ?accAbove⟩, hbelow,
    habove⟩
  case accBelow => exact (hacc j).trans (if_pos hj)
  case accAbove => exact (hacc j).trans ((if_neg (Nat.not_lt.2 hj)).trans (hold j))

/-- Configuring a context sets its configuration, its spectrum and its accumulator, and nothing else (R212, R216,
R217). -/
theorem configureContext_spec {s t : State} {c kb : Nat} {st : ContextKind} {m l bl lg : Nat}
    (ht : t = configureContext c kb st m l bl lg s) (hc : c < s.ctxs.length) :
    t.ctx c = { (t.ctx c) with st := st, master := m, klen := l, blk := bl, lgfft := lg } ∧
    (∀ d, d ≠ c → t.ctx d = s.ctx d) ∧ AccIs s t c (2 ^ lg) (fun _ => plusZero) ∧
    SpectrumIs s t c kb l lg := by
  obtain ⟨hothers, ⟨hacc, hacc'⟩, hbelow, habove⟩ := clearAcc_kspec_spec ht (hc.trans_eq List.length_set.symm)
  rw [State.ctx_setCtx_same s c _ hc] at hacc hacc' hbelow habove
  refine ⟨?config, fun d hd => ?others, ⟨hacc, fun j hj => ?accumulator⟩, hbelow, fun k hk => ?spectrum⟩
  case config =>
    rw [ht]
    exact Context.eq_of_config ((config_configureContext hc kb st m l bl lg c).trans (if_pos rfl))
  case others => exact (hothers d hd).trans (State.ctx_setCtx_ne s _ hd)
  case accumulator => exact (hacc' j hj).trans (State.accAt_setCtx hc (by rfl) j)
  case spectrum =>
    obtain ⟨hr, hi⟩ := habove k hk
    exact ⟨hr.trans (State.krAt_setCtx hc (by rfl) k), hi.trans (State.kiAt_setCtx hc (by rfl) k)⟩

/-- A command that completes at once with the effect of configuring a context. -/
theorem exec_configureContext {i : Instr} {s : State} {c kb : Nat} {st : ContextKind} {m l bl lg : Nat}
    (h : ReadyAtOnce s) (hcheck : checkOf i s.arg0 s.arg1 s = none)
    (he : effectOf i s.arg0 s.arg1 s = configureContext c kb st m l bl lg s) (hc : c < s.ctxs.length) :
    ∃ t, exec i s = .next t ∧ OnlyContext c s t ∧ AccIs s t c (2 ^ lg) (fun _ => plusZero) ∧
      t.ctx c = { (t.ctx c) with st := st, master := m, klen := l, blk := bl, lgfft := lg } ∧
      SpectrumIs s t c kb l lg := by
  obtain ⟨hconfig, hothers, hacc, hbelow, habove⟩ := configureContext_spec he hc
  refine ⟨_, exec_atOnce h hcheck, ⟨?state, ?length, hothers⟩, hacc, hconfig, hbelow, habove⟩
  case state => rw [he]; rfl
  case length => rw [he]; exact configureContext_length ..

/-- Settles O24: both commands configure the context, OCFG for its own transform size and OCFGS for its master's. -/
theorem contextConfigurationResult : Obligations.ContextConfigurationResult := by
  refine fun s c kb h hlen hc hn hkb => ⟨fun lg hlg => ?ocfg, fun m lg hm hmc ho hk hlg hb hfit => ?ocfgs⟩
  case ocfg =>
    refine exec_configureContext h ?check ?effect (hlen ▸ hc)
    case check => exact (checkOcfg_pass_iff c kb s.arg0 s.arg1 s).2 ⟨hc, hn, hkb, by simp [hlg]⟩
    case effect => simp [effectOf, effectOcfg, hlg]
  case ocfgs =>
    subst hlg
    exact exec_configureContext h ((checkOcfgs_pass_iff c m kb s.arg0 s.arg1 s).2
      ⟨⟨hc, hm, hmc⟩, hn, by simp [ho], hkb, hk.symm, hb, hfit⟩) rfl (hlen ▸ hc)

/-! ## OFLT and OFLS -/

/-- u is s with other entries in the accumulator of context c. -/
structure OnlyAccumulator (c : Nat) (s u : State) : Prop where
  state : u = { s with ctxs := u.ctxs }
  length : u.ctxs.length = s.ctxs.length
  ctx : u.ctx c = { s.ctx c with acc := (u.ctx c).acc }
  others : ∀ d, d ≠ c → u.ctx d = s.ctx d

theorem OnlyAccumulator.refl (c : Nat) (s : State) : OnlyAccumulator c s s := ⟨rfl, rfl, rfl, fun _ _ => rfl⟩

theorem OnlyAccumulator.olaStep {s : State} {c : Nat} (hc : c < s.ctxs.length) (ib io : Nat) :
    OnlyAccumulator c s (olaStep c ib io s) := by
  obtain ⟨hctx, hothers, -⟩ := olaStep_spec hc ib io
  exact ⟨rfl, ctxs_length_setAcc .., hctx, hothers⟩

/-- EMIT stores the first B accumulator entries whole (R215). -/
theorem sample_emit {s : State} {c ob oo : Nat} (hb : (s.ctx c).blk ≤ 2 ^ (s.ctx c).lgfft)
    (hoo : oo + (s.ctx c).blk ≤ s.build.nmax) {j : Nat} (hj : j < (s.ctx c).blk)
    (hfit : Fits s.build.prec (s.accAt c j)) : (emit c ob oo s).sample ob (oo + j) = s.accAt c j := by
  have hlength : ((accOf s c).take (s.ctx c).blk).length = (s.ctx c).blk := by simp [accOf_length, hb]
  calc (emit c ob oo s).sample ob (oo + j)
      = (s.setBlock ob oo ((accOf s c).take (s.ctx c).blk)).sample ob (oo + j) := rfl
    _ = BitVec.ofNat 64 ((s.accAt c j).toNat % 256 ^ s.build.wb) := by
        rw [State.sample_setBlock_in _ _ _ _ _ (by rwa [hlength]) (by rwa [hlength])]
        simp [accOf]
    _ = s.accAt c j := ofNat_toNat_mod hfit

/-- A command that completes at once with the effect of EMIT from an accumulator that holds `sums` below the transform
size: it stores the first B of them and shifts the others down, with +0 behind (R215). -/
theorem exec_emit {i : Instr} {s u : State} {c ob : Nat} {sums : Nat → Sample} (h : ReadyAtOnce s)
    (hcheck : checkOf i s.arg0 s.arg1 s = none) (he : effectOf i s.arg0 s.arg1 s = emit c ob s.arg1.toNat u)
    (hC : ContextsOk s) (hc : c < s.build.nctx) (ho : s.arg1.toNat ≤ s.build.nmax - (s.ctx c).blk)
    (hu : OnlyAccumulator c s u) (hsums : AccIs s u c (2 ^ (s.ctx c).lgfft) sums)
    (hfit : ∀ j < (s.ctx c).blk, Fits s.build.prec (sums j)) :
    ∃ t, exec i s = .next t ∧ t = { s with ctxs := t.ctxs, mem := t.mem, done := true, delays := s.delays.tail } ∧
      (∀ j < (s.ctx c).blk, t.sample ob (s.arg1.toNat + j) = sums j) ∧
      (∀ a, OutsideSpan s.build ob s.arg1.toNat (s.ctx c).blk a → t.byte a = s.byte a) ∧
      AccIs s t c (2 ^ (s.ctx c).lgfft)
        (fun j => if j < 2 ^ (s.ctx c).lgfft - (s.ctx c).blk then sums (j + (s.ctx c).blk) else plusZero) ∧
      t.ctx c = { (s.ctx c) with acc := (t.ctx c).acc } ∧ (∀ d, d ≠ c → t.ctx d = s.ctx d) := by
  obtain ⟨hstate, hlen, hctx, hothers⟩ := hu
  obtain ⟨hbelow, habove⟩ := hsums
  obtain ⟨hmax, hblk⟩ := hC.blk_le hc
  have hbuild : u.build = s.build := by rw [hstate]
  have hb : (u.ctx c).blk = (s.ctx c).blk := by rw [hctx]
  have hl : (u.ctx c).lgfft = (s.ctx c).lgfft := by rw [hctx]
  have hcu : c < u.ctxs.length := hc.trans_eq (hC.1.symm.trans hlen.symm)
  obtain ⟨-, hectx, heothers, heacc⟩ := emit_spec hcu ob s.arg1.toNat (by rwa [hb, hl])
  rw [hb, hl] at heacc
  refine ⟨_, exec_atOnce h hcheck, ?_⟩
  rw [he]
  refine ⟨?state, fun j hj => ?sample, fun a ha => ?byte,
    ⟨fun j hj => ?accBelow, fun j hj => ?accAbove⟩, ?ctx, fun d hd => ?others⟩
  case state => rw [emit_eq, hstate]
  case sample =>
    have hj' := hbelow j (by omega)
    refine (sample_emit (by rwa [hb, hl]) (by rw [hb, hbuild]; omega) (hb ▸ hj) ?_).trans hj'
    rw [hj', hbuild]
    exact hfit j hj
  case byte =>
    have hbyte : u.byte a = s.byte a := by rw [hstate]; rfl
    exact (byte_emit_outside (by rwa [hb, hbuild])).trans hbyte
  case accBelow =>
    refine (heacc j).trans ((if_pos hj).trans ?_)
    exact if_ctx_congr Iff.rfl (fun hlt => hbelow _ (by omega)) fun _ => rfl
  case accAbove => exact (heacc j).trans ((if_neg (Nat.not_lt.2 hj)).trans (habove j hj))
  case ctx => exact hectx.trans (by rw [hctx]; rfl)
  case others => exact (heothers d hd).trans (hothers d hd)

/-- Settles O25: the accumulator that is emitted holds the sums of OLA_STEP. -/
theorem filterResult : Obligations.FilterResult := by
  intro s c ib ob h hC hc hu hib hob hio hoo sums hsums
  have hc' : c < s.ctxs.length := hC.1 ▸ hc
  obtain ⟨-, -, hacc⟩ := olaStep_spec hc' ib s.arg0.toNat
  refine exec_emit h ((checkOflt_pass_iff c ib ob s.arg0 s.arg1 s).2 ⟨hc, hu, ⟨hib, hob⟩, hio, hoo⟩) rfl hC hc hoo
    (.olaStep hc' ib s.arg0.toNat) ⟨fun j hj => ?below, fun j hj => ?above⟩ fun j _ => ?fits
  case below => rw [hacc, if_pos hj, hsums]
  case above => rw [hacc, if_neg (Nat.not_lt.2 hj)]
  case fits =>
    rw [hsums]
    exact fadd_fits ..

/-- Settles O26: the accumulator is emitted as it stands. -/
theorem flushResult : Obligations.FlushResult := by
  intro s c ob h hC hE hc hu hob hoo
  exact exec_emit h ((checkOfls_pass_iff c ob s.arg0 s.arg1 s).2 ⟨hc, hu, hob, hoo⟩) rfl hC hc hoo (.refl c s)
    ⟨fun _ _ => rfl, fun _ _ => rfl⟩ fun j _ => hE.accAt c j

end Sys2Proof.Machine
end

section
/-!
PROOF. One block of overlap-add in exact arithmetic (spec/43_overlap_add.md rules R212, R214 and R228). A DFT of a
zero-padded sequence is the value of its polynomial at a power of the root of unity, so the product of two DFTs is the
DFT of the product polynomial, whose coefficients are the linear convolution: none wraps around where the transform size
holds it.
-/
namespace Sys2Proof.Machine

/-! ## Sequences as polynomials -/

/-- The polynomial whose coefficients are the values of the sequence. -/
noncomputable def sequencePolynomial (v : List ℝ) : Polynomial ℂ :=
  Polynomial.ofFn v.length fun m => (v.getD m 0 : ℂ)

theorem sequencePolynomial_coeff (v : List ℝ) (m : Nat) : (sequencePolynomial v).coeff m = (v.getD m 0 : ℂ) := by
  obtain h | h := Nat.lt_or_ge m v.length
  · rw [sequencePolynomial, Polynomial.ofFn_coeff_eq_val_of_lt _ h]
  · rw [sequencePolynomial, Polynomial.ofFn_coeff_eq_zero_of_ge _ h, List.getD_eq_default _ _ h, Complex.ofReal_zero]

theorem sequencePolynomial_natDegree_lt {v : List ℝ} (h : 1 ≤ v.length) : (sequencePolynomial v).natDegree < v.length :=
  Polynomial.ofFn_natDegree_lt h _

/-- The value of a polynomial of degree below n at W^k is bin k of the DFT of its coefficients. -/
theorem eval_unitRoot_pow {p : Polynomial ℂ} {n : Nat} (h : p.natDegree < n) (k : Nat) :
    p.eval (unitRoot n ^ k) = referenceDft n p.coeff k := by
  rw [Polynomial.eval_eq_sum_range' h, referenceDft_eq]
  refine Finset.sum_congr rfl fun m _ => ?_
  rw [← pow_mul, Nat.mul_comm k m]

/-- The product of two DFTs is the DFT of the coefficients of the product, where the size holds it (R228). -/
theorem referenceDft_mul {p q : Polynomial ℂ} {n : Nat} (h : p.natDegree + q.natDegree < n) (k : Nat) :
    referenceDft n p.coeff k * referenceDft n q.coeff k = referenceDft n (p * q).coeff k := by
  rw [← eval_unitRoot_pow (by omega), ← eval_unitRoot_pow (by omega),
    ← eval_unitRoot_pow (Polynomial.natDegree_mul_le.trans_lt h), Polynomial.eval_mul]

/-- The coefficients of the product are the linear convolution (R228). -/
theorem coeff_mul_sequencePolynomial (u v : List ℝ) (t : Nat) :
    (sequencePolynomial u * sequencePolynomial v).coeff t =
      ((∑ m ∈ Finset.range (t + 1), u.getD m 0 * v.getD (t - m) 0 : ℝ) : ℂ) := by
  rw [Polynomial.coeff_mul, Finset.Nat.sum_antidiagonal_eq_sum_range_succ_mk, Complex.ofReal_sum]
  refine Finset.sum_congr rfl fun m _ => ?_
  rw [sequencePolynomial_coeff, sequencePolynomial_coeff, Complex.ofReal_mul]

/-! ## The pipeline -/

section
variable {α : Type} (A : Arith α)

theorem Arith.at_map_range (f : Nat → Cpx α) {n k : Nat} (hk : k < n) : A.at ((List.range n).map f) k = f k := by
  simp [Arith.at, hk]

/-- The product of the spectra that a block goes through (R214). -/
def Arith.blockSpectrum (lg : Nat) (spectrum : List (Cpx α)) (block : List α) : List (Cpx α) :=
  (List.range (2 ^ lg)).map fun k => A.cprod .plus (A.at spectrum k) (A.at (A.fwd lg (A.padded (2 ^ lg) block)) k)

/-- The pipeline takes the real part of the inverse transform of the product of the spectra (R214). -/
theorem Arith.olaBlock_getD (lg : Nat) (spectrum : List (Cpx α)) (block : List α) {t : Nat} (ht : t < 2 ^ lg) (d : α) :
    (A.olaBlock lg spectrum block).getD t d = (A.at (A.inverse lg (A.blockSpectrum lg spectrum block)) t).re := by
  unfold Arith.olaBlock Arith.blockSpectrum
  simp [Arith.at, List.getD_eq_getElem?_getD, ht]

end

section
variable {A : Arith ℝ} (hA : ExactArith A) {lg : Nat} (hlg : 3 ≤ lg)
include hA

/-- CPROD with sign +1 multiplies (R191). -/
theorem ExactArith.cprod_plus (x y : Cpx ℝ) : (A.cprod .plus x y).toComplex = x.toComplex * y.toComplex := hA.cmul x y

/-- The padded sequence holds the coefficients of its polynomial (R212, R214). -/
theorem ExactArith.at_padded {n : Nat} (v : List ℝ) {m : Nat} (hm : m < n) :
    (A.at (A.padded n v) m).toComplex = (sequencePolynomial v).coeff m := by
  rw [Arith.padded, A.at_map_range _ hm, hA.zero, sequencePolynomial_coeff]
  rfl

include hlg

/-- The transform of a padded sequence is the DFT of its coefficients. -/
theorem ExactArith.at_fwd_padded (v : List ℝ) {k : Nat} (hk : k < 2 ^ lg) :
    (A.at (A.fwd lg (A.padded (2 ^ lg) v)) k).toComplex = referenceDft (2 ^ lg) (sequencePolynomial v).coeff k := by
  rw [forwardIsTheDft A hA lg _ hlg k hk]
  exact referenceDft_congr (fun m hm => hA.at_padded v hm) k

/-- The product of the spectra is the DFT of the linear convolution. -/
theorem ExactArith.at_blockSpectrum {kernel block : List ℝ}
    (hd : (sequencePolynomial kernel).natDegree + (sequencePolynomial block).natDegree < 2 ^ lg) {k : Nat}
    (hk : k < 2 ^ lg) : (A.at (A.blockSpectrum lg (A.kernelSpectrum lg kernel) block) k).toComplex =
      referenceDft (2 ^ lg) (sequencePolynomial kernel * sequencePolynomial block).coeff k := by
  rw [Arith.blockSpectrum, A.at_map_range _ hk, hA.cprod_plus, Arith.kernelSpectrum, hA.at_fwd_padded hlg kernel hk,
    hA.at_fwd_padded hlg block hk, referenceDft_mul hd]

/-- The inverse transform recovers the values whose DFT it is given (R190, R195). -/
theorem ExactArith.at_inverse_of_dft {y : List (Cpx ℝ)} {x : Nat → ℂ}
    (h : ∀ k < 2 ^ lg, (A.at y k).toComplex = referenceDft (2 ^ lg) x k) {t : Nat} (ht : t < 2 ^ lg) :
    (A.at (A.inverse lg y) t).toComplex = x t := by
  have hN : ((2 ^ lg : Nat) : ℂ) ≠ 0 := Nat.cast_ne_zero.2 (Nat.two_pow_pos lg).ne'
  have hback : 2 ^ lg ∣ t + (2 ^ lg - t) % 2 ^ lg := by
    rw [Nat.dvd_iff_mod_eq_zero, Nat.add_mod_mod, Nat.add_sub_cancel' ht.le, Nat.mod_self]
  rw [hA.at_inverse hlg _ ht, referenceDft_congr h, referenceDft_referenceDft _ ht hback, inv_mul_cancel_left₀ hN]

end

/-- Settles O57: the inverse transform of the product of the spectra is the product polynomial's coefficients. -/
theorem overlapAddConvolves : Obligations.OverlapAddConvolves := by
  intro A hA lg kernel block hlg hfit hk hb t ht
  have hdegree : (sequencePolynomial kernel).natDegree + (sequencePolynomial block).natDegree < 2 ^ lg := by
    have := sequencePolynomial_natDegree_lt hk
    have := sequencePolynomial_natDegree_lt hb
    omega
  have hvalue := hA.at_inverse_of_dft hlg (fun k hk => hA.at_blockSpectrum hlg hdegree hk) ht
  rw [coeff_mul_sequencePolynomial] at hvalue
  rw [A.olaBlock_getD lg _ block ht]
  exact congrArg Complex.re hvalue

end Sys2Proof.Machine
end

section
/-!
PROOF. Presentation, rejection, acceptance, completion and the interrupt output (spec/60_exceptions.md rules R240 to
R251). A presented word is rejected or accepted, said once in `present_rejects_or_accepts`; a completion is said once,
with everything it keeps, in `complete_frame`; the interrupt output is high exactly where one of its two masked flags is.
-/
namespace Sys2Proof.Machine

/-! ## Rejection -/

/-- Settles O8: a rejection goes by ERR, and a write of 1 to STATUS.ERR clears the three fields of `writeStatus_eq`. -/
theorem rejectionIsRecorded : Obligations.RejectionIsRecorded := by
  refine fun w e s => ⟨reject_first w e, reject_later w e, fun v hv => ?_⟩
  rw [writeStatus_eq]
  simp [hv]

/-- Settles O10, by the cases of `checkOf_code`. -/
theorem checksNameTwoCodes : Obligations.ChecksNameTwoCodes := fun _ _ _ _ _ => checkOf_code

/-! ## Presentation while a command runs -/

theorem State.busy_of_running {s : State} {i : Instr} {a0 a1 : Word} {left : Nat} (h : s.seq = .busy i a0 a1 left) :
    s.busy = true := by
  rw [State.busy, h]

theorem present_of_busy {s : State} (w : Word) (h : s.busy = true) : present w s = .next (reject w .busy s) :=
  if_pos h

/-- Settles O7: the write presents the word, whose rejection is quiet; the writes to ARG0 and ARG1 do not ask whether a
command runs. -/
theorem busyRejects : Obligations.BusyRejects := by
  refine fun s i a0 a1 left addr w hs => ⟨fun ha => ⟨?rejected, ?running, ?result⟩, fun ha => ?arg0, fun ha => ?arg1⟩
  case rejected =>
    calc hostWrite addr w 0b1111 s = present w s := hostWrite_csr (placeOf_of_aligned ha (by decide)) w s
      _ = .next (reject w .busy s) := present_of_busy w (State.busy_of_running hs)
  case running => exact (reject_seq w .busy s).trans hs
  case result =>
    exact dataOf_complete_congr (Quiet.reject w (by decide) s).toSameData hs ((reject_seq w .busy s).trans hs)
  case arg0 => exact hostWrite_csr (placeOf_of_aligned ha (by decide)) w s
  case arg1 => exact hostWrite_csr (placeOf_of_aligned ha (by decide)) w s

/-! ## Acceptance -/

/-- An accepted command completes with its own effect and the operands it was accepted with (R240, R241). -/
theorem complete_accept (i : Instr) (s : State) :
    complete (accept i s) = finish (effectOf i) s.arg0 s.arg1 (accept i s) := complete_busy (accept_seq i s)

/-- Settles O13: with host transactions before its completion, a command whose checks pass is left running. -/
theorem acceptanceLatches : Obligations.AcceptanceLatches := by
  intro i s n hs hd hc
  calc exec i s = .next (accept i s) := by rw [exec_eq_issue, issue_later hs hd hc]
    _ = _ := by rw [accept, hd]

/-- A command is rejected with a code, or accepted in an idle state in which all its checks pass (R240, R247). -/
theorem issue_rejects_or_accepts (i : Instr) (s : State) :
    (∃ e, e ≠ .none ∧ issue i (checkOf i) (effectOf i) s = reject (encode i) e s) ∨
    (s.seq = .idle ∧ checkOf i s.arg0 s.arg1 s = none ∧
      issue i (checkOf i) (effectOf i) s = if s.nextDelay = 0 then complete (accept i s) else accept i s) := by
  obtain ⟨_, he⟩ | ⟨_, e, hc, he⟩ | ⟨hs, hc, hd, he⟩ | ⟨hs, hc, hd, he⟩ := issue_cases i (checkOf i) (effectOf i) s
  · exact .inl ⟨.busy, by decide, he⟩
  · exact .inl ⟨e, checkOf_code_ne_none hc, he⟩
  · exact .inr ⟨hs, hc, by rw [he, if_pos hd, complete_accept]⟩
  · exact .inr ⟨hs, hc, by rw [he, if_neg hd.ne']⟩

/-- Settles O9: a word is rejected before it is issued, or it is the word of the command that is issued. -/
theorem allOrNothing : Obligations.AllOrNothing := by
  intro w s
  obtain ⟨_, hp⟩ | ⟨_, _, hp⟩ | ⟨i, _, hd, hp⟩ := present_cases w s
  case inl => exact ⟨_, hp, .inl ⟨.busy, by decide, rfl⟩⟩
  case inr.inl => exact ⟨_, hp, .inl ⟨.illegalCmd, by decide, rfl⟩⟩
  case inr.inr =>
    have hw : encode i = w := (encodeOfDecode w i hd).2
    obtain ⟨e, hne, he⟩ | ⟨hs, hc, he⟩ := issue_rejects_or_accepts i s
    · exact ⟨_, hp, .inl ⟨e, hne, hw ▸ he⟩⟩
    · exact ⟨_, hp, .inr ⟨i, hd, hs, hc, he⟩⟩

/-! ## Completion -/

theorem step_of_completionDue {s : State} (h : completionDue s = true) : step s = .next (complete s) := if_pos h

/-- A completion makes the sequencer idle, sets DONE, and keeps everything but the data (R241). -/
theorem complete_frame {s : State} {i : Instr} {a0 a1 : Word} {left : Nat} (h : s.seq = .busy i a0 a1 left) :
    complete s = { s with
      seq := .idle, done := true, facade := (complete s).facade, nodes := (complete s).nodes,
      ctxs := (complete s).ctxs, mem := (complete s).mem } := by
  rw [complete_busy h, finish, effectOf_sameControl i a0 a1 s]

/-- Settles O14: the step is the completion, which is the effect with the sequencer idle and DONE set. -/
theorem completionEvent : Obligations.CompletionEvent := by
  intro s i a0 a1 left hs hdue
  refine ⟨complete s, step_of_completionDue hdue, ?data, State.busy_of_idle (complete_seq s), complete_frame hs⟩
  case data => rw [complete_busy hs]; rfl

/-! ## The interrupt output -/

theorem irq_iff (s : State) : irq s = true ↔ (s.done = true ∧ s.doneie = true) ∨ (s.err = true ∧ s.errie = true) := by
  simp [irq]

theorem bit_beq_one (f : Bool) : (bit f == 1) = f := by cases f <;> rfl

/-- The output by the fields of STATUS and IRQEN (R250). -/
theorem irq_eq_fields (s : State) :
    irq s = ((bits (statusWord s) 1 1 == 1 && bits (irqenWord s) 0 0 == 1) ||
      (bits (statusWord s) 2 2 == 1 && bits (irqenWord s) 1 1 == 1)) := by
  obtain ⟨-, hdone, herr, -⟩ := statusWord_fields s
  obtain ⟨hdoneie, herrie, -⟩ := irqenWord_fields s
  rw [hdone, herr, hdoneie, herrie, bit_beq_one, bit_beq_one, bit_beq_one, bit_beq_one, irq]

/-- Settles O41: a completion sets DONE and a rejection sets ERR, both under the masks as they are. -/
theorem interruptLevel : Obligations.InterruptLevel := by
  refine fun s => ⟨irq_eq_fields s, fun hb hie => ?completion, fun w e hie => ?rejection, fun hdone v hv => ?mask,
    fun f => rfl⟩
  case completion =>
    refine (irq_iff _).2 (.inl ⟨?_, (SameOperands.complete s).doneie.trans hie⟩)
    cases hs : s.seq with
    | idle => simp [State.busy_of_idle hs] at hb
    | busy i a0 a1 left => rw [complete_frame hs]
  case rejection => exact (irq_iff _).2 (.inr ⟨reject_err w e s, (reject_errie w e s).trans hie⟩)
  case mask => exact (irq_iff _).2 (.inl ⟨hdone, hv⟩)

end Sys2Proof.Machine
end

section
/-!
PROOF. How a command ends (spec/70_reset_and_hazards.md rules R270, R271, R284 and R287): the completion of an accepted
command is the same whatever latency it was accepted with, a busy machine is idle after the completion or a reset, and a
reset that aborts a command reaches no byte and no context entry outside the command's spans.
-/
namespace Sys2Proof.Machine

/-! ## Latency -/

/-- A completion does not read the sequencer and the latency schedule, and keeps the latter (R241). -/
theorem finish_scheduled (q : Sequencer) (ds : List Nat) (i : Instr) (a0 a1 : Word) (s : State) :
    finish (effectOf i) a0 a1 (s.scheduled q ds) = { finish (effectOf i) a0 a1 s with delays := ds } := by
  rw [finish, effectOf_scheduled]
  rfl

/-- What an accepted command leaves when it completes does not depend on the latency n it was accepted with (R287). -/
theorem complete_accept_delays (i : Instr) (s : State) (n : Nat) (ds : List Nat) :
    complete (accept i { s with delays := n :: ds }) =
      { finish (effectOf i) s.arg0 s.arg1 s with delays := ds } :=
  (complete_accept i _).trans (finish_scheduled (.busy i s.arg0 s.arg1 n) ds i s.arg0 s.arg1 s)

/-- Settles O15: both are the completion of the accepted command, by `complete_accept_delays`. -/
theorem latencyDoesNotMatter : Obligations.LatencyDoesNotMatter := by
  intro i s n ds t u hs hc ht hu
  have hcheck : ∀ l, checkOf i s.arg0 s.arg1 { s with delays := l } = none :=
    fun l => (checkOf_congr (s := { s with delays := l }) (t := s) rfl rfl rfl i s.arg0 s.arg1).trans hc
  rw [exec_eq_issue, issue_later (s := { s with delays := (n + 1) :: ds }) hs rfl (hcheck _)] at ht
  rw [exec_eq_issue, issue_atOnce (s := { s with delays := 0 :: ds }) ⟨hs, rfl⟩ (hcheck _), ← complete_accept] at hu
  cases ht
  cases hu
  exact ⟨rfl, by rw [complete_accept_delays, complete_accept_delays]⟩

/-! ## Termination -/

/-- The completion of a running command is not due only while its delay lasts and the host's next event does not stall
(R93, R284). -/
theorem completionDue_eq_false_iff {s : State} {i : Instr} {a0 a1 : Word} {left : Nat}
    (hs : s.seq = .busy i a0 a1 left) :
    completionDue s = false ↔ left ≠ 0 ∧ ∃ op rest, s.bus = op :: rest ∧ op.stalls = false := by
  unfold completionDue
  rw [hs]
  cases s.bus <;> simp

/-- An event of a busy machine leaves it idle, or leaves the command with one host transaction fewer before its
completion (R284). -/
theorem step_of_running {s : State} {i : Instr} {a0 a1 : Word} {left : Nat} (hs : s.seq = .busy i a0 a1 left) :
    ∃ t, step s = .next t ∧ (t.seq = .idle ∨ ∃ n, left = n + 1 ∧ t.seq = .busy i a0 a1 n) := by
  cases hdue : completionDue s with
  | true => exact ⟨complete s, step_of_completionDue hdue, .inl (complete_seq s)⟩
  | false =>
    obtain ⟨hleft, op, rest, hb, hst⟩ := (completionDue_eq_false_iff hs).1 hdue
    obtain ⟨n, rfl⟩ := Nat.exists_eq_succ_of_ne_zero hleft
    obtain ⟨t, ht⟩ := perform_total op (takeOp rest s)
    refine ⟨t, (step_of_not_stalls hs hb hst).trans ht, ?_⟩
    have hq : (takeOp rest s).seq = .busy i a0 a1 n := by rw [takeOp_seq, hs]; rfl
    by_cases hr : op = .reset
    · subst hr
      cases ht
      exact .inl (resetEvent_build _).2
    · have quiet := Quiet.perform (State.busy_of_running hq) hr hst ht
      exact .inr ⟨n, rfl, quiet.seq.trans hq⟩

theorem run_succ_of_step {M : Host.Core} {s t : M.State} (h : M.step s = .next t) (k : Nat) :
    M.run (k + 1) s = M.run k t := by
  rw [Host.Core.run, h]

/-- Settles O17, by induction on the host transactions left. -/
theorem everyCommandEnds : Obligations.EveryCommandEnds := by
  intro s i a0 a1 left hs
  induction left generalizing s with
  | zero =>
    obtain ⟨t, ht, hidle | ⟨n, hn, -⟩⟩ := step_of_running hs
    · exact ⟨1, t, le_rfl, run_succ_of_step (M := Sys2Proof.core) ht 0, hidle⟩
    · cases hn
  | succ left ih =>
    obtain ⟨t, ht, hidle | ⟨n, hn, hrun⟩⟩ := step_of_running hs
    · exact ⟨1, t, by omega, run_succ_of_step (M := Sys2Proof.core) ht 0, hidle⟩
    · cases hn
      obtain ⟨k, u, hk, hu, hidle⟩ := ih t hrun
      exact ⟨k + 1, u, by omega, (run_succ_of_step (M := Sys2Proof.core) ht k).trans hu, hidle⟩

/-! ## Bytes at a reset of a busy machine -/

theorem byte_forgetSpans_outside {ws : List BankSpan} {s : State} {a : Nat}
    (h : ∀ w ∈ ws, OutsideSpan s.build w.bank w.first w.count a) : (ws.foldl forgetSpan s).byte a = s.byte a := by
  induction ws generalizing s with
  | nil => rfl
  | cons w ws ih =>
    obtain ⟨hw, hws⟩ := List.forall_mem_cons.1 h
    calc ((w :: ws).foldl forgetSpan s).byte a
        = (forgetSpan s w).byte a := ih (s := forgetSpan s w) (by rwa [forgetSpan_build])
      _ = s.byte a := byte_setBlock_outside (by simp) hw

theorem forgetSpans_epoch (ws : List BankSpan) (s : State) : (ws.foldl forgetSpan s).epoch = s.epoch := by
  induction ws generalizing s with
  | nil => rfl
  | cons w ws ih => exact (ih (forgetSpan s w)).trans (s.setBlock_epoch ..)

theorem forgetContext_epoch (s : State) (span : Option (Nat × Bool × Nat)) : (forgetContext s span).epoch = s.epoch := by
  cases span <;> rfl

/-- The banks after an aborting reset are those with the command's samples forgotten (R271). -/
theorem byte_resetBusy (i : Instr) (a0 a1 : Word) (s : State) (a : Nat) :
    (resetBusy i a0 a1 s).byte a = ((bankSpans s a0 a1 i).foldl forgetSpan s).byte a :=
  State.byte_congr (forgetContext_epoch _ _) (forgetContext_mem _ _) a

/-! ## Context entries at a reset of a busy machine -/

/-- The contexts x and y read alike at entry j of each of their memories, with the same value where it is unwritten. -/
structure Context.SameEntry (j : Nat) (x y : Context) : Prop where
  kr : ∀ v, y.kr.getD j v = x.kr.getD j v
  ki : ∀ v, y.ki.getD j v = x.ki.getD j v
  acc : ∀ v, y.acc.getD j v = x.acc.getD j v

theorem Context.SameEntry.refl (j : Nat) (x : Context) : x.SameEntry j x := ⟨fun _ => rfl, fun _ => rfl, fun _ => rfl⟩

/-- What a state reads at entry j of context c is the entry, or the draw of its build and epoch (R59). -/
theorem Context.SameEntry.entries {s t : State} {c j : Nat} (h : (s.ctx c).SameEntry j (t.ctx c))
    (he : t.epoch = s.epoch) (hb : t.build = s.build) :
    t.krAt c j = s.krAt c j ∧ t.kiAt c j = s.kiAt c j ∧ t.accAt c j = s.accAt c j := by
  simp only [State.krAt, State.kiAt, State.accAt, unwrittenEntry_congr he hb, h.kr, h.ki, h.acc, and_self]

theorem Context.SameEntry.setCtx {s : State} {c d j : Nat} {x : Context} (h : d = c → (s.ctx c).SameEntry j x) :
    (s.ctx d).SameEntry j ((s.setCtx c x).ctx d) := by
  by_cases hd : d = c
  · subst hd
    by_cases hl : d < s.ctxs.length
    · rw [State.ctx_setCtx_same s d x hl]
      exact h rfl
    · rw [ctx_congr (t := s.setCtx d x) (List.set_eq_of_length_le (Nat.not_lt.1 hl))]
      exact .refl j _
  · rw [State.ctx_setCtx_ne s x hd]
    exact .refl j _

theorem getD_forgottenEntries (s : State) (c which : Nat) {n j : Nat} (old : List Sample) (h : n ≤ j) (v : Sample) :
    (forgottenEntries s c which n old).getD j v = old.getD j v := by
  rw [forgottenEntries, getD_overwrite, if_neg (by simpa using h)]

/-- Forgetting the first n entries of a context reaches neither its later entries nor another context (R271). -/
theorem Context.SameEntry.forgetContext {s : State} {span : Option (Nat × Bool × Nat)} {c j : Nat}
    (h : ∀ x, span = some x → c ≠ x.1 ∨ x.2.2 ≤ j) : (s.ctx c).SameEntry j ((forgetContext s span).ctx c) := by
  cases span with
  | none => exact .refl j _
  | some x =>
    obtain ⟨d, spectrumToo, n⟩ := x
    refine .setCtx fun hcd => ?_
    have hn : n ≤ j := (h _ rfl).resolve_left (not_not_intro hcd)
    cases spectrumToo with
    | true =>
      exact ⟨getD_forgottenEntries s d 0 _ hn, getD_forgottenEntries s d 1 _ hn, getD_forgottenEntries s d 2 _ hn⟩
    | false => exact ⟨fun _ => rfl, fun _ => rfl, getD_forgottenEntries s d 2 _ hn⟩

/-- The contexts after an aborting reset are those with the command's entries forgotten, made FREE (R58, R271). -/
theorem ctx_resetBusy (i : Instr) (a0 a1 : Word) (s : State) (c : Nat) :
    (resetBusy i a0 a1 s).ctx c =
      ((forgetContext ((bankSpans s a0 a1 i).foldl forgetSpan s) (contextSpan s a0 a1 i)).ctx c).released :=
  List.getD_map _ Context.fresh Context.released

theorem Context.SameEntry.resetBusy {i : Instr} {a0 a1 : Word} {s : State} {c j : Nat}
    (h : ∀ x, contextSpan s a0 a1 i = some x → c ≠ x.1 ∨ x.2.2 ≤ j) :
    (s.ctx c).SameEntry j ((resetBusy i a0 a1 s).ctx c) := by
  have hforget := Context.SameEntry.forgetContext (s := (bankSpans s a0 a1 i).foldl forgetSpan s) h
  rw [ctx_congr (forgetSpans_ctxs (bankSpans s a0 a1 i) s)] at hforget
  rw [ctx_resetBusy]
  exact ⟨hforget.kr, hforget.ki, hforget.acc⟩

/-- Settles O50: the spans of the aborted command are all that the reset forgets. -/
theorem resetWhileBusyKeeps : Obligations.ResetWhileBusyKeeps := by
  intro s i a0 a1 left hs
  have he : (resetBusy i a0 a1 s).epoch = s.epoch := (forgetContext_epoch _ _).trans (forgetSpans_epoch _ _)
  have hb : (resetBusy i a0 a1 s).build = s.build := by rw [← resetEvent_busy hs, (resetEvent_build s).1]
  refine ⟨resetBusy i a0 a1 s, congrArg _ (resetEvent_busy hs), fun a ha => ?bytes, fun c j hj => ?entries⟩
  case bytes => rw [byte_resetBusy, byte_forgetSpans_outside ha]
  case entries => exact (Context.SameEntry.resetBusy hj).entries he hb

end Sys2Proof.Machine
end
